-- ==== Sys2Proof/Word.lean ====
section
/-!
DEFINITION. The widths the ports and fields of the block have (spec rules R71, R74, R77, R100): every word is unsigned.
-/

namespace Sys2Proof

/-- A colour channel, and a byte of the captured frame: the `u8` of R5. -/
abbrev Byte := BitVec 8

/-- A count, an index or a coordinate of a command word: fields `A` and `B` (R71, R74). -/
abbrev Half := BitVec 16

/-- A packed colour, field `C` of a command word and `data` of a response word (R40, R73). -/
abbrev Packed := BitVec 24

/-- One word of the command port (R71). -/
abbrev CmdWord := BitVec 64

/-- One word of the response port (R77). -/
abbrev RspWord := BitVec 32

end Sys2Proof
end

