-- ==== Sys2Proof/Syntax.lean ====
section
/-!
DEFINITION. The commands of the block and what they carry: one constructor per row of `spec/opcode_table.json` (R70, R72, R76).
-/

namespace Sys2Proof

/-- A colour: three channels, each any value of 0 to 255; equality is structural (R100). -/
structure Color where
  red : Byte
  green : Byte
  blue : Byte
deriving DecidableEq, Repr

/-- How a logical position maps to a physical index (R14). The value 3 is never taken (U25), so the type has no name for it. -/
inductive Topo where
  | linear
  | rowMajor
  | serpentine
deriving DecidableEq, Repr

/-- The chipset profile (R15): it selects timing constants, and no functional rule reads it. -/
inductive Chip where
  | ws2811
  | ws2812
  | ws2812b
  | ws2813
deriving DecidableEq, Repr

/-- The fifteen commands (R70), and the payload word of `SETFRAME` (R76), which is the table's sixteenth row.
`SETFRAME` is its header word alone: the words that follow it are `payload` instructions, taken one by one (log entry 4). -/
inductive Instr where
  /-- `CONFIG n, topology, chip` (R150). `w` is the matrix width; for `linear` the field is ignored (R79) and read as 0. -/
  | config (n w : Half) (topo : Topo) (chip : Chip)
  /-- `CLEANUP` (R154). -/
  | cleanup
  /-- `SETLED index, color` (R110): `index` is a physical index. -/
  | setled (index : Half) (color : Color)
  /-- `GETLED index` (R111). -/
  | getled (index : Half)
  /-- `SETXY x, y, color` (R135). -/
  | setxy (x y : Half) (color : Color)
  /-- `GETXY x, y` (R136). -/
  | getxy (x y : Half)
  /-- `SETFRAME`'s header word: `count` payload words follow (R76, R137). -/
  | setframe (count : Half)
  /-- `GETFRAME` (R138). -/
  | getframe
  /-- `CLEAR` (R112). -/
  | clear
  /-- `SETALL color` (R113). -/
  | setall (color : Color)
  /-- `ACTIVE color` (R114). -/
  | active (color : Color)
  /-- `CYCLE` (R115). -/
  | cycle
  /-- `FIRSTVIS` (R116). -/
  | firstvis
  /-- `START` (R151). -/
  | start
  /-- `WAIT` (R152). -/
  | wait
  /-- A word in payload position after a `SETFRAME` header, its reserved bits zero (R76). -/
  | payload (color : Color)
deriving DecidableEq, Repr

/-- The pseudo-instruction `SHOW` (R82): it has no word of its own. -/
def showCommands : List Instr := [.start, .wait]

end Sys2Proof
end

