-- ==== Sys2Proof/Config.lean ====
section
/-!
DEFINITION. The build-time parameters of R4 that only the timing functions read: the chipset timing table and the clock.
The source gives no value for any of them (N1), so they are free values: nothing in Lean can evaluate them.
`NMAX`, which `CONFIG` reads, is the constant field `nmax` of the state (log entry 3).
-/

namespace Sys2Proof

/-- One row of the chipset timing table, its units as R220 chooses them. -/
structure Profile where
  /-- The fraction of a bit period `dout` is high for a 0 bit. -/
  dutyZero : Rat
  /-- The fraction of a bit period `dout` is high for a 1 bit. -/
  dutyOne : Rat
  /-- The bit rate in hertz. -/
  frequency : Rat
  /-- The least low time after a frame, in microseconds. -/
  resetDelay : Rat
deriving DecidableEq, Repr, Inhabited

/-- The constraint R4 puts on a row of the table. -/
abbrev Profile.Legal (p : Profile) : Prop :=
  0 < p.dutyZero ∧ p.dutyZero < p.dutyOne ∧ p.dutyOne < 1 ∧ 0 < p.frequency ∧ 0 < p.resetDelay

/-- The chipset timing table (R4, R220; decision D18): a free value for each chipset (log entry 11). -/
opaque Config.profile : Chip → Profile

/-- The frequency of `clk` in hertz, `F_CLK` (R4; decision D18): a free value (log entry 11). -/
opaque Config.fClk : Rat

end Sys2Proof
end

