-- ==== Sys2Proof/WellFormed.lean ====
section
/-!
DEFINITION. Which terms of `Instr` an encoding stands for. Every field is as wide as its bits (R71, R72), and the topology
and chipset are names, so one check remains: the field a `Linear` `CONFIG` ignores.
-/

namespace Sys2Proof

/-- `CONFIG n, LINEAR, chip` has no width: field `B` is ignored (R79), and is 0 in the assembler's form (R81).
The decoder reads the ignored field as 0 (log entry 9). -/
abbrev linearHasNoWidth (w : Half) (topo : Topo) : Prop := topo = .linear → w = 0

/-- The terms the decoder can give: every other field may hold any value. -/
abbrev Instr.WellFormed : Instr → Prop
  | .config _ w topo _ => linearHasNoWidth w topo
  | .cleanup => True
  | .setled _ _ => True
  | .getled _ => True
  | .setxy _ _ _ => True
  | .getxy _ _ => True
  | .setframe _ => True
  | .getframe => True
  | .clear => True
  | .setall _ => True
  | .active _ => True
  | .cycle => True
  | .firstvis => True
  | .start => True
  | .wait => True
  | .payload _ => True

end Sys2Proof
end

