-- ==== Sys2Proof/Decode.lean ====
section
/-!
DEFINITION. From a word of the command port to a command, or to the name of what is wrong with it (R71 to R76, R79, R80), and
back. The same map is written a second time as the masks and matches of R83.
-/

namespace Sys2Proof

/-! ### The fields of a word (R71) -/

/-- `op`, bits 63:56. -/
def opField (w : CmdWord) : BitVec 8 := w.extractLsb' 56 8

/-- `A`, bits 55:40. -/
def aField (w : CmdWord) : Half := w.extractLsb' 40 16

/-- `B`, bits 39:24. -/
def bField (w : CmdWord) : Half := w.extractLsb' 24 16

/-- `C`, bits 23:0. -/
def cField (w : CmdWord) : Packed := w.extractLsb' 0 24

/-- The word with the given fields. -/
def mkWord (op : BitVec 8) (a b : Half) (c : Packed) : CmdWord :=
  op.setWidth 64 <<< 56 ||| a.setWidth 64 <<< 40 ||| b.setWidth 64 <<< 24 ||| c.setWidth 64

/-! ### The colour operand (R73, R101, R102) -/

/-- `unpack(w) = (w[23:16], w[15:8], w[7:0])`: red, green, blue (R101). -/
def unpack (w : Packed) : Color := ⟨w.extractLsb' 16 8, w.extractLsb' 8 8, w.extractLsb' 0 8⟩

/-- `fromPacked` of a 32-bit operand: bits 31 to 24 are ignored, not checked (R101). -/
def unpack32 (w : BitVec 32) : Color := unpack (w.extractLsb' 0 24)

/-- `pack`: `red<<16 | green<<8 | blue` (R102). -/
def pack (c : Color) : Packed :=
  c.red.setWidth 24 <<< 16 ||| c.green.setWidth 24 <<< 8 ||| c.blue.setWidth 24

/-! ### Opcodes (R70) and mode bits (R75) -/

/-- The fifteen opcodes, by name. -/
inductive Opcode where
  | config
  | cleanup
  | setled
  | getled
  | setxy
  | getxy
  | setframe
  | getframe
  | clear
  | setall
  | active
  | cycle
  | firstvis
  | start
  | wait
deriving DecidableEq, Repr

/-- Every opcode, in the table's order. -/
def Opcode.all : List Opcode :=
  [.config, .cleanup, .setled, .getled, .setxy, .getxy, .setframe, .getframe, .clear, .setall, .active, .cycle, .firstvis,
    .start, .wait]

/-- The opcode numbers of R70. -/
def Opcode.code : Opcode → BitVec 8
  | .config => 0x01
  | .cleanup => 0x02
  | .setled => 0x10
  | .getled => 0x11
  | .setxy => 0x12
  | .getxy => 0x13
  | .setframe => 0x14
  | .getframe => 0x15
  | .clear => 0x20
  | .setall => 0x21
  | .active => 0x22
  | .cycle => 0x23
  | .firstvis => 0x24
  | .start => 0x30
  | .wait => 0x31

/-- The command an `op` field names; every other value is illegal (R70, R79). -/
def Opcode.ofByte (b : BitVec 8) : Option Opcode := Opcode.all.find? (fun o => o.code == b)

/-- `topo` of the mode bits; 3 is illegal (R75). -/
def Topo.ofBits (b : BitVec 2) : Option Topo :=
  if b = 0 then some .linear else if b = 1 then some .rowMajor else if b = 2 then some .serpentine else none

/-- The number of a topology (R14). -/
def Topo.code : Topo → BitVec 2
  | .linear => 0
  | .rowMajor => 1
  | .serpentine => 2

/-- `chip` of the mode bits (R75). -/
def Chip.ofBits (b : BitVec 2) : Chip :=
  if b = 0 then .ws2811 else if b = 1 then .ws2812 else if b = 2 then .ws2812b else .ws2813

/-- The number of a chipset (R15). -/
def Chip.code : Chip → BitVec 2
  | .ws2811 => 0
  | .ws2812 => 1
  | .ws2812b => 2
  | .ws2813 => 3

/-! ### Decoding -/

/-- Why a word is no legal command (R79): the block answers `InvalidCommand` for each of them. -/
inductive Reject where
  /-- An `op` value not in the table of R70. -/
  | unknownOpcode (op : BitVec 8)
  /-- A non-zero value in a field R72 marks 0. -/
  | reservedField (o : Opcode)
  /-- A non-zero reserved bit of `CONFIG`'s mode bits. -/
  | reservedModeBits
  /-- `CONFIG` with `topo = 3`. -/
  | illegalTopology
  /-- A `SETFRAME` header with a non-zero reserved field: its `count` payload words are taken all the same (R76). -/
  | frameHeader (count : Half)
  /-- A payload word with a non-zero reserved bit, and the colour of its low bits. -/
  | payloadReserved (color : Color)
deriving DecidableEq, Repr

/-- `CONFIG`'s word (R72, R75): `B` is ignored for `Linear`, and read as 0 there. -/
def decodeConfig (w : CmdWord) : Except Reject Instr :=
  if (cField w).extractLsb' 2 6 = 0 ∧ (cField w).extractLsb' 10 14 = 0 then
    match Topo.ofBits ((cField w).extractLsb' 0 2) with
    | none => .error .illegalTopology
    | some t =>
      .ok (.config (aField w) (if t = .linear then 0 else bField w) t (Chip.ofBits ((cField w).extractLsb' 8 2)))
  else .error .reservedModeBits

/-- The command `i` of opcode `o` where the fields that must be zero are. -/
def ifZero (fieldsZero : Bool) (o : Opcode) (i : Instr) : Except Reject Instr :=
  if fieldsZero then .ok i else .error (.reservedField o)

/-- A word in command position (R72, R79, R80). -/
def decodeCommand (w : CmdWord) : Except Reject Instr :=
  match Opcode.ofByte (opField w) with
  | none => .error (.unknownOpcode (opField w))
  | some .config => decodeConfig w
  | some .cleanup => ifZero (aField w == 0 && bField w == 0 && cField w == 0) .cleanup .cleanup
  | some .setled => ifZero (bField w == 0) .setled (.setled (aField w) (unpack (cField w)))
  | some .getled => ifZero (bField w == 0 && cField w == 0) .getled (.getled (aField w))
  | some .setxy => .ok (.setxy (aField w) (bField w) (unpack (cField w)))
  | some .getxy => ifZero (cField w == 0) .getxy (.getxy (aField w) (bField w))
  | some .setframe =>
    if bField w = 0 ∧ cField w = 0 then .ok (.setframe (aField w)) else .error (.frameHeader (aField w))
  | some .getframe => ifZero (aField w == 0 && bField w == 0 && cField w == 0) .getframe .getframe
  | some .clear => ifZero (aField w == 0 && bField w == 0 && cField w == 0) .clear .clear
  | some .setall => ifZero (aField w == 0 && bField w == 0) .setall (.setall (unpack (cField w)))
  | some .active => ifZero (aField w == 0 && bField w == 0) .active (.active (unpack (cField w)))
  | some .cycle => ifZero (aField w == 0 && bField w == 0 && cField w == 0) .cycle .cycle
  | some .firstvis => ifZero (aField w == 0 && bField w == 0 && cField w == 0) .firstvis .firstvis
  | some .start => ifZero (aField w == 0 && bField w == 0 && cField w == 0) .start .start
  | some .wait => ifZero (aField w == 0 && bField w == 0 && cField w == 0) .wait .wait

/-- A word in payload position: bits 63:24 must be zero, bits 23:0 are a colour (R76). It is never decoded as a command. -/
def decodePayload (w : CmdWord) : Except Reject Instr :=
  if w.extractLsb' 24 40 = 0 then .ok (.payload (unpack (cField w))) else .error (.payloadReserved (unpack (cField w)))

/-! ### Encoding -/

/-- `CONFIG`'s field `C`: `topo` in bits 1:0, `chip` in bits 9:8 (R75). -/
def modeBits (topo : Topo) (chip : Chip) : Packed := chip.code.setWidth 24 <<< 8 ||| topo.code.setWidth 24

/-- The word of an instruction, field by field as R72 and R76 give it. -/
def encode : Instr → CmdWord
  | .config n w topo chip => mkWord Opcode.config.code n w (modeBits topo chip)
  | .cleanup => mkWord Opcode.cleanup.code 0 0 0
  | .setled index color => mkWord Opcode.setled.code index 0 (pack color)
  | .getled index => mkWord Opcode.getled.code index 0 0
  | .setxy x y color => mkWord Opcode.setxy.code x y (pack color)
  | .getxy x y => mkWord Opcode.getxy.code x y 0
  | .setframe count => mkWord Opcode.setframe.code count 0 0
  | .getframe => mkWord Opcode.getframe.code 0 0 0
  | .clear => mkWord Opcode.clear.code 0 0 0
  | .setall color => mkWord Opcode.setall.code 0 0 (pack color)
  | .active color => mkWord Opcode.active.code 0 0 (pack color)
  | .cycle => mkWord Opcode.cycle.code 0 0 0
  | .firstvis => mkWord Opcode.firstvis.code 0 0 0
  | .start => mkWord Opcode.start.code 0 0 0
  | .wait => mkWord Opcode.wait.code 0 0 0
  | .payload color => mkWord 0 0 0 (pack color)

/-- The opcode of a command; a payload word has none. -/
def Instr.opcode : Instr → Option Opcode
  | .config _ _ _ _ => some .config
  | .cleanup => some .cleanup
  | .setled _ _ => some .setled
  | .getled _ => some .getled
  | .setxy _ _ _ => some .setxy
  | .getxy _ _ => some .getxy
  | .setframe _ => some .setframe
  | .getframe => some .getframe
  | .clear => some .clear
  | .setall _ => some .setall
  | .active _ => some .active
  | .cycle => some .cycle
  | .firstvis => some .firstvis
  | .start => some .start
  | .wait => some .wait
  | .payload _ => none

/-! ### The opcode map in full (R83) -/

/-- One row of the opcode map: a word is the row's command exactly when `w and mask = match`. -/
structure OpcodeRow where
  opcode : Opcode
  pattern : CmdWord
  mask : CmdWord
deriving DecidableEq, Repr

/-- The table of R83, its numbers as printed there. -/
def opcodeMap : List OpcodeRow :=
  [⟨.config, 0x0100000000000000, 0xFF00000000FFFCFC⟩,
   ⟨.cleanup, 0x0200000000000000, 0xFFFFFFFFFFFFFFFF⟩,
   ⟨.setled, 0x1000000000000000, 0xFF0000FFFF000000⟩,
   ⟨.getled, 0x1100000000000000, 0xFF0000FFFFFFFFFF⟩,
   ⟨.setxy, 0x1200000000000000, 0xFF00000000000000⟩,
   ⟨.getxy, 0x1300000000000000, 0xFF00000000FFFFFF⟩,
   ⟨.setframe, 0x1400000000000000, 0xFF0000FFFFFFFFFF⟩,
   ⟨.getframe, 0x1500000000000000, 0xFFFFFFFFFFFFFFFF⟩,
   ⟨.clear, 0x2000000000000000, 0xFFFFFFFFFFFFFFFF⟩,
   ⟨.setall, 0x2100000000000000, 0xFFFFFFFFFF000000⟩,
   ⟨.active, 0x2200000000000000, 0xFFFFFFFFFF000000⟩,
   ⟨.cycle, 0x2300000000000000, 0xFFFFFFFFFFFFFFFF⟩,
   ⟨.firstvis, 0x2400000000000000, 0xFFFFFFFFFFFFFFFF⟩,
   ⟨.start, 0x3000000000000000, 0xFFFFFFFFFFFFFFFF⟩,
   ⟨.wait, 0x3100000000000000, 0xFFFFFFFFFFFFFFFF⟩]

/-- Whether a word is a row's command. -/
abbrev OpcodeRow.Fits (r : OpcodeRow) (w : CmdWord) : Prop := w &&& r.mask = r.pattern

/-- The mask of a `SETFRAME` payload word; its match is 0 (R83). -/
def payloadMask : CmdWord := 0xFFFFFFFFFF000000

/-! ### Words numbered as the opcode table numbers them -/

/-- The word whose `nbits` low bits are those of `w`, the bits above them zero. -/
def tableWord (nbits w : Nat) : CmdWord := BitVec.ofNat 64 (w % 2 ^ nbits)

/-- What a word of the table stands for: a command, or, where it is none, a payload word (the table's sixteenth row; log entry 10).
A word in command position is read by `decodeCommand` alone. -/
def decodeTableWord (nbits w : Nat) : Option Instr :=
  match decodeCommand (tableWord nbits w) with
  | .ok i => some i
  | .error _ =>
    match decodePayload (tableWord nbits w) with
    | .ok i => some i
    | .error _ => none

end Sys2Proof
end

