-- ==== Sys2Proof/Machine/State.lean ====
section
/-!
DEFINITION. The state of the block (R10 to R22), the state of its ports (R23, R76, R80, R152), what the environment supplies
(the host's words, the schedule, `NMAX`), and the state after reset (R26, R210).
-/

namespace Sys2Proof.Machine

/-- The lifecycle (R11). -/
inductive Life where
  | unconfigured
  | ready
  | released
deriving DecidableEq, Repr

/-- The serializer's phase (R18). -/
inductive Phase where
  | idle
  | data
  | gap
deriving DecidableEq, Repr

/-- What the serializer puts on the wire (R63): a 0 bit, a 1 bit, the end-of-frame reset gap. -/
inductive Symbol where
  | t0
  | t1
  | res
deriving DecidableEq, Repr

/-- The error codes (R180); 8 to 15 are never produced. -/
inductive ErrCode where
  | ok
  | indexOutOfRange
  | frameLengthMismatch
  | invalidTopologyConfiguration
  | invalidState
  | busy
  | channelOverflow
  | invalidCommand
deriving DecidableEq, Repr

/-- A `SETFRAME` whose payload is still coming in (R76, R80). -/
structure FrameRx where
  /-- How many payload words have still to come. -/
  left : Nat
  /-- The colours taken so far, `F[0]` first. -/
  got : List Color
  /-- Whether the header and every payload word so far had their reserved bits zero (R79). -/
  legal : Bool
deriving DecidableEq, Repr

/-- The command in progress: at most one (R23). -/
inductive Port where
  /-- None: the next word is a command. -/
  | ready
  /-- A `SETFRAME`: the next word is a payload word. -/
  | frame (rx : FrameRx)
  /-- A `WAIT` held by `busy`: the port takes no word (R152). -/
  | waitHeld
deriving DecidableEq, Repr

/-- Whose step is next (R53): one of the two agents, or the host asserts `rst` (R210). -/
inductive Turn where
  | command
  | serializer
  | reset
deriving DecidableEq, Repr

/-- Why a step stops. No state a run can reach raises either (`State.Inv`); log entry 8. -/
inductive Fault where
  /-- Raised by a command that reads or writes an index below `N` that the buffer has no element for.
  SAFE: the spec's buffer has exactly `N` elements (R25), so no state of the hardware is like that. -/
  | elementMissing
  /-- Raised by the serializer's data step where the captured frame has no byte at the cursor.
  SAFE: the spec's frame has exactly `3N` bytes while a bit is left to send (R25). -/
  | frameByteMissing
deriving DecidableEq, Repr

/-- Why an instruction has no meaning. -/
inductive Refusal where
  /-- Raised by an arm of `exec` whose instruction has no meaning yet: none has. SAFE: the model stops. -/
  | notModelled (mnemonic : String)
deriving DecidableEq, Repr

/-- The block, its ports and its environment. -/
structure State where
  /-- `life` (R11). -/
  life : Life
  /-- `N`, the LED count (R12). -/
  numElements : Half
  /-- `W`, the effective matrix width (R13). -/
  width : Half
  /-- `topo` (R14). -/
  topo : Topo
  /-- `chip` (R15). -/
  chip : Chip
  /-- `buf`, the sequence buffer, `buf[0]` first (R16). -/
  buf : List Color
  /-- `txBytes`, the frame captured by the last `START`, in wire order (R17). -/
  txBytes : List Byte
  /-- `txPhase` (R18). -/
  txPhase : Phase
  /-- `txPos`, the bits of the current frame already emitted (R18). -/
  txPos : Nat
  /-- `lastErr`, the code of the most recent failing command (R21). -/
  lastErr : ErrCode
  /-- `wire`, every symbol emitted since reset, oldest first (R22). -/
  wire : List Symbol
  /-- The command in progress (R23, R76, R152; log entries 4 and 5). -/
  port : Port
  /-- Every response word since reset, oldest first (R23, R77; log entry 1). -/
  rspOut : List RspWord
  /-- The command words the host has still to transfer, the next one first (R23; log entry 1). -/
  cmdIn : List CmdWord
  /-- The schedule still to come (R53; log entry 2). -/
  sched : List Turn
  /-- `NMAX` (R4): an argument of every step, which no step writes (log entry 3). -/
  nmax : Nat
deriving DecidableEq, Repr

/-- The state after reset (R26). `buf` and `txBytes` are unspecified and unreachable there: the empty list is the model's
choice (log entry 7), as are the empty schedule (log entry 2) and `NMAX = 65535` (log entry 3). -/
def State.reset : State where
  life := .unconfigured
  numElements := 0
  width := 0
  topo := .linear
  chip := .ws2811
  buf := []
  txBytes := []
  txPhase := .idle
  txPos := 0
  lastErr := .ok
  wire := []
  port := .ready
  rspOut := []
  cmdIn := []
  sched := []
  nmax := 65535

end Sys2Proof.Machine
end

