-- ==== Sys2Proof/Machine/Flags.lean ====
section
/-!
DEFINITION. The predicates and functions of a value that commands test (R19, R103 to R106). There is no condition-code register.
-/

namespace Sys2Proof.Machine

/-- `busy = (txPhase != Idle)` (R19). -/
def busy (s : State) : Bool := s.txPhase != .idle

/-- `BLACK` (R103). -/
def black : Color := ⟨0, 0, 0⟩

/-- The named constant white, 128 in every channel (R104). -/
def white : Color := ⟨128, 128, 128⟩

/-- `visible`: any channel greater than 0 (R103). -/
def visible (c : Color) : Bool := 0 < c.red || 0 < c.green || 0 < c.blue

/-- A channel one higher, or `none` where that would pass 255 (R106). -/
def increment (b : Byte) : Option Byte := if b = 255 then none else some (b + 1)

/-- `cycled` (R105): one step of red to green to blue to red, the branches tested in that order; `none` is `overflow` (R106). -/
def cycled (c : Color) : Option Color :=
  if 0 < c.red ∧ c.blue = 0 then (increment c.green).map fun g => ⟨c.red - 1, g, c.blue⟩
  else if 0 < c.green then (increment c.blue).map fun b => ⟨c.red, c.green - 1, b⟩
  else if 0 < c.blue then (increment c.red).map fun r => ⟨r, c.green, c.blue - 1⟩
  else some c

/-- `cycled` of every colour, or `none` where any of them would overflow (R115). -/
def cycledAll : List Color → Option (List Color)
  | [] => some []
  | c :: cs =>
    match cycled c, cycledAll cs with
    | some c', some cs' => some (c' :: cs')
    | _, _ => none

end Sys2Proof.Machine
end

