-- ==== Sys2Proof/Machine/Operands.lean ====
section
/-!
DEFINITION. How a command's operands reach an element: the physical index (R110), the index function of a logical position
(R130 to R132), the logical position of a whole frame (R134), and the buffer's own read and write (R16, R44).
-/

namespace Sys2Proof.Machine

/-- `index(x, y)` (R130): exact, with no wrap-around, possibly negative. -/
def index (topo : Topo) (w : Half) (x y : Nat) : Int :=
  let base : Int := (y : Int) * (w.toNat : Int)
  if topo = .serpentine ∧ y % 2 = 1 then base + ((w.toNat : Int) - 1 - (x : Int)) else base + (x : Int)

/-- `phys(p)` (R134): the physical index of the logical row-major position `p`. -/
def phys (topo : Topo) (w : Half) (p : Nat) : Int := index topo w (p % w.toNat) (p / w.toNat)

/-- Whether a translated index lies in the buffer (R132): nothing else is checked. -/
def inRange (n : Half) (i : Int) : Bool := 0 ≤ i && i < (n.toNat : Int)

/-- Element `i` of the buffer, where there is one. -/
def readElem (buf : List Color) (i : Int) : Option Color := if 0 ≤ i then buf[i.toNat]? else none

/-- The buffer with element `i` written, where there is one: the other elements keep their value (R110). -/
def writeElem (buf : List Color) (i : Int) (c : Color) : Option (List Color) :=
  if 0 ≤ i ∧ i.toNat < buf.length then some (buf.set i.toNat c) else none

/-- `for p: buf[phys(p)] <- F[p]` (R137), the logical positions counted from `p`. -/
def writeFrame (topo : Topo) (w : Half) : Nat → List Color → List Color → Option (List Color)
  | _, [], buf => some buf
  | p, c :: cs, buf =>
    match writeElem buf (phys topo w p) c with
    | some buf' => writeFrame topo w (p + 1) cs buf'
    | none => none

/-- `G[p] = buf[phys(p)]` (R138) for `count` logical positions counted from `p`. -/
def readFrame (topo : Topo) (w : Half) (buf : List Color) : Nat → Nat → Option (List Color)
  | _, 0 => some []
  | p, count + 1 =>
    match readElem buf (phys topo w p), readFrame topo w buf (p + 1) count with
    | some c, some cs => some (c :: cs)
    | _, _ => none

end Sys2Proof.Machine
end

