-- ==== Sys2Proof/Machine/Ops.lean ====
section
/-!
DEFINITION. What every command shares: the response word (R77), answering, raising an error (R184), the lifecycle check
(R187), access to one element, and the block's reset (R210).
-/

namespace Sys2Proof.Machine

/-- What a command or a step answers. -/
abbrev Result := Host.Outcome State Fault Refusal

/-- The number of an error kind (R180). -/
def ErrCode.code : ErrCode → BitVec 4
  | .ok => 0
  | .indexOutOfRange => 1
  | .frameLengthMismatch => 2
  | .invalidTopologyConfiguration => 3
  | .invalidState => 4
  | .busy => 5
  | .channelOverflow => 6
  | .invalidCommand => 7

/-- The response word (R77): `status[31:28]`, zero `[27:25]`, `present[24]`, `data[23:0]`. -/
def rspWord (e : ErrCode) (present : Bool) (data : Packed) : RspWord :=
  e.code.setWidth 32 <<< 28 ||| (BitVec.ofBool present).setWidth 32 <<< 24 ||| data.setWidth 32

/-- `respond(OK)`, and `respond(OK, none)`. -/
def okWord : RspWord := rspWord .ok false 0

/-- `respond(OK, c)`. -/
def colorWord (c : Color) : RspWord := rspWord .ok true (pack c)

/-- The header word of `GETFRAME`: `N` in bits 15:0 (R77). -/
def countWord (n : Half) : RspWord := rspWord .ok false (n.setWidth 24)

/-- The one word of a failing command. -/
def errWord (e : ErrCode) : RspWord := rspWord e false 0

/-- The words go out on the response port, in order. -/
def State.answer (s : State) (ws : List RspWord) : State := { s with rspOut := s.rspOut ++ ws }

/-- `raise E` (R184) as a state: the error record and one response word, and nothing else. -/
def State.raised (s : State) (e : ErrCode) : State := { s with lastErr := e, rspOut := s.rspOut ++ [errWord e] }

/-- `raise E` (R184): the machine goes on. -/
def raise (e : ErrCode) (s : State) : Result := .next (s.raised e)

/-- The lifecycle check of every command but `CONFIG` (R187). -/
def whenReady (s : State) (k : Result) : Result := if s.life = .ready then k else raise .invalidState s

/-- `START` and `CLEANUP` are refused while a transfer is in flight (R183). -/
def whenIdle (s : State) (k : Result) : Result := if busy s then raise .busy s else k

/-- The range check on a physical or translated index (R132, R181). -/
def whenInRange (s : State) (i : Int) (k : Result) : Result :=
  if inRange s.numElements i then k else raise .indexOutOfRange s

/-- `buf[i] <- c; respond(OK)`, after the range check (R110, R135). -/
def writeAt (s : State) (i : Int) (c : Color) : Result :=
  whenInRange s i <|
    match writeElem s.buf i c with
    | some b => .next ({ s with buf := b }.answer [okWord])
    | none => .fault .elementMissing

/-- `respond(OK, buf[i])`, after the range check (R111, R136). -/
def readAt (s : State) (i : Int) : Result :=
  whenInRange s i <|
    match readElem s.buf i with
    | some c => .next (s.answer [colorWord c])
    | none => .fault .elementMissing

/-- Every element takes the colour; `respond(OK)` (R112, R113). -/
def fill (s : State) (c : Color) : Result :=
  .next ({ s with buf := List.replicate s.numElements.toNat c }.answer [okWord])

/-- The block after `rst` (R210): the reset state. The host's remaining words, the schedule and `NMAX` are not the block's
own and stay (log entry 6); a command in progress is abandoned with no response. -/
def State.hardReset (s : State) : State :=
  { State.reset with cmdIn := s.cmdIn, sched := s.sched, nmax := s.nmax }

end Sys2Proof.Machine
end

