-- ==== Sys2Proof/Machine/Addressed.lean ====
section
/-!
DEFINITION. The commands that go through the index function (R135 to R138), and the reception of `SETFRAME`'s payload (R76, R80).
-/

namespace Sys2Proof.Machine

/-- `SETXY x, y, color` (R135). -/
def execSetxy (x y : Half) (color : Color) (s : State) : Result :=
  whenReady s <| writeAt s (index s.topo s.width x.toNat y.toNat) color

/-- `GETXY x, y` (R136). -/
def execGetxy (x y : Half) (s : State) : Result :=
  whenReady s <| readAt s (index s.topo s.width x.toNat y.toNat)

/-- A `SETFRAME` whose words have all come (R137, checks in the order of R80 and R188): `got` are the colours `F[0]` on, as
many as the header's count said; `legal` says that no reserved bit was set. -/
def finishFrame (got : List Color) (legal : Bool) (s : State) : Result :=
  if legal then
    whenReady s <|
      if got.length = s.numElements.toNat then
        match writeFrame s.topo s.width 0 got s.buf with
        | some b => .next ({ s with buf := b }.answer [okWord])
        | none => .fault .elementMissing
      else raise .frameLengthMismatch s
  else raise .invalidCommand s

/-- After a word with `op = 0x14` exactly `count` payload words are taken, whether or not the command then fails (R76). -/
def beginFrame (count : Half) (legal : Bool) (s : State) : Result :=
  if count = 0 then finishFrame [] legal s else .next { s with port := .frame ⟨count.toNat, [], legal⟩ }

/-- One payload word; `legal` says that its reserved bits are zero. The last one completes the command (R76). In any other
position a word of this form has `op = 0` and is no command (R79; log entry 10). -/
def takePayload (color : Color) (legal : Bool) (s : State) : Result :=
  match s.port with
  | .frame rx =>
    if rx.left ≤ 1 then finishFrame (rx.got ++ [color]) (rx.legal && legal) { s with port := .ready }
    else .next { s with port := .frame ⟨rx.left - 1, rx.got ++ [color], rx.legal && legal⟩ }
  | .ready => raise .invalidCommand s
  | .waitHeld => raise .invalidCommand s

/-- `SETFRAME`'s header word (R76, R137). -/
def execSetframe (count : Half) (s : State) : Result := beginFrame count true s

/-- A payload word with its reserved bits zero (R76). -/
def execPayload (color : Color) (s : State) : Result := takePayload color true s

/-- `GETFRAME` (R138, R78): a header with `N`, then the colours in logical order. -/
def execGetframe (s : State) : Result :=
  whenReady s <|
    match readFrame s.topo s.width s.buf 0 s.numElements.toNat with
    | some g => .next (s.answer (countWord s.numElements :: g.map colorWord))
    | none => .fault .elementMissing

end Sys2Proof.Machine
end

