-- ==== Sys2Proof/Machine/Buffer.lean ====
section
/-!
DEFINITION. Direct access by physical index and the whole-buffer effects (R110 to R116).
-/

namespace Sys2Proof.Machine

/-- `SETLED index, color` (R110): no topology is applied. -/
def execSetled (i : Half) (color : Color) (s : State) : Result := whenReady s <| writeAt s (i.toNat : Int) color

/-- `GETLED index` (R111). -/
def execGetled (i : Half) (s : State) : Result := whenReady s <| readAt s (i.toNat : Int)

/-- `CLEAR` (R112). -/
def execClear (s : State) : Result := whenReady s <| fill s black

/-- `SETALL color` (R113). -/
def execSetall (color : Color) (s : State) : Result := whenReady s <| fill s color

/-- An element after `ACTIVE color` (R114): each is tested on its own old value. -/
def recolor (color c : Color) : Color := if visible c then color else c

/-- `ACTIVE color` (R114). -/
def execActive (color : Color) (s : State) : Result :=
  whenReady s <| .next ({ s with buf := s.buf.map (recolor color) }.answer [okWord])

/-- `CYCLE` (R115): all or nothing. -/
def execCycle (s : State) : Result :=
  whenReady s <|
    match cycledAll s.buf with
    | some b => .next ({ s with buf := b }.answer [okWord])
    | none => raise .channelOverflow s

/-- The response of `FIRSTVIS` (R116): the first visible element in physical index order, or none. -/
def firstVisibleWord (buf : List Color) : RspWord :=
  match buf.find? visible with
  | some c => colorWord c
  | none => okWord

/-- `FIRSTVIS` (R116). -/
def execFirstvis (s : State) : Result := whenReady s <| .next (s.answer [firstVisibleWord s.buf])

end Sys2Proof.Machine
end

