-- ==== Sys2Proof/Machine/Lifecycle.lean ====
section
/-!
DEFINITION. Construction and release: `CONFIG` (R150) and `CLEANUP` (R154).
-/

namespace Sys2Proof.Machine

/-- Whether `CONFIG` refuses its operands: `N = 0`, `N > NMAX`, or a matrix width that is 0 or does not divide `N` (R150, R185). -/
def badTopology (nmax : Nat) (n w : Half) (topo : Topo) : Bool :=
  n == 0 || decide (nmax < n.toNat) || (topo != .linear && (w == 0 || n.toNat % w.toNat != 0))

/-- The effective width: `N` for a straight chain (R131). -/
def effectiveWidth (n w : Half) (topo : Topo) : Half := if topo = .linear then n else w

/-- `CONFIG n, topology, chip` (R150): valid in `Unconfigured` only. -/
def execConfig (n w : Half) (topo : Topo) (chip : Chip) (s : State) : Result :=
  if s.life ≠ .unconfigured then raise .invalidState s
  else if badTopology s.nmax n w topo then raise .invalidTopologyConfiguration s
  else
    .next ({ s with
      numElements := n
      topo := topo
      chip := chip
      width := effectiveWidth n w topo
      buf := List.replicate n.toNat black
      life := .ready }.answer [okWord])

/-- `CLEANUP` (R154): refused while a transfer is in flight; `buf` and the registers keep their values (U20). -/
def execCleanup (s : State) : Result :=
  whenReady s <| whenIdle s <| .next ({ s with life := .released }.answer [okWord])

end Sys2Proof.Machine
end

