-- ==== Sys2Proof/Machine/Transmit.lean ====
section
/-!
DEFINITION. The protocol encoder (R157, R158), the wire format (R60 to R63), `START` (R151) and `WAIT` (R152).
-/

namespace Sys2Proof.Machine

/-- The three bytes of one LED: green, red, blue (R41, R157). -/
def encodeColor (c : Color) : List Byte := [c.green, c.red, c.blue]

/-- `encode(buf)` (R157): the LEDs in physical index order, each channel byte unchanged. -/
def encodeFrame (buf : List Color) : List Byte := buf.flatMap encodeColor

/-- Data bit `k` of a frame: bit `7 - (k mod 8)` of byte `k div 8` (R60, R62). -/
def frameBit (bytes : List Byte) (k : Nat) : Option Bool := (bytes[k / 8]?).map fun b => b.getLsbD (7 - k % 8)

/-- The symbol of a data bit (R63). -/
def bitSymbol (b : Bool) : Symbol := if b then .t1 else .t0

/-- The eight symbols of a byte, most significant bit first (R62). -/
def byteSymbols (b : Byte) : List Symbol := (List.range 8).map fun k => bitSymbol (b.getLsbD (7 - k))

/-- `symbols(txBytes)` (R63): every data bit, then the reset gap. -/
def frameSymbols (bytes : List Byte) : List Symbol := bytes.flatMap byteSymbols ++ [.res]

/-- The length of a frame in data bits, `24 * N` (R60). -/
def frameBits (s : State) : Nat := 24 * s.numElements.toNat

/-- `START` (R151): the whole frame is captured now. -/
def execStart (s : State) : Result :=
  whenReady s <| whenIdle s <|
    .next ({ s with txBytes := encodeFrame s.buf, txPos := 0, txPhase := .data }.answer [okWord])

/-- `WAIT` (R152): answered at once where no transfer is in flight, else held (log entry 5). -/
def execWait (s : State) : Result :=
  whenReady s <| if busy s then .next { s with port := .waitHeld } else .next (s.answer [okWord])

/-- The held `WAIT` answers when the serializer has reached `Idle` (R152). -/
def releaseWait (s : State) : Result := .next ({ s with port := .ready }.answer [okWord])

end Sys2Proof.Machine
end

