-- ==== Sys2Proof/Machine/Dispatch.lean ====
section
/-!
DEFINITION. One arm per constructor of `Instr`: the meaning of each row of the opcode table.
-/

namespace Sys2Proof.Machine

def exec (i : Instr) (s : State) : Host.Outcome State Fault Refusal :=
  match i with
  | .config n w topo chip => Sys2Proof.Machine.execConfig n w topo chip s
  | .cleanup => Sys2Proof.Machine.execCleanup s
  | .setled k color => Sys2Proof.Machine.execSetled k color s
  | .getled k => Sys2Proof.Machine.execGetled k s
  | .setxy x y color => Sys2Proof.Machine.execSetxy x y color s
  | .getxy x y => Sys2Proof.Machine.execGetxy x y s
  | .setframe count => Sys2Proof.Machine.execSetframe count s
  | .getframe => Sys2Proof.Machine.execGetframe s
  | .clear => Sys2Proof.Machine.execClear s
  | .setall color => Sys2Proof.Machine.execSetall color s
  | .active color => Sys2Proof.Machine.execActive color s
  | .cycle => Sys2Proof.Machine.execCycle s
  | .firstvis => Sys2Proof.Machine.execFirstvis s
  | .start => Sys2Proof.Machine.execStart s
  | .wait => Sys2Proof.Machine.execWait s
  | .payload color => Sys2Proof.Machine.execPayload color s

end Sys2Proof.Machine
end

