-- ==== Sys2Proof/Machine/Command.lean ====
section
/-!
DEFINITION. The command agent (R2, R45, R80): it takes one word from the command port, decodes it in the position the port is
in, and runs it; and where a word of the opcode table is put so that the agent takes it next.
-/

namespace Sys2Proof.Machine

/-- A word that is no legal command, or no legal payload word (R79, R76). -/
def rejectWord (r : Reject) (s : State) : Result :=
  match r with
  | .unknownOpcode _ => raise .invalidCommand s
  | .reservedField _ => raise .invalidCommand s
  | .reservedModeBits => raise .invalidCommand s
  | .illegalTopology => raise .invalidCommand s
  | .frameHeader count => beginFrame count false s
  | .payloadReserved color => takePayload color false s

/-- A decoded word: the instruction runs, or the block answers for what is wrong with it. -/
def runDecoded (d : Except Reject Instr) (s : State) : Result :=
  match d with
  | .ok i => exec i s
  | .error r => rejectWord r s

/-- Whether the command agent has a step (R53): a word to take, or a held `WAIT` that `busy` no longer holds. -/
def commandEnabled (s : State) : Bool :=
  match s.port with
  | .ready => !s.cmdIn.isEmpty
  | .frame _ => !s.cmdIn.isEmpty
  | .waitHeld => !busy s

/-- The command agent's step (R80): one word is taken from the port, or the held `WAIT` answers. -/
def commandStep (s : State) : Result :=
  match s.port with
  | .waitHeld => releaseWait s
  | .ready =>
    match s.cmdIn with
    | [] => .next s
    | w :: ws => runDecoded (decodeCommand w) { s with cmdIn := ws }
  | .frame _ =>
    match s.cmdIn with
    | [] => .next s
    | w :: ws => runDecoded (decodePayload w) { s with cmdIn := ws }

/-- The position a word of the opcode table stands in: a word that is no command but a payload word comes as the one payload
word of a `SETFRAME` (log entry 10). -/
def portFor (w : CmdWord) : Port :=
  match decodeCommand w, decodePayload w with
  | .error _, .ok _ => .frame ⟨1, [], true⟩
  | _, _ => .ready

/-- The word stands first on the command port, the port is ready for it, and the schedule gives the command agent the next step. -/
def placeWord (s : State) (w : CmdWord) : State :=
  { s with cmdIn := w :: s.cmdIn, sched := .command :: s.sched, port := portFor w }

end Sys2Proof.Machine
end

