-- ==== Sys2Proof/Machine/Serializer.lean ====
section
/-!
DEFINITION. The serializer agent (R160 to R163): one symbol a step, from the captured frame alone.
-/

namespace Sys2Proof.Machine

/-- The data step (R161). -/
def dataStep (s : State) : Result :=
  match frameBit s.txBytes s.txPos with
  | some b =>
    .next { s with
      wire := s.wire ++ [bitSymbol b]
      txPos := s.txPos + 1
      txPhase := if s.txPos + 1 = frameBits s then .gap else .data }
  | none => .fault .frameByteMissing

/-- The gap step (R162): the reset delay has passed, and `busy` falls. -/
def gapStep (s : State) : Result := .next { s with wire := s.wire ++ [.res], txPhase := .idle }

/-- The serializer's step (R160); there is none in `Idle`. -/
def serializerStep (s : State) : Result :=
  match s.txPhase with
  | .idle => .next s
  | .data => dataStep s
  | .gap => gapStep s

end Sys2Proof.Machine
end

