-- ==== Sys2Proof/Machine/Schedule.lean ====
section
/-!
DEFINITION. Which enabled step is taken (R53, decision D29): the schedule of the state decides, and the serializer is weakly
fair, for past the schedule's end it steps whenever it can (log entry 2).
-/

namespace Sys2Proof.Machine

/-- One turn: the agent's step where it has one, and otherwise nothing. -/
def runTurn (t : Turn) (s : State) : Result :=
  match t with
  | .command => if commandEnabled s then commandStep s else .next s
  | .serializer => if busy s then serializerStep s else .next s
  | .reset => .next s.hardReset

/-- The step the schedule takes next. -/
def scheduledStep (s : State) : Result :=
  match s.sched with
  | [] => runTurn (if busy s then .serializer else .command) s
  | t :: ts => runTurn t { s with sched := ts }

end Sys2Proof.Machine
end

