-- ==== Sys2Proof/Machine/Step.lean ====
section
/-!
DEFINITION. One step of the block, and where an instruction is put so that the next step runs it.
-/

namespace Sys2Proof.Machine

/-- One step of one agent, or a reset (R45, R53, R210). -/
def step (s : State) : Host.Outcome State Fault Refusal := scheduledStep s

/-- `s` with the instruction of the opcode table whose `nbits` low bits are those of `w` next on the command port (log entry 14). -/
def State.withFetchWord (s : State) (nbits w : Nat) : State := placeWord s (tableWord nbits w)

end Sys2Proof.Machine
end

