-- ==== Sys2Proof/Machine/Assembler.lean ====
section
/-!
DEFINITION. The assembler's syntax (R81, R82): one command per line, `;` starting a comment. A line gives the instructions it
stands for, or `none` where it is no line of the syntax; `encode` then gives their words.
-/

namespace Sys2Proof.Machine

/-- What a line is made of. -/
inductive Token where
  | word (cs : List Char)
  | num (decimal : Bool) (n : Nat)
  | rgb (n : Nat)
  | comma
  | lpar
  | rpar
deriving DecidableEq, Repr

/-- The value of a decimal digit. -/
def digitValue (c : Char) : Option Nat :=
  if 48 ≤ c.toNat ∧ c.toNat ≤ 57 then some (c.toNat - 48) else none

/-- The value of a hexadecimal digit. -/
def hexValue (c : Char) : Option Nat :=
  if 48 ≤ c.toNat ∧ c.toNat ≤ 57 then some (c.toNat - 48)
  else if 65 ≤ c.toNat ∧ c.toNat ≤ 70 then some (c.toNat - 55)
  else if 97 ≤ c.toNat ∧ c.toNat ≤ 102 then some (c.toNat - 87)
  else none

/-- A letter, a digit or an underscore: what a name is made of. -/
def isNameChar (c : Char) : Bool :=
  (65 ≤ c.toNat && c.toNat ≤ 90) || (97 ≤ c.toNat && c.toNat ≤ 122) || (48 ≤ c.toNat && c.toNat ≤ 57) || c.toNat == 95

/-- The number the digits write in the base, from the left; `none` where one of them is no digit. -/
def readDigits (value : Char → Option Nat) (base : Nat) : Nat → List Char → Option Nat
  | acc, [] => some acc
  | acc, c :: cs =>
    match value c with
    | some d => readDigits value base (acc * base + d) cs
    | none => none

/-- A number, decimal or `0x` hexadecimal. -/
def readNumber : List Char → Option Nat
  | '0' :: 'x' :: c :: cs => readDigits hexValue 16 0 (c :: cs)
  | c :: cs => readDigits digitValue 10 0 (c :: cs)
  | [] => none

/-- Whether every character is a decimal digit. -/
def isDecimal (cs : List Char) : Bool := cs.all fun c => (digitValue c).isSome

/-- A run of name characters: a number where it starts with a digit, else a word. -/
def nameToken (cs : List Char) : Option Token :=
  match cs with
  | [] => none
  | c :: _ =>
    match digitValue c with
    | some _ => (readNumber cs).map (.num (isDecimal cs))
    | none => some (.word cs)

/-- `#RRGGBB`: exactly six hexadecimal digits. -/
def rgbToken (cs : List Char) : Option Token :=
  if cs.length = 6 then (readDigits hexValue 16 0 cs).map .rgb else none

/-- The token in front of the rest, where both are there. -/
def consToken (t : Option Token) (rest : Option (List Token)) : Option (List Token) :=
  match t, rest with
  | some t, some ts => some (t :: ts)
  | _, _ => none

/-- A line's tokens, up to a comment. The first argument bounds the number of tokens and blanks: a line's length is enough. -/
def lexLine : Nat → List Char → Option (List Token)
  | _, [] => some []
  | 0, _ :: _ => none
  | fuel + 1, c :: cs =>
    if c = ';' then some []
    else if c = ' ' ∨ c = '\t' then lexLine fuel cs
    else if c = ',' then consToken (some .comma) (lexLine fuel cs)
    else if c = '(' then consToken (some .lpar) (lexLine fuel cs)
    else if c = ')' then consToken (some .rpar) (lexLine fuel cs)
    else if c = '#' then consToken (rgbToken (cs.takeWhile isNameChar)) (lexLine fuel (cs.dropWhile isNameChar))
    else if isNameChar c then
      consToken (nameToken (c :: cs.takeWhile isNameChar)) (lexLine fuel (cs.dropWhile isNameChar))
    else none

/-- An integer operand: 0 to 65535. -/
def half (n : Nat) : Option Half := if n ≤ 65535 then some (BitVec.ofNat 16 n) else none

/-- A channel value in decimal: 0 to 255. -/
def channel (n : Nat) : Option Byte := if n ≤ 255 then some (BitVec.ofNat 8 n) else none

/-- The two colour names with a value (R81); the other eight have none (N7). -/
def namedColor (cs : List Char) : Option Color :=
  if cs = "black".toList then some black else if cs = "white".toList then some white else none

/-- A chipset's name. -/
def chipName (cs : List Char) : Option Chip :=
  if cs = "WS2811".toList then some .ws2811
  else if cs = "WS2812".toList then some .ws2812
  else if cs = "WS2812B".toList then some .ws2812b
  else if cs = "WS2813".toList then some .ws2813
  else none

/-- A colour operand and what follows it: `#RRGGBB`, `(r,g,b)`, or a name. -/
def parseColor : List Token → Option (Color × List Token)
  | .rgb n :: ts => some (unpack (BitVec.ofNat 24 n), ts)
  | .lpar :: .num true r :: .comma :: .num true g :: .comma :: .num true b :: .rpar :: ts =>
    match channel r, channel g, channel b with
    | some r, some g, some b => some (⟨r, g, b⟩, ts)
    | _, _, _ => none
  | .word cs :: ts => (namedColor cs).map fun c => (c, ts)
  | _ => none

/-- Colours separated by commas, to the end of the line. The first argument bounds their number. -/
def parseColors : Nat → List Token → Option (List Color)
  | 0, _ => none
  | fuel + 1, ts =>
    match parseColor ts with
    | some (c, []) => some [c]
    | some (c, .comma :: rest) => (parseColors fuel rest).map fun cs => c :: cs
    | _ => none

/-- Exactly one colour, to the end of the line. -/
def oneColor (ts : List Token) : Option Color :=
  match parseColor ts with
  | some (c, []) => some c
  | _ => none

/-- `CONFIG`'s operands: `LINEAR` has no width and leaves `B = 0`. -/
def parseConfig : List Token → Option Instr
  | [.num _ n, .comma, .word t, .comma, .word k] =>
    if t = "LINEAR".toList then
      match half n, chipName k with
      | some n, some k => some (.config n 0 .linear k)
      | _, _ => none
    else none
  | [.num _ n, .comma, .word t, .lpar, .num _ w, .rpar, .comma, .word k] =>
    match half n, half w, chipName k with
    | some n, some w, some k =>
      if t = "ROWMAJOR".toList then some (.config n w .rowMajor k)
      else if t = "SERPENTINE".toList then some (.config n w .serpentine k)
      else none
    | _, _, _ => none
  | _ => none

/-- One index. -/
def parseIndex : List Token → Option Half
  | [.num _ i] => half i
  | _ => none

/-- Two coordinates, to the end of the line. -/
def parsePair : List Token → Option (Half × Half)
  | [.num _ x, .comma, .num _ y] =>
    match half x, half y with
    | some x, some y => some (x, y)
    | _, _ => none
  | _ => none

/-- `index, color`. -/
def parseSetled : List Token → Option Instr
  | .num _ i :: .comma :: ts =>
    match half i, oneColor ts with
    | some i, some c => some (.setled i c)
    | _, _ => none
  | _ => none

/-- `x, y, color`. -/
def parseSetxy : List Token → Option Instr
  | .num _ x :: .comma :: .num _ y :: .comma :: ts =>
    match half x, half y, oneColor ts with
    | some x, some y, some c => some (.setxy x y c)
    | _, _, _ => none
  | _ => none

/-- `SETFRAME`'s colours, possibly none: the header with their count, then one payload word each (R76). -/
def frameInstrs (cs : List Color) : Option (List Instr) :=
  if cs.length ≤ 65535 then some (.setframe (BitVec.ofNat 16 cs.length) :: cs.map .payload) else none

/-- The colours of a `SETFRAME` line. -/
def parseSetframe : List Token → Option (List Instr)
  | [] => frameInstrs []
  | t :: ts =>
    match parseColors (t :: ts).length (t :: ts) with
    | some cs => frameInstrs cs
    | none => none

/-- The instructions where the line has no operand. -/
def noOperand (is : List Instr) : List Token → Option (List Instr)
  | [] => some is
  | _ :: _ => none

/-- One instruction, as a list. -/
def single (i : Option Instr) : Option (List Instr) := i.map fun i => [i]

/-- The instructions of a line's tokens (R81, R82). -/
def parseTokens : List Token → Option (List Instr)
  | [] => some []
  | .word m :: ts =>
    if m = "CONFIG".toList then single (parseConfig ts)
    else if m = "CLEANUP".toList then noOperand [.cleanup] ts
    else if m = "SETLED".toList then single (parseSetled ts)
    else if m = "GETLED".toList then single ((parseIndex ts).map .getled)
    else if m = "SETXY".toList then single (parseSetxy ts)
    else if m = "GETXY".toList then single ((parsePair ts).map fun p => .getxy p.1 p.2)
    else if m = "SETFRAME".toList then parseSetframe ts
    else if m = "GETFRAME".toList then noOperand [.getframe] ts
    else if m = "CLEAR".toList then noOperand [.clear] ts
    else if m = "SETALL".toList then single ((oneColor ts).map .setall)
    else if m = "ACTIVE".toList then single ((oneColor ts).map .active)
    else if m = "CYCLE".toList then noOperand [.cycle] ts
    else if m = "FIRSTVIS".toList then noOperand [.firstvis] ts
    else if m = "START".toList then noOperand [.start] ts
    else if m = "WAIT".toList then noOperand [.wait] ts
    else if m = "SHOW".toList then noOperand showCommands ts
    else none
  | _ => none

/-- The instructions a line of the assembler stands for. -/
def assembleLine (cs : List Char) : Option (List Instr) :=
  match lexLine cs.length cs with
  | some ts => parseTokens ts
  | none => none

end Sys2Proof.Machine
end

