-- ==== Sys2Proof/Machine/Chain.lean ====
section
/-!
DEFINITION. What the LED chain makes of the wire (R64). The chain is outside the block and no step reads it: these are functions
of a trace, for claims about what the LEDs show.
-/

namespace Sys2Proof.Machine

/-- The LEDs of a chain: what each shows, in chain order, and the data bits since the last reset gap. -/
structure Chain where
  shown : List Color
  bits : List Bool
deriving DecidableEq, Repr

/-- The byte whose most significant bit is the first of the bits (R62). -/
def byteOfBits (bits : List Bool) : Byte := bits.foldl (fun acc b => acc <<< 1 ||| (BitVec.ofBool b).setWidth 8) 0

/-- The colours that `n` LEDs take: each the first 24 of the bits that reach it, as green, red, blue, and passes on the rest. An
LED that fewer than 24 bits reach takes none. -/
def takenColors : Nat → List Bool → List Color
  | 0, _ => []
  | n + 1, bits =>
    if bits.length < 24 then []
    else
      ⟨byteOfBits ((bits.drop 8).take 8), byteOfBits (bits.take 8), byteOfBits ((bits.drop 16).take 8)⟩ ::
        takenColors n (bits.drop 24)

/-- On the reset gap every LED shows the colour it took; one that took none shows what it showed. -/
def Chain.latch (c : Chain) : Chain :=
  let taken := takenColors c.shown.length c.bits
  { shown := taken ++ c.shown.drop taken.length, bits := [] }

/-- The chain after one more symbol (R64). -/
def Chain.see (c : Chain) (y : Symbol) : Chain :=
  match y with
  | .t0 => { c with bits := c.bits ++ [false] }
  | .t1 => { c with bits := c.bits ++ [true] }
  | .res => c.latch

/-- The chain after a trace of symbols. -/
def Chain.after (c : Chain) (wire : List Symbol) : Chain := wire.foldl Chain.see c

end Sys2Proof.Machine
end

