-- ==== Sys2Proof/Machine/Timing.lean ====
section
/-!
DEFINITION. The waveform rules (R63, R200, R220 to R222): what a symbol is on `dout` in real time and in clock ticks. No functional
rule reads them: every function here takes the timing tuple and the clock as arguments.
-/

namespace Sys2Proof.Machine

/-- The level of `dout`. -/
inductive Level where
  | low
  | high
deriving DecidableEq, Repr

/-- One symbol in seconds: high first, then low (R221). -/
structure Pulse where
  high : Rat
  low : Rat
deriving DecidableEq, Repr

/-- The bit period `P = 1 / f` in seconds (R221). -/
def bitPeriod (p : Profile) : Rat := 1 / p.frequency

/-- The symbols in real time (R221). `RES` is low for at least the reset delay: this is its least length. -/
def symbolPulse (p : Profile) : Symbol → Pulse
  | .t0 => ⟨p.dutyZero * bitPeriod p, (1 - p.dutyZero) * bitPeriod p⟩
  | .t1 => ⟨p.dutyOne * bitPeriod p, (1 - p.dutyOne) * bitPeriod p⟩
  | .res => ⟨0, p.resetDelay / 1000000⟩

/-- `round`: to nearest, ties up (R222). -/
def roundNearest (x : Rat) : Int := (x + 1 / 2).floor

/-- The tick counts of R222. -/
structure Ticks where
  /-- `T_BIT`, ticks per bit period. -/
  bit : Nat
  /-- `T0H`, ticks high for a 0 bit. -/
  high0 : Nat
  /-- `T1H`, ticks high for a 1 bit. -/
  high1 : Nat
  /-- `T_RES`, ticks low for the reset gap. -/
  gap : Nat
deriving DecidableEq, Repr

/-- `T_BIT`, `T0H`, `T1H`, `T_RES` of a clock and a row of the timing table (R222). -/
def ticksOf (fClk : Rat) (p : Profile) : Ticks :=
  let bit := (roundNearest (fClk / p.frequency)).toNat
  { bit := bit
    high0 := (roundNearest ((bit : Rat) * p.dutyZero)).toNat
    high1 := (roundNearest ((bit : Rat) * p.dutyOne)).toNat
    gap := (fClk * p.resetDelay / 1000000).ceil.toNat }

/-- What `F_CLK` must be such that it holds: `0 < T0H < T1H < T_BIT` (R222). -/
abbrev Ticks.Legal (t : Ticks) : Prop := 0 < t.high0 ∧ t.high0 < t.high1 ∧ t.high1 < t.bit

/-- The tick counts of a chipset under this block's clock and timing table, both free values (R4). -/
def chipTicks (c : Chip) : Ticks := ticksOf Config.fClk (Config.profile c)

/-- The levels of `dout` over one symbol, one a tick: high first, then low (R221, R222). -/
def symbolLevels (t : Ticks) : Symbol → List Level
  | .t0 => List.replicate t.high0 .high ++ List.replicate (t.bit - t.high0) .low
  | .t1 => List.replicate t.high1 .high ++ List.replicate (t.bit - t.high1) .low
  | .res => List.replicate t.gap .low

/-- `dout` over a list of symbols: consecutive symbols follow with no space between them (R221). -/
def wireLevels (t : Ticks) (symbols : List Symbol) : List Level := symbols.flatMap (symbolLevels t)

/-- The ticks of a whole transfer of `n` LEDs: `24 * N * T_BIT + T_RES` (R222). -/
def transferTicks (t : Ticks) (n : Nat) : Nat := 24 * n * t.bit + t.gap

/-- What `configurePattern(totalBytes, frequency, resetDelay, dutyZero, dutyOne)` is given by `CONFIG` (R200). -/
structure Pattern where
  totalBytes : Nat
  timing : Profile
deriving DecidableEq, Repr

/-- The pattern of the configured device: `totalBytes = 3N`, the rest is `profile(chip)` (R200). -/
def patternOf (s : State) : Pattern := ⟨3 * s.numElements.toNat, Config.profile s.chip⟩

end Sys2Proof.Machine
end

