-- ==== Sys2Proof/Machine/Pins.lean ====
section
/-!
DEFINITION. The output pins of R23, each a function of the state.
-/

namespace Sys2Proof.Machine

/-- The pin `busy` (R19, R23). -/
def busyPin (s : State) : Bool := busy s

/-- The pins `err[3:0]` (R21, R23). -/
def errPins (s : State) : BitVec 4 := s.lastErr.code

/-- The pin `cmd_ready` (R23, R152): low while a `WAIT` is held. R23 also lowers it until a command's last response word is accepted,
which here is at once (log entry 1). -/
def cmdReadyPin (s : State) : Bool := s.port != .waitHeld

/-- The levels a symbol takes, in order and without their lengths (R63). -/
def symbolShape : Symbol → List Level
  | .t0 => [.high, .low]
  | .t1 => [.high, .low]
  | .res => [.low]

/-- The pin `dout` between two steps (R63): the last level of the last symbol emitted, and low before the first. -/
def doutPin (s : State) : Level := (s.wire.flatMap symbolShape).getLastD .low

end Sys2Proof.Machine
end

