-- ==== Sys2Proof/Safety.lean ====
section
/-!
DEFINITION. The terms claims are stated in: the invariants of R25 and R224, the safety predicate of R189, and what is still to
be sent of the frame in flight (R164).
-/

namespace Sys2Proof.Machine

/-- The constraint R4 puts on `NMAX`. -/
abbrev ParamsLegal (s : State) : Prop := 1 ≤ s.nmax ∧ s.nmax ≤ 65535

/-- What R25 says of the configuration and the buffer while `life = Ready`. -/
abbrev ConfigInv (s : State) : Prop :=
  1 ≤ s.numElements.toNat ∧ s.numElements.toNat ≤ s.nmax ∧
  1 ≤ s.width.toNat ∧ s.width.toNat ≤ s.numElements.toNat ∧ s.numElements.toNat % s.width.toNat = 0 ∧
  (s.topo = .linear → s.width = s.numElements) ∧
  s.buf.length = s.numElements.toNat

/-- What R25 says of the transfer in flight. -/
abbrev TransferInv (s : State) : Prop :=
  (s.txPhase = .data → s.txBytes.length = 3 * s.numElements.toNat ∧ s.txPos < frameBits s) ∧
  (s.txPhase = .gap → s.txPos = frameBits s)

/-- Whether the command in progress is one the block can be in: a `WAIT` is held only while `Ready` (R152), and a frame being
received still waits for a word (R76). -/
def portLegal (s : State) : Bool :=
  match s.port with
  | .ready => true
  | .frame rx => decide (0 < rx.left)
  | .waitHeld => decide (s.life = .ready)

/-- The invariant of R25, with the model's ports and parameter. -/
abbrev State.Inv (s : State) : Prop :=
  ParamsLegal s ∧ (s.life = .ready → ConfigInv s ∧ TransferInv s) ∧ (s.life ≠ .ready → s.txPhase = .idle) ∧ portLegal s = true

/-- `lastErr = 0`: no command has failed since reset (R189). -/
abbrev noCommandFailed (s : State) : Prop := s.lastErr = .ok

/-- How many data symbols stand after the last `RES`, given how many stood there before this symbol; `none` where a frame is
longer or shorter than `bits`. -/
def scanSymbol (bits : Nat) : Option Nat → Symbol → Option Nat
  | none, _ => none
  | some k, .res => if k = bits then some 0 else none
  | some k, .t0 => if k < bits then some (k + 1) else none
  | some k, .t1 => if k < bits then some (k + 1) else none

/-- The same over a whole trace: `some k` where every `RES` ends a run of exactly `bits` data symbols, and `k` follow the last. -/
def scanWire (bits : Nat) (wire : List Symbol) : Option Nat := wire.foldl (scanSymbol bits) (some 0)

/-- The data symbols of the frame in flight that stand on the wire. -/
def sentBits (s : State) : Nat := if busy s then s.txPos else 0

/-- R224: on the wire every frame's `24N` data symbols are followed by a `RES` before the next frame begins. -/
abbrev WireInv (s : State) : Prop :=
  if s.life = .unconfigured then s.wire = [] else scanWire (frameBits s) s.wire = some (sentBits s)

/-- The symbols of the frame in flight that the serializer has still to emit (R161, R162). -/
def pendingSymbols (s : State) : List Symbol :=
  match s.txPhase with
  | .idle => []
  | .data => (frameSymbols s.txBytes).drop s.txPos
  | .gap => [.res]

/-- `cycled`, `k` times (R107); `none` where one of the applications overflows. -/
def cycledTimes : Nat → Color → Option Color
  | 0, c => some c
  | k + 1, c =>
    match cycled c with
    | some c' => cycledTimes k c'
    | none => none

/-- The sum of the channels (R107). -/
def channelSum (c : Color) : Nat := c.red.toNat + c.green.toNat + c.blue.toNat

/-! ### How the operands of R81 are written: the forms of a numeral and of a colour, apart from how the assembler reads them -/

/-- The number that digits write in a base, the first digit the highest. -/
def numeral (base : Nat) (digits : List Nat) : Nat := digits.foldl (fun acc d => acc * base + d) 0

/-- A decimal digit as it is written. -/
def decimalChar (d : Fin 10) : Char := Char.ofNat (48 + d.val)

/-- A hexadecimal digit as it is written, in either case. -/
def hexChar (d : Bool × Fin 16) : Char :=
  if d.2.val < 10 then Char.ofNat (48 + d.2.val) else if d.1 then Char.ofNat (55 + d.2.val) else Char.ofNat (87 + d.2.val)

/-- The written forms of a number: decimal, or `0x` and hexadecimal digits (R81). -/
inductive NumberText : List Char → Nat → Prop where
  | decimal (ds : List (Fin 10)) (h : ds ≠ []) : NumberText (ds.map decimalChar) (numeral 10 (ds.map (·.val)))
  | hex (ds : List (Bool × Fin 16)) (h : ds ≠ []) :
      NumberText ('0' :: 'x' :: ds.map hexChar) (numeral 16 (ds.map (·.2.val)))

/-- The written forms of a colour: `#RRGGBB`, `(r,g,b)` in decimal, and the two names (R81). -/
inductive ColorText : List Char → Color → Prop where
  | packed (ds : List (Bool × Fin 16)) (h : ds.length = 6) :
      ColorText ('#' :: ds.map hexChar) (unpack (BitVec.ofNat 24 (numeral 16 (ds.map (·.2.val)))))
  | channels (r g b : Byte) (tr tg tb : List (Fin 10)) (hr : tr ≠ []) (hg : tg ≠ []) (hb : tb ≠ [])
      (er : numeral 10 (tr.map (·.val)) = r.toNat) (eg : numeral 10 (tg.map (·.val)) = g.toNat)
      (eb : numeral 10 (tb.map (·.val)) = b.toNat) :
      ColorText ('(' :: tr.map decimalChar ++ ',' :: tg.map decimalChar ++ ',' :: tb.map decimalChar ++ [')']) ⟨r, g, b⟩
  | black : ColorText "black".toList ⟨0, 0, 0⟩
  | white : ColorText "white".toList ⟨128, 128, 128⟩

/-- One colour or more, a comma and a blank between them. -/
inductive ColorsText : List Char → List Color → Prop where
  | one {t : List Char} {c : Color} (h : ColorText t c) : ColorsText t [c]
  | more {t ts : List Char} {c : Color} {cs : List Color} (h : ColorText t c) (hs : ColorsText ts cs) :
      ColorsText (t ++ ", ".toList ++ ts) (c :: cs)

/-- The name of a chipset as it is written (R81). -/
def chipText : Chip → List Char
  | .ws2811 => "WS2811".toList
  | .ws2812 => "WS2812".toList
  | .ws2812b => "WS2812B".toList
  | .ws2813 => "WS2813".toList

/-- A line: the mnemonic, `k` blanks, the operands. -/
def lineOf (mnemonic : String) (k : Nat) (operands : List Char) : List Char :=
  mnemonic.toList ++ List.replicate k ' ' ++ operands

end Sys2Proof.Machine
end

