-- ==== Sys2Proof/Certificates/Slice0/Obligations.lean ====
section
/-!
DEFINITION. The statements for the provers. Each docstring names the rules of the spec it formalises.
-/

open Sys2Proof Sys2Proof.Machine

/-! ### Reset and the invariants -/

/-- R26: the state after reset, register by register and pin by pin. `buf` and `txBytes` are unspecified there. -/
def Obligations.ResetStateIsTheTable : Prop :=
  State.reset.life = .unconfigured ∧ State.reset.numElements = 0 ∧ State.reset.width = 0 ∧
  State.reset.topo = .linear ∧ State.reset.chip = .ws2811 ∧ State.reset.txPhase = .idle ∧ State.reset.txPos = 0 ∧
  State.reset.lastErr = .ok ∧ State.reset.wire = [] ∧ doutPin State.reset = .low ∧ busyPin State.reset = false ∧
  errPins State.reset = 0 ∧ cmdReadyPin State.reset = true ∧ State.reset.rspOut = []

/-- R210: a reset may come in any state; it sets every register to its value of R26, abandons the command in progress and leaves no
response. After it the block waits for a command: no step without one changes anything but the schedule. Nothing else leaves
`Released` or clears `lastErr`. -/
def Obligations.ResetComesInAnyState : Prop :=
  (∀ (s : State) (ts : List Turn), s.sched = .reset :: ts →
    ∃ t, step s = .next t ∧ t.life = .unconfigured ∧ t.numElements = 0 ∧ t.width = 0 ∧ t.topo = .linear ∧
      t.chip = .ws2811 ∧ t.txPhase = .idle ∧ t.txPos = 0 ∧ t.lastErr = .ok ∧ t.wire = [] ∧ t.port = .ready ∧
      t.rspOut = [] ∧ doutPin t = .low ∧ busyPin t = false ∧ errPins t = 0 ∧ cmdReadyPin t = true) ∧
  (∀ s : State, s.life = .unconfigured → s.txPhase = .idle → s.port = .ready → s.cmdIn = [] →
    s.sched.head? ≠ some .reset → step s = .next { s with sched := s.sched.tail }) ∧
  (∀ s t : State, s.sched.head? ≠ some .reset → step s = .next t →
    (s.life = .released → t.life = .released) ∧ (s.lastErr ≠ .ok → t.lastErr ≠ .ok))

/-- The invariant of R25 and the framing of the wire of R224 hold after reset. -/
def Obligations.InvariantsHoldAtReset : Prop := State.reset.Inv ∧ WireInv State.reset

/-- R25: every step keeps the invariant. -/
def Obligations.EveryStepKeepsInvariant : Prop := ∀ s t : State, s.Inv → step s = .next t → t.Inv

/-- From a state with the invariant every step, and every instruction, answers a next state: neither fault of the model can arise
(log entry 8). -/
def Obligations.InvariantStatesNeverStop : Prop :=
  (∀ s : State, s.Inv → ∃ t, step s = .next t) ∧ (∀ (i : Instr) (s : State), s.Inv → ∃ t, exec i s = .next t)

/-- R224: every step keeps the framing of the wire: each frame's `24N` data symbols are followed by a `RES` before the next frame. -/
def Obligations.EveryStepKeepsWireFraming : Prop :=
  ∀ s t : State, s.Inv → WireInv s → step s = .next t → WireInv t

/-! ### Encoding -/

/-- Decoding the word of a well-formed instruction gives it back, with every operand at every value (R72, R75, R76). -/
def Obligations.DecodeEncodeRoundTrip : Prop :=
  (∀ i : Instr, i.WellFormed → (∀ c, i ≠ .payload c) → decodeCommand (encode i) = .ok i) ∧
  (∀ c : Color, decodePayload (encode (.payload c)) = .ok (.payload c))

/-- A word that decodes is the word of what it decodes to; only the field `B` of a `Linear` `CONFIG` is ignored (R79). -/
def Obligations.DecodedInstructionGivesItsWord : Prop :=
  (∀ (w : CmdWord) (i : Instr), decodeCommand w = .ok i →
    i.WellFormed ∧
    ((∀ (n v : Half) (k : Chip), i ≠ .config n v .linear k) → encode i = w) ∧
    (∀ (n v : Half) (k : Chip), i = .config n v .linear k → encode i = mkWord (opField w) (aField w) 0 (cField w))) ∧
  (∀ (w : CmdWord) (i : Instr), decodePayload w = .ok i → i.WellFormed ∧ encode i = w)

/-- R83: a word is the command of a row exactly when `w and mask = match` (and, for `CONFIG`, `C[1:0] != 3`); no word fits two
rows; a payload word is one whose bits 63:24 are zero. -/
def Obligations.DecodeFollowsOpcodeMap : Prop :=
  (∀ (w : CmdWord) (o : Opcode),
    (∃ i, decodeCommand w = .ok i ∧ i.opcode = some o) ↔
      ∃ r ∈ opcodeMap, r.opcode = o ∧ r.Fits w ∧ (o = .config → w.extractLsb' 0 2 ≠ 3)) ∧
  (∀ w : CmdWord, ∀ r ∈ opcodeMap, ∀ r' ∈ opcodeMap, r.Fits w → r'.Fits w → r = r') ∧
  (∀ w : CmdWord, (∃ i, decodePayload w = .ok i) ↔ w &&& payloadMask = 0)

/-- A few words of the spec's examples and what they stand for. -/
def Obligations.SampleWordsDecode : Prop :=
  decodeCommand 0x0100060003000202 = .ok (.config 6 3 .serpentine .ws2812b) ∧
  decodeCommand 0x10000000000A141E = .ok (.setled 0 ⟨10, 20, 30⟩) ∧
  decodeCommand 0x1200020001FF0000 = .ok (.setxy 2 1 ⟨255, 0, 0⟩) ∧
  decodeCommand 0x1400060000000000 = .ok (.setframe 6) ∧
  decodeCommand 0x2200000000808080 = .ok (.active ⟨128, 128, 128⟩) ∧
  decodeCommand 0x3100000000000000 = .ok .wait ∧
  decodePayload 0x0000000000060000 = .ok (.payload ⟨6, 0, 0⟩)

/-! ### The command agent -/

/-- A step runs the decoded instruction: the command agent's turn takes the next word off the port, in the position the port is
in, and runs what it decodes to (R80, R76). The turn is the schedule's next entry, or, past its end, the command agent's
wherever the serializer has no step (log entry 2). The held `WAIT` is `Obligations.WaitAnswersOrHolds`. -/
def Obligations.StepRunsDecodedWord : Prop :=
  (∀ (s : State) (w : CmdWord) (ws : List CmdWord) (i : Instr),
    (s.sched.head? = some .command ∨ s.sched = [] ∧ busy s = false) →
    s.cmdIn = w :: ws → s.port = .ready → decodeCommand w = .ok i →
    step s = exec i { s with cmdIn := ws, sched := s.sched.tail }) ∧
  (∀ (s : State) (w : CmdWord) (ws : List CmdWord) (rx : FrameRx) (i : Instr),
    (s.sched.head? = some .command ∨ s.sched = [] ∧ busy s = false) →
    s.cmdIn = w :: ws → s.port = .frame rx → decodePayload w = .ok i →
    step s = exec i { s with cmdIn := ws, sched := s.sched.tail })

/-- The word of every well-formed instruction, placed where the next step fetches, is run by that step: a command in command
position, a payload word as the one word of a `SETFRAME` (log entries 10 and 14). -/
def Obligations.PlacedWordRunsItsInstruction : Prop :=
  (∀ i : Instr, i.WellFormed → decodeTableWord 64 (encode i).toNat = some i) ∧
  (∀ (s : State) (i : Instr), i.WellFormed → (∀ c, i ≠ .payload c) →
    step (s.withFetchWord 64 (encode i).toNat) = exec i { s with port := .ready }) ∧
  (∀ (s : State) (c : Color),
    step (s.withFetchWord 64 (encode (.payload c)).toNat) = exec (.payload c) { s with port := .frame ⟨1, [], true⟩ })

/-- Any enabled step may be taken next (R53): from one and the same state the schedule's entry decides whose it is. An agent
without a step lets its turn pass. Past the schedule's end the serializer steps whenever it can (log entry 2). -/
def Obligations.ScheduleChoosesTheAgent : Prop :=
  (∀ (s : State) (ts : List Turn),
    step { s with sched := .command :: ts } =
      if commandEnabled s = true then commandStep { s with sched := ts } else .next { s with sched := ts }) ∧
  (∀ (s : State) (ts : List Turn),
    step { s with sched := .serializer :: ts } =
      if busy s = true then serializerStep { s with sched := ts } else .next { s with sched := ts }) ∧
  (∀ s : State, s.sched = [] →
    step s = if busy s = true then serializerStep s else if commandEnabled s = true then commandStep s else .next s)

/-- R79, R83: a word in command position that matches no row of the opcode map (or only `CONFIG`'s, with `topo = 3`), and is no
`SETFRAME` header, answers `InvalidCommand` and changes nothing else, in every lifecycle state; the word and the turn are used up. -/
def Obligations.IllegalWordAnswersInvalidCommand : Prop :=
  ∀ (s : State) (w : CmdWord) (ws : List CmdWord),
    (s.sched.head? = some .command ∨ s.sched = [] ∧ busy s = false) →
    s.cmdIn = w :: ws → s.port = .ready →
    (∀ r ∈ opcodeMap, r.Fits w → r.opcode = .config ∧ w.extractLsb' 0 2 = 3) → opField w ≠ 0x14 →
    step s = .next ({ s with cmdIn := ws, sched := s.sched.tail }.raised .invalidCommand)

/-- R76, R80, R137, R187, R188: the whole `SETFRAME` command, one word a step (log entry 4) under a schedule that gives the command
agent these turns (log entry 2; what a turn of the serializer does between the words is `Obligations.ScheduleChoosesTheAgent`).
After a header with `op = 0x14` exactly `A` payload words are taken, none of them decoded as a command, whatever they hold and
whether or not the command then fails; only then does it answer. A reserved bit set anywhere is `InvalidCommand`; else the wrong
lifecycle state is `InvalidState`; else a count other than `N` is `FrameLengthMismatch`, and nothing is written; else
`buf[phys(p)]` is the `p`-th colour for every `p`. -/
def Obligations.SetframeTakesItsPayloadAndWrites : Prop :=
  ∀ (s : State) (w : CmdWord) (ps rest : List CmdWord) (ts : List Turn),
    opField w = 0x14 → ps.length = (aField w).toNat → s.port = .ready → s.cmdIn = w :: (ps ++ rest) →
    s.sched = List.replicate (ps.length + 1) .command ++ ts → s.Inv →
    if bField w ≠ 0 ∨ cField w ≠ 0 ∨ ∃ p ∈ ps, p.extractLsb' 24 40 ≠ 0 then
      Host.Core.run core (ps.length + 1) s = .next ({ s with cmdIn := rest, sched := ts }.raised .invalidCommand)
    else if s.life ≠ .ready then
      Host.Core.run core (ps.length + 1) s = .next ({ s with cmdIn := rest, sched := ts }.raised .invalidState)
    else if ps.length ≠ s.numElements.toNat then
      Host.Core.run core (ps.length + 1) s = .next ({ s with cmdIn := rest, sched := ts }.raised .frameLengthMismatch)
    else
      ∃ b : List Color,
        Host.Core.run core (ps.length + 1) s = .next ({ s with cmdIn := rest, sched := ts, buf := b }.answer [0]) ∧
        b.length = s.numElements.toNat ∧
        ∀ p : Nat, p < s.numElements.toNat →
          readElem b (phys s.topo s.width p) = (ps[p]?).map fun word => unpack (cField word)

/-! ### The colour functions -/

/-- R103, R104: a colour is visible exactly when a channel is greater than 0, that is, when it is not `BLACK`; the two constants. -/
def Obligations.VisibleMeansNotBlack : Prop :=
  (∀ c : Color, visible c = true ↔ 0 < c.red.toNat ∨ 0 < c.green.toNat ∨ 0 < c.blue.toNat) ∧
  (∀ c : Color, visible c = true ↔ c ≠ black) ∧ black = ⟨0, 0, 0⟩ ∧ white = ⟨128, 128, 128⟩ ∧ pack white = 0x808080

/-- R101, R102: `unpack` takes red, green, blue from the top, and ignores bits 31 to 24 of a 32-bit operand; `pack` is its inverse. -/
def Obligations.PackAndUnpackAreInverse : Prop :=
  (∀ w : Packed, (unpack w).red.toNat = w.toNat / 65536 ∧ (unpack w).green.toNat = w.toNat / 256 % 256 ∧
    (unpack w).blue.toNat = w.toNat % 256) ∧
  (∀ w : BitVec 32, unpack32 w = unpack (w.setWidth 24)) ∧
  (∀ c : Color, (pack c).toNat = c.red.toNat * 65536 + c.green.toNat * 256 + c.blue.toNat) ∧
  (∀ w : Packed, pack (unpack w) = w) ∧ (∀ c : Color, unpack (pack c) = c)

/-- R105, R106: exactly one branch is taken, tested in order; one channel loses 1 and one gains 1, as integers; the value is
missing exactly where the channel to be incremented holds 255. -/
def Obligations.CycledTakesOneBranch : Prop :=
  ∀ c : Color,
    if 0 < c.red.toNat ∧ c.blue.toNat = 0 then
      if c.green.toNat = 255 then cycled c = none
      else ∃ d : Color, cycled c = some d ∧
        d.red.toNat + 1 = c.red.toNat ∧ d.green.toNat = c.green.toNat + 1 ∧ d.blue = c.blue
    else if 0 < c.green.toNat then
      if c.blue.toNat = 255 then cycled c = none
      else ∃ d : Color, cycled c = some d ∧
        d.red = c.red ∧ d.green.toNat + 1 = c.green.toNat ∧ d.blue.toNat = c.blue.toNat + 1
    else if 0 < c.blue.toNat then
      if c.red.toNat = 255 then cycled c = none
      else ∃ d : Color, cycled c = some d ∧
        d.red.toNat = c.red.toNat + 1 ∧ d.green = c.green ∧ d.blue.toNat + 1 = c.blue.toNat
    else cycled c = some c

/-- R107: the laws of `cycled`: the sum is kept; a sum of at most 255 never overflows; the closure length of a pure channel of
value `v` is `3v` (765 from 255), along three edges; only black is fixed. -/
def Obligations.CycledLaws : Prop :=
  (∀ c d : Color, cycled c = some d → channelSum d = channelSum c) ∧
  (∀ (c : Color) (k : Nat), channelSum c ≤ 255 → ∃ d, cycledTimes k c = some d) ∧
  (cycledTimes 255 ⟨255, 0, 0⟩ = some ⟨0, 255, 0⟩ ∧ cycledTimes 510 ⟨255, 0, 0⟩ = some ⟨0, 0, 255⟩ ∧
    cycledTimes 765 ⟨255, 0, 0⟩ = some ⟨255, 0, 0⟩) ∧
  (∀ v k : Nat, 1 ≤ v → v ≤ 255 → k ≤ v →
    cycledTimes k ⟨BitVec.ofNat 8 v, 0, 0⟩ = some ⟨BitVec.ofNat 8 (v - k), BitVec.ofNat 8 k, 0⟩ ∧
    cycledTimes (v + k) ⟨BitVec.ofNat 8 v, 0, 0⟩ = some ⟨0, BitVec.ofNat 8 (v - k), BitVec.ofNat 8 k⟩ ∧
    cycledTimes (2 * v + k) ⟨BitVec.ofNat 8 v, 0, 0⟩ = some ⟨BitVec.ofNat 8 k, 0, BitVec.ofNat 8 (v - k)⟩) ∧
  (∀ (c : Color) (v : Nat), 1 ≤ v → v ≤ 255 →
    c = ⟨BitVec.ofNat 8 v, 0, 0⟩ ∨ c = ⟨0, BitVec.ofNat 8 v, 0⟩ ∨ c = ⟨0, 0, BitVec.ofNat 8 v⟩ →
    cycledTimes (3 * v) c = some c ∧ ∀ k, 0 < k → k < 3 * v → cycledTimes k c ≠ some c) ∧
  (∀ c : Color, cycled c = some c ↔ c = black)

/-! ### The index function -/

/-- R130: the two formulas, exact. -/
def Obligations.IndexFollowsTheFormulas : Prop :=
  (∀ (w : Half) (x y : Nat), index .linear w x y = (y : Int) * (w.toNat : Int) + (x : Int)) ∧
  (∀ (w : Half) (x y : Nat), index .rowMajor w x y = (y : Int) * (w.toNat : Int) + (x : Int)) ∧
  (∀ (w : Half) (x y : Nat), y % 2 = 0 → index .serpentine w x y = (y : Int) * (w.toNat : Int) + (x : Int)) ∧
  (∀ (w : Half) (x y : Nat), y % 2 = 1 →
    index .serpentine w x y = (y : Int) * (w.toNat : Int) + ((w.toNat : Int) - 1 - (x : Int)))

/-- R133: the relations between the formulas within a matrix's bounds. -/
def Obligations.IndexRelations : Prop :=
  (∀ (topo : Topo) (w : Half) (x y x' y' : Nat), x < w.toNat → x' < w.toNat →
    index topo w x y = index topo w x' y' → x = x' ∧ y = y') ∧
  (∀ (w : Half) (x y : Nat), x < w.toNat →
    index .linear w x y = (y : Int) * (w.toNat : Int) + (x : Int) ∧
    (y % 2 = 0 → index .serpentine w x y = index .linear w x y) ∧
    (y % 2 = 1 → index .serpentine w x y = (y : Int) * (w.toNat : Int) + ((w.toNat : Int) - 1 - (x : Int)) ∧
      index .serpentine w x y = index .linear w (w.toNat - 1 - x) y)) ∧
  (∀ (topo topo' : Topo) (w : Half) (x y : Nat), w.toNat = 1 → x < 1 → index topo w x y = index topo' w x y)

/-- R134: `index` is a bijection from the grid onto the buffer, and `phys` is a permutation of `0 .. N-1` that is its own inverse. -/
def Obligations.IndexIsABijection : Prop :=
  ∀ (topo : Topo) (w n : Half), 1 ≤ w.toNat → n.toNat % w.toNat = 0 →
    (∀ x y : Nat, x < w.toNat → y < n.toNat / w.toNat →
      0 ≤ index topo w x y ∧ index topo w x y < (n.toNat : Int)) ∧
    (∀ i : Nat, i < n.toNat →
      ∃! p : Nat × Nat, p.1 < w.toNat ∧ p.2 < n.toNat / w.toNat ∧ index topo w p.1 p.2 = (i : Int)) ∧
    (∀ p : Nat, p < n.toNat →
      0 ≤ phys topo w p ∧ phys topo w p < (n.toNat : Int) ∧ phys topo w (phys topo w p).toNat = (p : Int) ∧
      (topo ≠ .serpentine ∨ p / w.toNat % 2 = 0 → phys topo w p = (p : Int)) ∧
      (topo = .serpentine → p / w.toNat % 2 = 1 →
        phys topo w p = ((p / w.toNat * w.toNat + (w.toNat - 1 - p % w.toNat) : Nat) : Int)))

/-- R132: the least and the greatest value of the index of 16-bit coordinates, and where it is negative. -/
def Obligations.IndexStaysWithinThirtyThreeBits : Prop :=
  (∀ (topo : Topo) (w x y : Half), 1 ≤ w.toNat →
    -65534 ≤ index topo w x.toNat y.toNat ∧ index topo w x.toNat y.toNat ≤ 4294901760 ∧
    (index topo w x.toNat y.toNat < 0 ↔
      topo = .serpentine ∧ y.toNat % 2 = 1 ∧ y.toNat * w.toNat + w.toNat - 1 < x.toNat)) ∧
  index .serpentine 1 65535 1 = -65534 ∧ index .rowMajor 65535 65535 65535 = 4294901760

/-! ### Construction and release -/

/-- R150: `CONFIG`. -/
def Obligations.ConfigConstructs : Prop :=
  ∀ (n w : Half) (topo : Topo) (chip : Chip) (s : State),
    (s.life ≠ .unconfigured → exec (.config n w topo chip) s = .next (s.raised .invalidState)) ∧
    (s.life = .unconfigured →
      (n = 0 ∨ s.nmax < n.toNat ∨ (topo ≠ .linear ∧ (w = 0 ∨ n.toNat % w.toNat ≠ 0)) →
        exec (.config n w topo chip) s = .next (s.raised .invalidTopologyConfiguration)) ∧
      (n ≠ 0 → n.toNat ≤ s.nmax → (topo ≠ .linear → w ≠ 0 ∧ n.toNat % w.toNat = 0) →
        exec (.config n w topo chip) s =
          .next ({ s with
            numElements := n, topo := topo, chip := chip, width := if topo = Topo.linear then n else w,
            buf := List.replicate n.toNat ⟨0, 0, 0⟩, life := .ready }.answer [0])))

/-- R154: `CLEANUP`, and that every command after it raises `InvalidState` (`SETFRAME` when its last word has come). That the
registers which R16 leaves unspecified in `Released` keep their values is the model's choice (log entry 15). -/
def Obligations.CleanupReleases : Prop :=
  ∀ s : State,
    (s.life ≠ .ready → exec .cleanup s = .next (s.raised .invalidState)) ∧
    (s.life = .ready → s.txPhase ≠ .idle → exec .cleanup s = .next (s.raised .busy)) ∧
    (s.life = .ready → s.txPhase = .idle → exec .cleanup s = .next ({ s with life := .released }.answer [0])) ∧
    (s.life = .released → ∀ i : Instr, (∀ count, i ≠ .setframe count) → (∀ c, i ≠ .payload c) →
      exec i s = .next (s.raised .invalidState)) ∧
    (s.life = .released → ∀ got : List Color, finishFrame got true s = .next (s.raised .invalidState))

/-! ### Direct access and effects -/

/-- R110: `SETLED`. Every other element, and everything else, keeps its value. -/
def Obligations.SetledWritesOneElement : Prop :=
  ∀ (i : Half) (c : Color) (s : State), s.life = .ready →
    (s.numElements.toNat ≤ i.toNat → exec (.setled i c) s = .next (s.raised .indexOutOfRange)) ∧
    (i.toNat < s.numElements.toNat → s.buf.length = s.numElements.toNat →
      exec (.setled i c) s = .next ({ s with buf := s.buf.set i.toNat c }.answer [0]))

/-- R111: `GETLED`. -/
def Obligations.GetledReadsOneElement : Prop :=
  ∀ (i : Half) (s : State), s.life = .ready →
    (s.numElements.toNat ≤ i.toNat → exec (.getled i) s = .next (s.raised .indexOutOfRange)) ∧
    (i.toNat < s.numElements.toNat → s.buf.length = s.numElements.toNat →
      ∃ c, s.buf[i.toNat]? = some c ∧ exec (.getled i) s = .next (s.answer [colorWord c]))

/-- R112, R113: `CLEAR` and `SETALL`. -/
def Obligations.ClearAndSetallFillTheBuffer : Prop :=
  ∀ (c : Color) (s : State), s.life = .ready →
    exec (.setall c) s = .next ({ s with buf := List.replicate s.numElements.toNat c }.answer [0]) ∧
    exec .clear s = .next ({ s with buf := List.replicate s.numElements.toNat ⟨0, 0, 0⟩ }.answer [0])

/-- R114: `ACTIVE`: a visible element takes the colour, a black one stays black. -/
def Obligations.ActiveRecolorsVisibleElements : Prop :=
  ∀ (c : Color) (s : State), s.life = .ready →
    exec (.active c) s =
      .next ({ s with buf := s.buf.map fun d : Color => if d = black then black else c }.answer [0])

/-- R115: `CYCLE` is all or nothing. -/
def Obligations.CycleStepsEveryElementOrNone : Prop :=
  ∀ s : State, s.life = .ready →
    ((∃ c ∈ s.buf, cycled c = none) → exec .cycle s = .next (s.raised .channelOverflow)) ∧
    ((∀ c ∈ s.buf, cycled c ≠ none) →
      ∃ b : List Color, exec .cycle s = .next ({ s with buf := b }.answer [0]) ∧
        b.length = s.buf.length ∧ ∀ j : Nat, b[j]? = (s.buf[j]?).bind cycled)

/-- R116: `FIRSTVIS` answers the visible element of least physical index, or that there is none. -/
def Obligations.FirstvisFindsTheFirstVisible : Prop :=
  ∀ s : State, s.life = .ready →
    ((∀ c ∈ s.buf, c = black) → exec .firstvis s = .next (s.answer [0])) ∧
    (∀ (j : Nat) (c : Color), s.buf[j]? = some c → c ≠ black →
      (∀ k : Nat, k < j → s.buf[k]? = some black) →
      exec .firstvis s = .next (s.answer [colorWord c]))

/-! ### The addressed commands -/

/-- R135: `SETXY`. Only the translated index is checked; every other element, and everything else, keeps its value. -/
def Obligations.SetxyWritesTheTranslatedElement : Prop :=
  ∀ (x y : Half) (c : Color) (s : State), s.life = .ready →
    (index s.topo s.width x.toNat y.toNat < 0 ∨ (s.numElements.toNat : Int) ≤ index s.topo s.width x.toNat y.toNat →
      exec (.setxy x y c) s = .next (s.raised .indexOutOfRange)) ∧
    (∀ i : Nat, index s.topo s.width x.toNat y.toNat = (i : Int) → i < s.numElements.toNat →
      s.buf.length = s.numElements.toNat →
      exec (.setxy x y c) s = .next ({ s with buf := s.buf.set i c }.answer [0]))

/-- R136: `GETXY`. -/
def Obligations.GetxyReadsTheTranslatedElement : Prop :=
  ∀ (x y : Half) (s : State), s.life = .ready →
    (index s.topo s.width x.toNat y.toNat < 0 ∨ (s.numElements.toNat : Int) ≤ index s.topo s.width x.toNat y.toNat →
      exec (.getxy x y) s = .next (s.raised .indexOutOfRange)) ∧
    (∀ i : Nat, index s.topo s.width x.toNat y.toNat = (i : Int) → i < s.numElements.toNat →
      s.buf.length = s.numElements.toNat →
      ∃ c, s.buf[i]? = some c ∧ exec (.getxy x y) s = .next (s.answer [colorWord c]))

/-- R44, R110, R136: a read after a successful write to the same place gives what was written, and every other element reads as
before; by physical index and through the index function. -/
def Obligations.ReadAfterWriteGivesTheColor : Prop :=
  (∀ (i j : Half) (c : Color) (s : State), s.life = .ready → s.buf.length = s.numElements.toNat →
    i.toNat < s.numElements.toNat → j.toNat < s.numElements.toNat →
    ∃ (t : State) (d : Color), exec (.setled i c) s = .next t ∧ s.buf[j.toNat]? = some d ∧
      exec (.getled j) t = .next (t.answer [colorWord (if j = i then c else d)])) ∧
  (∀ (x y : Half) (c : Color) (s : State), s.life = .ready → s.buf.length = s.numElements.toNat →
    0 ≤ index s.topo s.width x.toNat y.toNat → index s.topo s.width x.toNat y.toNat < (s.numElements.toNat : Int) →
    ∃ t : State, exec (.setxy x y c) s = .next t ∧ exec (.getxy x y) t = .next (t.answer [colorWord c]))

/-- The words of a `SETFRAME` one by one (R76): a header with `count > 0` opens the reception and changes nothing else, in any
lifecycle state; with `count = 0` the command is over at once, and fails (R137, R187). Every payload word but the last is stored
as the next colour of the frame; outside a reception it is a word with `op = 0`, and no command (R79). That the reception is state
of the port is log entry 4; a payload word outside it is log entry 10. -/
def Obligations.SetframeWordsAreReceived : Prop :=
  (∀ (count : Half) (s : State), count ≠ 0 →
    exec (.setframe count) s = .next { s with port := .frame ⟨count.toNat, [], true⟩ }) ∧
  (∀ s : State, s.life ≠ .ready → exec (.setframe 0) s = .next (s.raised .invalidState)) ∧
  (∀ s : State, s.life = .ready → s.numElements ≠ 0 →
    exec (.setframe 0) s = .next (s.raised .frameLengthMismatch)) ∧
  (∀ (c : Color) (s : State) (rx : FrameRx), s.port = .frame rx → 1 < rx.left →
    exec (.payload c) s = .next { s with port := .frame ⟨rx.left - 1, rx.got ++ [c], rx.legal⟩ }) ∧
  (∀ (c : Color) (s : State), (∀ rx, s.port ≠ .frame rx) → exec (.payload c) s = .next (s.raised .invalidCommand))

/-- R137: the last payload word completes `SETFRAME`: with as many colours as `N`, `buf[phys(p)]` is `F[p]` for every `p`; with
another number nothing is written; with a reserved bit set somewhere the command is illegal. -/
def Obligations.SetframeWritesTheLogicalFrame : Prop :=
  ∀ (c : Color) (s : State) (rx : FrameRx), s.port = .frame rx → rx.left = 1 →
    (rx.legal = false →
      exec (.payload c) s = .next ({ s with port := .ready }.raised .invalidCommand)) ∧
    (rx.legal = true → s.life = .ready → rx.got.length + 1 ≠ s.numElements.toNat →
      exec (.payload c) s = .next ({ s with port := .ready }.raised .frameLengthMismatch)) ∧
    (rx.legal = true → s.life = .ready → s.Inv → rx.got.length + 1 = s.numElements.toNat →
      ∃ b : List Color,
        exec (.payload c) s = .next ({ s with port := .ready, buf := b }.answer [0]) ∧
        b.length = s.numElements.toNat ∧
        ∀ p : Nat, p < s.numElements.toNat → readElem b (phys s.topo s.width p) = (rx.got ++ [c])[p]?)

/-- R138: `GETFRAME` answers `N`, then `G[p] = buf[phys(p)]` for every `p`: `G[y * W + x]` is the LED at `(x, y)`. -/
def Obligations.GetframeReadsTheLogicalFrame : Prop :=
  ∀ s : State, s.life = .ready → s.Inv →
    ∃ g : List Color,
      exec .getframe s = .next (s.answer (countWord s.numElements :: g.map colorWord)) ∧
      g.length = s.numElements.toNat ∧
      (∀ p : Nat, p < s.numElements.toNat → g[p]? = readElem s.buf (phys s.topo s.width p)) ∧
      (∀ x y : Nat, x < s.width.toNat → y < s.numElements.toNat / s.width.toNat →
        g[y * s.width.toNat + x]? = readElem s.buf (index s.topo s.width x y))

/-- R139: for any frame and any topology, `SETFRAME F; GETFRAME` gives `F`; `SETFRAME` of what `GETFRAME` gave leaves the buffer
as it was; and `GETXY x, y` after `SETFRAME F` answers `F[y * W + x]`. -/
def Obligations.FrameRoundTrip : Prop :=
  (∀ (s : State) (frame : List Color), s.life = .ready → s.Inv → frame.length = s.numElements.toNat →
    ∃ t, finishFrame frame true s = .next t ∧
      exec .getframe t = .next (t.answer (countWord s.numElements :: frame.map colorWord)) ∧
      ∀ (x y : Half) (c : Color), x.toNat < s.width.toNat → y.toNat < s.numElements.toNat / s.width.toNat →
        frame[y.toNat * s.width.toNat + x.toNat]? = some c →
        exec (.getxy x y) t = .next (t.answer [colorWord c])) ∧
  (∀ (s : State) (g : List Color), s.life = .ready → s.Inv →
    exec .getframe s = .next (s.answer (countWord s.numElements :: g.map colorWord)) →
    finishFrame g true s = .next (s.answer [0]))

/-! ### Transmission -/

/-- R157, R158: `encode` gives green, red, blue of each LED in physical order, `3N` bytes. -/
def Obligations.EncodeIsGreenRedBlue : Prop :=
  ∀ buf : List Color,
    (encodeFrame buf).length = 3 * buf.length ∧
    ∀ (i : Nat) (c : Color), buf[i]? = some c →
      (encodeFrame buf)[3 * i]? = some c.green ∧ (encodeFrame buf)[3 * i + 1]? = some c.red ∧
      (encodeFrame buf)[3 * i + 2]? = some c.blue

/-- R60, R63: symbol `k` of a frame is that of data bit `k`: bit `7 - (k mod 8)` of byte `k div 8`; the last symbol is `RES`. -/
def Obligations.FrameSymbolsFollowTheBits : Prop :=
  ∀ bytes : List Byte,
    (frameSymbols bytes).length = 8 * bytes.length + 1 ∧
    (∀ (k : Nat) (b : Byte), bytes[k / 8]? = some b →
      (frameSymbols bytes)[k]? = some (if b.getLsbD (7 - k % 8) then .t1 else .t0)) ∧
    (frameSymbols bytes)[8 * bytes.length]? = some .res

/-- R151: `START`. -/
def Obligations.StartCapturesTheFrame : Prop :=
  ∀ s : State,
    (s.life ≠ .ready → exec .start s = .next (s.raised .invalidState)) ∧
    (s.life = .ready → s.txPhase ≠ .idle → exec .start s = .next (s.raised .busy)) ∧
    (s.life = .ready → s.txPhase = .idle →
      exec .start s =
        .next ({ s with txBytes := encodeFrame s.buf, txPos := 0, txPhase := .data }.answer [0]))

/-- R152: `WAIT` answers at once where no transfer is in flight; held, it changes nothing but the port, has no step while busy, and
answers once the serializer is idle. While it is held `cmd_ready` is low (R152, R23): the port takes no word. That the held command
is state of the port is log entry 5. That `cmd_ready` is low in no other state rests on log entry 1: R23 also lowers it from a
command's last word until its last response word is accepted, and the model's responses are accepted at once. -/
def Obligations.WaitAnswersOrHolds : Prop :=
  (∀ s : State,
    (s.life ≠ .ready → exec .wait s = .next (s.raised .invalidState)) ∧
    (s.life = .ready → s.txPhase = .idle → exec .wait s = .next (s.answer [0])) ∧
    (s.life = .ready → s.txPhase ≠ .idle → exec .wait s = .next { s with port := .waitHeld })) ∧
  (∀ (s : State) (ts : List Turn), s.port = .waitHeld → s.sched = .command :: ts →
    (s.txPhase ≠ .idle → step s = .next { s with sched := ts }) ∧
    (s.txPhase = .idle → step s = .next ({ s with sched := ts, port := .ready }.answer [0]))) ∧
  (∀ s : State, cmdReadyPin s = false ↔ s.port = .waitHeld)

/-- R161, R162: the data step and the gap step. Bits leave a byte from the top, which the spec infers (log entry 13); that the gap
step keeps `txPos`, which has no meaning while Idle, is the model's choice (log entry 15). -/
def Obligations.SerializerStepsEmitTheirSymbol : Prop :=
  (∀ (s : State) (b : Byte), s.txPhase = .data → s.txBytes[s.txPos / 8]? = some b →
    serializerStep s =
      .next { s with
        wire := s.wire ++ [if b.getLsbD (7 - s.txPos % 8) then .t1 else .t0]
        txPos := s.txPos + 1
        txPhase := if s.txPos + 1 = 24 * s.numElements.toNat then .gap else .data }) ∧
  (∀ s : State, s.txPhase = .gap →
    serializerStep s = .next { s with wire := s.wire ++ [.res], txPhase := .idle })

/-- R160: the serializer has a step exactly when `txPhase` is not Idle (under the invariant that step then answers); it writes
`txPhase`, `txPos`, `wire` and `dout` (a function of the wire) and touches nothing else; it reads `txBytes`, `txPhase`, `txPos` and
`N` alone: in two states that agree on them it emits the same symbols and moves the cursor and the phase alike, whatever `buf`, the
errors, the wire and the host hold. -/
def Obligations.SerializerTouchesNothingElse : Prop :=
  (∀ s t : State, serializerStep s = .next t →
    t = { s with txPhase := t.txPhase, txPos := t.txPos, wire := t.wire }) ∧
  (∀ s t : State, s.txPhase ≠ .idle → serializerStep s = .next t → ∃ y, t.wire = s.wire ++ [y]) ∧
  (∀ (s : State) (ts : List Turn), s.txPhase = .idle → s.sched = .serializer :: ts → step s = .next { s with sched := ts }) ∧
  (∀ s s' t : State, s'.txBytes = s.txBytes → s'.txPhase = s.txPhase → s'.txPos = s.txPos →
    s'.numElements = s.numElements → serializerStep s = .next t →
    ∃ (t' : State) (ys : List Symbol), serializerStep s' = .next t' ∧ t'.txPhase = t.txPhase ∧ t'.txPos = t.txPos ∧
      t.wire = s.wire ++ ys ∧ t'.wire = s'.wire ++ ys) ∧
  (∀ s : State, s.Inv → s.txPhase ≠ .idle →
    ∃ (t : State) (y : Symbol), serializerStep s = .next t ∧ t.wire = s.wire ++ [y])

/-- R156: the phase transitions, row by row; no command but `START` moves the phase or the cursor, and no step that is no reset moves
them otherwise. The pin `busy` (R19, R23) is high exactly while the phase is not Idle. -/
def Obligations.PhaseTransitions : Prop :=
  (∀ s t : State, s.life = .ready → s.txPhase = .idle → exec .start s = .next t → t.txPhase = .data ∧ t.txPos = 0) ∧
  (∀ s t : State, s.txPhase = .data → s.txPos + 1 < 24 * s.numElements.toNat → serializerStep s = .next t →
    t.txPhase = .data ∧ t.txPos = s.txPos + 1) ∧
  (∀ s t : State, s.txPhase = .data → s.txPos + 1 = 24 * s.numElements.toNat → serializerStep s = .next t →
    t.txPhase = .gap ∧ t.txPos = 24 * s.numElements.toNat) ∧
  (∀ s t : State, s.txPhase = .gap → serializerStep s = .next t → t.txPhase = .idle) ∧
  (∀ (s : State) (ts : List Turn), s.sched = .reset :: ts → ∃ t, step s = .next t ∧ t.txPhase = .idle) ∧
  (∀ (i : Instr) (s t : State), exec i s = .next t → i ≠ .start → t.txPhase = s.txPhase ∧ t.txPos = s.txPos) ∧
  (∀ s t : State, s.Inv → s.sched.head? ≠ some .reset → step s = .next t →
    (s.txPhase = .idle → t.txPhase = .idle ∨ (t.txPhase = .data ∧ t.txPos = 0)) ∧
    (s.txPhase = .data →
      (t.txPhase = .data ∧ t.txPos = s.txPos) ∨
      (s.txPos + 1 < frameBits s ∧ t.txPhase = .data ∧ t.txPos = s.txPos + 1) ∨
      (s.txPos + 1 = frameBits s ∧ t.txPhase = .gap ∧ t.txPos = frameBits s)) ∧
    (s.txPhase = .gap → (t.txPhase = .gap ∧ t.txPos = s.txPos) ∨ t.txPhase = .idle)) ∧
  (∀ s : State, busyPin s = true ↔ s.txPhase ≠ .idle)

/-- R163, R51: what is on the wire and still to be sent grows only by the frame a successful `START` captures: the step took the word
of `START` from the command port, in Ready and Idle, and answered `OK`. No other command changes the frame in flight, and no frame
is sent twice or of the block's own accord. -/
def Obligations.OnlyStartAddsToTheWire : Prop :=
  ∀ s t : State, s.Inv → s.sched.head? ≠ some .reset → step s = .next t →
    t.wire ++ pendingSymbols t = s.wire ++ pendingSymbols s ∨
    (s.port = .ready ∧ (∃ ws : List CmdWord, s.cmdIn = encode .start :: ws ∧ t.cmdIn = ws) ∧ t.rspOut = s.rspOut ++ [0] ∧
      s.life = .ready ∧ s.txPhase = .idle ∧ t.wire = s.wire ∧ t.txPhase = .data ∧
      pendingSymbols t = frameSymbols (encodeFrame s.buf))

/-- R22, R23: without a reset the trace of the wire and the responses only grow at their ends, the wire by at most one symbol a step. -/
def Obligations.TracesOnlyGrow : Prop :=
  ∀ s t : State, s.sched.head? ≠ some .reset → step s = .next t →
    (∃ ys, ys.length ≤ 1 ∧ t.wire = s.wire ++ ys) ∧ ∃ ws, t.rspOut = s.rspOut ++ ws

/-- R164, R53: after a successful `START` the serializer comes to rest, under any schedule that resets the block no more and whatever
commands the host issues meanwhile, and at the first such instant the wire has grown by exactly the symbols of the buffer as it
stood at `START`. That it comes to rest, and within this many steps, rests on the weak fairness of R53 as the model gives it: past
the schedule's end the serializer steps whenever it can (log entry 2). -/
def Obligations.FrameLaw : Prop :=
  ∀ s : State, s.Inv → s.life = .ready → s.txPhase = .idle → .reset ∉ s.sched →
    ∃ t0, exec .start s = .next t0 ∧
      ∃ (k : Nat) (t : State), k ≤ s.sched.length + 24 * s.numElements.toNat + 1 ∧
        Host.Core.run core k t0 = .next t ∧ t.txPhase = .idle ∧
        (∀ j : Nat, j < k → ∃ u, Host.Core.run core j t0 = .next u ∧ u.txPhase ≠ .idle) ∧
        t.wire = s.wire ++ frameSymbols (encodeFrame s.buf) ∧
        t.wire.length = s.wire.length + 24 * s.numElements.toNat + 1

/-- R152, R49, R53: a held `WAIT` always answers in the end, and when it does the frame in flight and its reset gap are on the wire. -/
def Obligations.HeldWaitAnswersInTheEnd : Prop :=
  ∀ s : State, s.Inv → s.port = .waitHeld → .reset ∉ s.sched →
    ∃ (k : Nat) (t : State), k ≤ s.sched.length + 24 * s.numElements.toNat + 2 ∧
      Host.Core.run core k s = .next t ∧ t.port = .ready ∧ t.txPhase = .idle ∧
      t.rspOut = s.rspOut ++ [okWord] ∧ t.wire = s.wire ++ pendingSymbols s ∧ t.buf = s.buf ∧ t.lastErr = s.lastErr

/-- R64: after a frame whose data bits follow a reset gap, the LED at chain position `i` shows element `i` of the buffer the frame was
captured from; LEDs past the frame keep what they showed. The rule is the spec's own general knowledge (log entry 18). -/
def Obligations.ChainShowsTheBuffer : Prop :=
  ∀ (buf : List Color) (c : Chain), c.bits = [] →
    c.after (frameSymbols (encodeFrame buf)) = ⟨buf.take c.shown.length ++ c.shown.drop buf.length, []⟩

/-! ### Rules over all commands -/

/-- R184: where a command answers a non-zero status, it answers exactly one word and has changed nothing but `lastErr` (a
`SETFRAME` also leaves the port ready for the next command). The codes are those of R180, and the pins `err` (R23) show the code. -/
def Obligations.ErrorsArePrecise : Prop :=
  (∀ (e : ErrCode) (s : State),
    s.raised e = { s with lastErr := e, rspOut := s.rspOut ++ [errWord e] } ∧
    (errWord e).extractLsb' 28 4 = e.code ∧ (errWord e).extractLsb' 0 28 = 0 ∧ errPins (s.raised e) = e.code) ∧
  ([ErrCode.ok, .indexOutOfRange, .frameLengthMismatch, .invalidTopologyConfiguration, .invalidState, .busy, .channelOverflow,
    .invalidCommand].map ErrCode.code = [0, 1, 2, 3, 4, 5, 6, 7]) ∧
  (∀ (i : Instr) (s t : State) (w : RspWord) (ws : List RspWord),
    exec i s = .next t → t.rspOut = s.rspOut ++ w :: ws → w.extractLsb' 28 4 ≠ 0 →
    ws = [] ∧ ∃ e, e ≠ .ok ∧ w = errWord e ∧
      (t = s.raised e ∨ ∃ rx, s.port = .frame rx ∧ t = { s with port := .ready }.raised e))

/-- R77, R78: the layout of the words a command answers with (`OK`; `OK` and a colour; the header of `GETFRAME`), how many words
an instruction sends, and that every word sent has its reserved bits zero. R77 gives every command its words; at which instruction
they come rests on the model: a held `WAIT` has sent none yet (R152, log entry 5), a `SETFRAME` answers at its last word and sends
none before it (R76, log entry 4), and a payload word outside a reception is answered with one word (log entry 10). -/
def Obligations.EveryCommandAnswersInForm : Prop :=
  okWord = 0 ∧
  (∀ c : Color, (colorWord c).extractLsb' 28 4 = 0 ∧ (colorWord c).extractLsb' 25 3 = 0 ∧
    (colorWord c).extractLsb' 24 1 = 1 ∧ (colorWord c).extractLsb' 0 24 = pack c) ∧
  (∀ n : Half, (countWord n).extractLsb' 16 16 = 0 ∧ (countWord n).extractLsb' 0 16 = n) ∧
  ∀ (i : Instr) (s t : State), exec i s = .next t →
    ∃ ws, t.rspOut = s.rspOut ++ ws ∧
      (∀ w ∈ ws, w.extractLsb' 25 3 = 0) ∧
      (match i with
        | .getframe => ws.length = if s.life = .ready then s.numElements.toNat + 1 else 1
        | .setframe count => ws.length = if count = 0 then 1 else 0
        | .payload _ =>
          match s.port with
          | .frame rx => ws.length = if rx.left ≤ 1 then 1 else 0
          | _ => ws.length = 1
        | .wait => ws.length = if s.life = .ready ∧ s.txPhase ≠ .idle then 0 else 1
        | _ => ws.length = 1)

/-- R11 to R18, R21, R22, R44: which instructions may change which register; no instruction changes the wire, the host's words,
the schedule or `NMAX`, and `lastErr` is never set back to 0. That `CLEANUP` keeps the registers R16 leaves unspecified after it is
the model's choice (log entry 15). -/
def Obligations.OnlyNamedCommandsWriteEachRegister : Prop :=
  ∀ (i : Instr) (s t : State), exec i s = .next t →
    t.wire = s.wire ∧ t.cmdIn = s.cmdIn ∧ t.sched = s.sched ∧ t.nmax = s.nmax ∧
    (t.lastErr = s.lastErr ∨ t.lastErr ≠ .ok) ∧
    ((∀ n w topo chip, i ≠ .config n w topo chip) →
      t.numElements = s.numElements ∧ t.width = s.width ∧ t.topo = s.topo ∧ t.chip = s.chip ∧
      (i ≠ .cleanup → t.life = s.life)) ∧
    (i ≠ .start → t.txBytes = s.txBytes ∧ t.txPhase = s.txPhase ∧ t.txPos = s.txPos) ∧
    (i = .getframe ∨ i = .firstvis ∨ i = .start ∨ i = .wait ∨ i = .cleanup ∨ (∃ k, i = .getled k) ∨
      (∃ x y, i = .getxy x y) ∨ (∃ count, i = .setframe count) → t.buf = s.buf) ∧
    (i ≠ .wait → (∀ count, i ≠ .setframe count) → (∀ c, i ≠ .payload c) → t.port = s.port)

/-- R155: the lifecycle after a command, row by row. `SETFRAME`'s `InvalidState` comes with its last word; before it the lifecycle
state is kept. -/
def Obligations.LifecycleTransitions : Prop :=
  (∀ (n w : Half) (topo : Topo) (chip : Chip) (s t : State), s.life = .unconfigured →
    exec (.config n w topo chip) s = .next t →
    if n ≠ 0 ∧ n.toNat ≤ s.nmax ∧ (topo ≠ .linear → w ≠ 0 ∧ n.toNat % w.toNat = 0) then t.life = .ready
    else t = s.raised .invalidTopologyConfiguration) ∧
  (∀ (i : Instr) (s t : State), s.life = .unconfigured → exec i s = .next t →
    (∀ n w topo chip, i ≠ .config n w topo chip) →
    t.life = .unconfigured ∧
      ((∀ count, i ≠ .setframe count) → (∀ c, i ≠ .payload c) → t = s.raised .invalidState)) ∧
  (∀ s t : State, s.life = .ready → exec .cleanup s = .next t →
    if s.txPhase = .idle then t.life = .released else t = s.raised .busy) ∧
  (∀ (n w : Half) (topo : Topo) (chip : Chip) (s t : State), s.life = .ready →
    exec (.config n w topo chip) s = .next t → t = s.raised .invalidState) ∧
  (∀ (i : Instr) (s t : State), s.life = .ready → exec i s = .next t → i ≠ .cleanup → t.life = .ready) ∧
  (∀ (i : Instr) (s t : State), s.life = .released → exec i s = .next t →
    t.life = .released ∧
      ((∀ count, i ≠ .setframe count) → (∀ c, i ≠ .payload c) → t = s.raised .invalidState)) ∧
  (∀ (got : List Color) (s : State), s.life ≠ .ready → finishFrame got true s = .next (s.raised .invalidState)) ∧
  (∀ (s : State) (ts : List Turn), s.sched = .reset :: ts → ∃ t, step s = .next t ∧ t.life = .unconfigured)

/-- R187: in a lifecycle state that does not admit it, every command raises `InvalidState`, and nothing else is looked at. For
`SETFRAME` the check is made when its last word has come. -/
def Obligations.LifecycleIsCheckedFirst : Prop :=
  (∀ (n w : Half) (topo : Topo) (chip : Chip) (s : State), s.life ≠ .unconfigured →
    exec (.config n w topo chip) s = .next (s.raised .invalidState)) ∧
  (∀ (i : Instr) (s : State), s.life ≠ .ready →
    (∀ n w topo chip, i ≠ .config n w topo chip) → (∀ count, i ≠ .setframe count) → (∀ c, i ≠ .payload c) →
    exec i s = .next (s.raised .invalidState)) ∧
  (∀ (got : List Color) (s : State), s.life ≠ .ready → finishFrame got true s = .next (s.raised .invalidState)) ∧
  (∀ s : State, s.life ≠ .ready → exec (.setframe 0) s = .next (s.raised .invalidState)) ∧
  (∀ (c : Color) (s : State) (got : List Color), s.life ≠ .ready → s.port = .frame ⟨1, got, true⟩ →
    exec (.payload c) s = .next ({ s with port := .ready }.raised .invalidState))

/-! ### The waveform and the assembler -/

/-- R221, R222: a data symbol lasts `T_BIT` ticks, high for `T0H` or `T1H` of them and then low; a whole transfer lasts
`24 * N * T_BIT + T_RES` ticks. -/
def Obligations.TransferLastsItsTicks : Prop :=
  ∀ (t : Ticks), t.Legal →
    ((symbolLevels t .t0).length = t.bit ∧ (symbolLevels t .t1).length = t.bit ∧ (symbolLevels t .res).length = t.gap) ∧
    (∀ k : Nat, k < t.bit →
      (symbolLevels t .t0)[k]? = some (if k < t.high0 then .high else .low) ∧
      (symbolLevels t .t1)[k]? = some (if k < t.high1 then .high else .low)) ∧
    (∀ y ∈ symbolLevels t .res, y = .low) ∧
    (∀ buf : List Color, (wireLevels t (frameSymbols (encodeFrame buf))).length = transferTicks t buf.length)

/-- R221: a data symbol takes one bit period, high for its duty fraction of it and then low; `RES` is low for the reset
delay. So between two symbols `dout` is low, in every state. -/
def Obligations.SymbolsTakeTheirTime : Prop :=
  (∀ s : State, doutPin s = .low) ∧
  ∀ p : Profile, p.Legal →
    ((symbolPulse p .t0).high = p.dutyZero / p.frequency ∧
      (symbolPulse p .t0).high + (symbolPulse p .t0).low = 1 / p.frequency) ∧
    ((symbolPulse p .t1).high = p.dutyOne / p.frequency ∧
      (symbolPulse p .t1).high + (symbolPulse p .t1).low = 1 / p.frequency) ∧
    (0 < (symbolPulse p .t0).high ∧ (symbolPulse p .t0).high < (symbolPulse p .t1).high ∧ 0 < (symbolPulse p .t1).low) ∧
    ((symbolPulse p .res).high = 0 ∧ (symbolPulse p .res).low = p.resetDelay / 1000000)

/-- R222: the tick counts are the rounded quotients: `round` to nearest, ties up; `T_RES` is the least count not below the delay. -/
def Obligations.TickCountsAreRounded : Prop :=
  (∀ x : Rat, (roundNearest x : Rat) - 1 / 2 ≤ x ∧ x < (roundNearest x : Rat) + 1 / 2) ∧
  (∀ (f : Rat) (p : Profile), 0 < f → p.Legal →
    ((ticksOf f p).bit : Int) = roundNearest (f / p.frequency) ∧
    ((ticksOf f p).high0 : Int) = roundNearest (((ticksOf f p).bit : Rat) * p.dutyZero) ∧
    ((ticksOf f p).high1 : Int) = roundNearest (((ticksOf f p).bit : Rat) * p.dutyOne) ∧
    f * p.resetDelay / 1000000 ≤ ((ticksOf f p).gap : Rat) ∧
    ((ticksOf f p).gap : Rat) < f * p.resetDelay / 1000000 + 1)

/-- R81: what each line of the assembler stands for, row by row: with any number of blanks after the mnemonic (at least one before
operands), every operand in each of its written forms, the line stands for exactly that row's instruction with those operands;
`SETFRAME` for its header and one payload word a colour. An integer above 65535, wherever it stands, and a colour name without a
value make no line, a comment changes nothing, and whatever a line stands for is well-formed. The blanks allowed are log entry 16. -/
def Obligations.AssembledLinesStandForTheirRows : Prop :=
  (∀ k : Nat,
    assembleLine (lineOf "CLEANUP" k []) = some [.cleanup] ∧ assembleLine (lineOf "GETFRAME" k []) = some [.getframe] ∧
    assembleLine (lineOf "CLEAR" k []) = some [.clear] ∧ assembleLine (lineOf "CYCLE" k []) = some [.cycle] ∧
    assembleLine (lineOf "FIRSTVIS" k []) = some [.firstvis] ∧ assembleLine (lineOf "START" k []) = some [.start] ∧
    assembleLine (lineOf "WAIT" k []) = some [.wait] ∧ assembleLine (lineOf "SETFRAME" k []) = some [.setframe 0]) ∧
  (∀ (k : Nat) (n w : Half) (chip : Chip) (tn tw : List Char), NumberText tn n.toNat → NumberText tw w.toNat →
    assembleLine (lineOf "CONFIG" (k + 1) (tn ++ ", LINEAR, ".toList ++ chipText chip)) = some [.config n 0 .linear chip] ∧
    assembleLine (lineOf "CONFIG" (k + 1) (tn ++ ", ROWMAJOR(".toList ++ tw ++ "), ".toList ++ chipText chip)) =
      some [.config n w .rowMajor chip] ∧
    assembleLine (lineOf "CONFIG" (k + 1) (tn ++ ", SERPENTINE(".toList ++ tw ++ "), ".toList ++ chipText chip)) =
      some [.config n w .serpentine chip]) ∧
  (∀ (k : Nat) (x y : Half) (c : Color) (tx ty tc : List Char),
    NumberText tx x.toNat → NumberText ty y.toNat → ColorText tc c →
    assembleLine (lineOf "SETLED" (k + 1) (tx ++ ", ".toList ++ tc)) = some [.setled x c] ∧
    assembleLine (lineOf "GETLED" (k + 1) tx) = some [.getled x] ∧
    assembleLine (lineOf "SETXY" (k + 1) (tx ++ ", ".toList ++ ty ++ ", ".toList ++ tc)) = some [.setxy x y c] ∧
    assembleLine (lineOf "GETXY" (k + 1) (tx ++ ", ".toList ++ ty)) = some [.getxy x y] ∧
    assembleLine (lineOf "SETALL" (k + 1) tc) = some [.setall c] ∧
    assembleLine (lineOf "ACTIVE" (k + 1) tc) = some [.active c]) ∧
  (∀ (k : Nat) (texts : List Char) (cs : List Color), ColorsText texts cs → cs.length ≤ 65535 →
    assembleLine (lineOf "SETFRAME" (k + 1) texts) = some (.setframe (BitVec.ofNat 16 cs.length) :: cs.map .payload)) ∧
  (∀ (k a b : Nat) (chip : Chip) (c : Color) (ta tb tc : List Char), NumberText ta a → NumberText tb b → ColorText tc c →
    (65535 < a →
      assembleLine (lineOf "CONFIG" (k + 1) (ta ++ ", LINEAR, ".toList ++ chipText chip)) = none ∧
      assembleLine (lineOf "SETLED" (k + 1) (ta ++ ", ".toList ++ tc)) = none ∧
      assembleLine (lineOf "GETLED" (k + 1) ta) = none) ∧
    (65535 < a ∨ 65535 < b →
      assembleLine (lineOf "CONFIG" (k + 1) (ta ++ ", ROWMAJOR(".toList ++ tb ++ "), ".toList ++ chipText chip)) = none ∧
      assembleLine (lineOf "CONFIG" (k + 1) (ta ++ ", SERPENTINE(".toList ++ tb ++ "), ".toList ++ chipText chip)) = none ∧
      assembleLine (lineOf "SETXY" (k + 1) (ta ++ ", ".toList ++ tb ++ ", ".toList ++ tc)) = none ∧
      assembleLine (lineOf "GETXY" (k + 1) (ta ++ ", ".toList ++ tb)) = none)) ∧
  (∀ name ∈ ["red", "green", "blue", "yellow", "orange", "purple", "magenta", "cyan"],
    assembleLine (lineOf "SETALL" 1 name.toList) = none) ∧
  (∀ line comment : List Char, ';' ∉ line → assembleLine (line ++ ';' :: comment) = assembleLine line) ∧
  (∀ (line : List Char) (is : List Instr), assembleLine line = some is → ∀ i ∈ is, i.WellFormed)

/-- R82: the pseudo-instruction `SHOW` expands to `START` then `WAIT`. -/
def Obligations.ShowIsStartThenWait : Prop :=
  assembleLine "SHOW".toList = some [.start, .wait] ∧
  showCommands.map encode = [0x3000000000000000, 0x3100000000000000]
end

