-- ==== Sys2Proof/Laws/Assembler.lean ====
section
/-!
SUPPORT. How a written line is read: one lemma per character class for the lexer (its bound never matters, see `lexLine_bound`),
and for each written form of an operand the tokens it gives and what they are parsed as.
-/

namespace Sys2Proof.Machine

/-- The tokens of a line. -/
def tokensOf (cs : List Char) : Option (List Token) := lexLine cs.length cs

/-- The text after a name or a number: it does not go on with a name character. -/
def Stops (cs : List Char) : Prop := cs.takeWhile isNameChar = [] ∧ cs.dropWhile isNameChar = cs

theorem stops_nil : Stops [] := ⟨rfl, rfl⟩

theorem stops_cons {c : Char} (cs : List Char) (h : isNameChar c = false) : Stops (c :: cs) := by
  simp [Stops, h]

/-! ### The lexer's bound -/

theorem length_dropWhile_le (p : Char → Bool) (cs : List Char) : (cs.dropWhile p).length ≤ cs.length :=
  (List.dropWhile_sublist p).length_le

/-- Any bound of at least the line's length gives the line's tokens. -/
theorem lexLine_bound (fuel : Nat) (cs : List Char) (h : cs.length ≤ fuel) : lexLine fuel cs = tokensOf cs := by
  have agree : ∀ (a b : Nat) (cs : List Char), cs.length ≤ a → cs.length ≤ b → lexLine a cs = lexLine b cs := by
    intro a
    induction a with
    | zero =>
      intro b cs ha _
      obtain rfl := List.length_eq_zero_iff.mp (Nat.le_zero.mp ha)
      cases b <;> rfl
    | succ a ih =>
      intro b cs ha hb
      cases cs with
      | nil => cases b <;> rfl
      | cons c cs =>
        cases b with
        | zero => simp at hb
        | succ b =>
          simp only [List.length_cons, Nat.add_le_add_iff_right] at ha hb
          have hd := length_dropWhile_le isNameChar cs
          simp only [lexLine, ih b cs ha hb, ih b (cs.dropWhile isNameChar) (hd.trans ha) (hd.trans hb)]
  exact agree fuel cs.length cs h le_rfl

/-- What the first character of a line decides. -/
theorem tokensOf_cons (c : Char) (cs : List Char) :
    tokensOf (c :: cs) =
      if c = ';' then some []
      else if c = ' ' ∨ c = '\t' then tokensOf cs
      else if c = ',' then consToken (some .comma) (tokensOf cs)
      else if c = '(' then consToken (some .lpar) (tokensOf cs)
      else if c = ')' then consToken (some .rpar) (tokensOf cs)
      else if c = '#' then consToken (rgbToken (cs.takeWhile isNameChar)) (tokensOf (cs.dropWhile isNameChar))
      else if isNameChar c then
        consToken (nameToken (c :: cs.takeWhile isNameChar)) (tokensOf (cs.dropWhile isNameChar))
      else none := by
  rw [tokensOf, List.length_cons, lexLine, lexLine_bound _ _ le_rfl,
    lexLine_bound _ _ (length_dropWhile_le isNameChar cs)]

@[simp] theorem tokensOf_nil : tokensOf [] = some [] := rfl

@[simp] theorem tokensOf_semicolon (cs : List Char) : tokensOf (';' :: cs) = some [] := by simp [tokensOf_cons]

@[simp] theorem tokensOf_blank (cs : List Char) : tokensOf (' ' :: cs) = tokensOf cs := by simp [tokensOf_cons]

@[simp] theorem tokensOf_comma (cs : List Char) : tokensOf (',' :: cs) = (tokensOf cs).map (.comma :: ·) := by
  simp only [tokensOf_cons]
  cases tokensOf cs <;> rfl

@[simp] theorem tokensOf_lpar (cs : List Char) : tokensOf ('(' :: cs) = (tokensOf cs).map (.lpar :: ·) := by
  simp only [tokensOf_cons]
  cases tokensOf cs <;> rfl

@[simp] theorem tokensOf_rpar (cs : List Char) : tokensOf (')' :: cs) = (tokensOf cs).map (.rpar :: ·) := by
  simp only [tokensOf_cons]
  cases tokensOf cs <;> rfl

@[simp] theorem tokensOf_blanks (k : Nat) (cs : List Char) : tokensOf (List.replicate k ' ' ++ cs) = tokensOf cs := by
  induction k with
  | zero => rfl
  | succ k ih => rw [List.replicate_succ, List.cons_append, tokensOf_blank, ih]

/-! ### Names -/

theorem takeWhile_name {n rest : List Char} (hn : n.all isNameChar = true) (hr : Stops rest) :
    (n ++ rest).takeWhile isNameChar = n ∧ (n ++ rest).dropWhile isNameChar = rest := by
  have hn' : ∀ a ∈ n, isNameChar a = true := List.all_eq_true.mp hn
  rw [List.takeWhile_append_of_pos hn', List.dropWhile_append_of_pos hn', hr.1, hr.2, List.append_nil]
  exact ⟨rfl, rfl⟩

theorem isNameChar_not_special {c : Char} (h : isNameChar c = true) :
    c ≠ ';' ∧ c ≠ ' ' ∧ c ≠ '\t' ∧ c ≠ ',' ∧ c ≠ '(' ∧ c ≠ ')' ∧ c ≠ '#' := by
  refine ⟨?_, ?_, ?_, ?_, ?_, ?_, ?_⟩ <;> (rintro rfl; revert h; decide)

/-- A run of name characters is one token. -/
theorem tokensOf_name {n rest : List Char} (h0 : n ≠ []) (hn : n.all isNameChar = true) (hr : Stops rest) :
    tokensOf (n ++ rest) = consToken (nameToken n) (tokensOf rest) := by
  cases n with
  | nil => exact absurd rfl h0
  | cons c cs =>
    rw [List.all_cons, Bool.and_eq_true] at hn
    obtain ⟨h1, h2, h3, h4, h5, h6, h7⟩ := isNameChar_not_special hn.1
    obtain ⟨ht, hd⟩ := takeWhile_name hn.2 hr
    rw [List.cons_append, tokensOf_cons, ht, hd]
    simp only [h1, h2, h3, h4, h5, h6, h7, hn.1, or_self, if_true, if_false]

/-- A run of name characters that does not start with a digit is a word. -/
theorem tokensOf_word {n rest : List Char} (hn : n.all isNameChar = true) (hw : nameToken n = some (.word n)) (hr : Stops rest) :
    tokensOf (n ++ rest) = (tokensOf rest).map (.word n :: ·) := by
  rw [tokensOf_name (by rintro rfl; cases hw) hn hr, hw]
  cases tokensOf rest <;> rfl

/-! ### Written numbers -/

theorem digitValue_decimalChar (d : Fin 10) : digitValue (decimalChar d) = some d.val := by revert d; decide

theorem isNameChar_decimalChar (d : Fin 10) : isNameChar (decimalChar d) = true := by revert d; decide

theorem decimalChar_ne_x (d : Fin 10) : decimalChar d ≠ 'x' := by revert d; decide

theorem hexValue_hexChar (d : Bool × Fin 16) : hexValue (hexChar d) = some d.2.val := by revert d; decide

theorem isNameChar_hexChar (d : Bool × Fin 16) : isNameChar (hexChar d) = true := by revert d; decide

theorem readDigits_decimal (acc : Nat) (ds : List (Fin 10)) :
    readDigits digitValue 10 acc (ds.map decimalChar) = some ((ds.map (·.val)).foldl (fun a d => a * 10 + d) acc) := by
  induction ds generalizing acc with
  | nil => rfl
  | cons d ds ih => simp only [List.map_cons, readDigits, digitValue_decimalChar, ih, List.foldl_cons]

theorem readDigits_hex (acc : Nat) (ds : List (Bool × Fin 16)) :
    readDigits hexValue 16 acc (ds.map hexChar) = some ((ds.map (·.2.val)).foldl (fun a d => a * 16 + d) acc) := by
  induction ds generalizing acc with
  | nil => rfl
  | cons d ds ih => simp only [List.map_cons, readDigits, hexValue_hexChar, ih, List.foldl_cons]

theorem all_decimalChar (ds : List (Fin 10)) : (ds.map decimalChar).all isNameChar = true := by
  simp [isNameChar_decimalChar]

theorem all_hexChar (ds : List (Bool × Fin 16)) : (ds.map hexChar).all isNameChar = true := by
  simp [isNameChar_hexChar]

/-- Decimal digits are a decimal number token. -/
theorem nameToken_decimal {ds : List (Fin 10)} (h : ds ≠ []) :
    nameToken (ds.map decimalChar) = some (.num true (numeral 10 (ds.map (·.val)))) := by
  have hdec : isDecimal (ds.map decimalChar) = true := by simp [isDecimal, digitValue_decimalChar]
  have hread : readNumber (ds.map decimalChar) = some (numeral 10 (ds.map (·.val))) := by
    rw [numeral, ← readDigits_decimal]
    unfold readNumber
    split
    · rename_i c cs hx
      cases ds with
      | nil => cases hx
      | cons d ds =>
        cases ds with
        | nil => simp at hx
        | cons e ds => exact absurd (by simpa using (List.cons.inj (List.cons.inj hx).2).1) (decimalChar_ne_x e)
    · rename_i hx
      rw [hx]
    · exact absurd (List.map_eq_nil_iff.mp ‹_›) h
  cases ds with
  | nil => exact absurd rfl h
  | cons d ds =>
    rw [List.map_cons] at hdec hread ⊢
    simp only [nameToken, digitValue_decimalChar, hread, hdec, Option.map_some, List.map_cons]

/-- `0x` and hexadecimal digits are a number token. -/
theorem nameToken_hex {ds : List (Bool × Fin 16)} (h : ds ≠ []) :
    nameToken ('0' :: 'x' :: ds.map hexChar) = some (.num false (numeral 16 (ds.map (·.2.val)))) := by
  cases ds with
  | nil => exact absurd rfl h
  | cons d ds =>
    have hread : readNumber ('0' :: 'x' :: (d :: ds).map hexChar) = some (numeral 16 ((d :: ds).map (·.2.val))) := by
      rw [numeral, ← readDigits_hex]
      rfl
    have h0 : digitValue '0' = some 0 := rfl
    have hdec : isDecimal ('0' :: 'x' :: (d :: ds).map hexChar) = false := rfl
    simp only [nameToken, h0, hread, hdec, Option.map_some]

/-- Decimal digits, in front of any text that does not go on with a name character. -/
theorem tokensOf_decimal {ds : List (Fin 10)} {rest : List Char} (h : ds ≠ []) (hr : Stops rest) :
    tokensOf (ds.map decimalChar ++ rest) = (tokensOf rest).map (.num true (numeral 10 (ds.map (·.val))) :: ·) := by
  rw [tokensOf_name (by simpa using h) (all_decimalChar ds) hr, nameToken_decimal h]
  cases tokensOf rest <;> rfl

/-- A written number is one number token. -/
theorem tokensOf_number {t : List Char} {n : Nat} (h : NumberText t n) :
    ∃ d : Bool, ∀ rest : List Char, Stops rest → tokensOf (t ++ rest) = (tokensOf rest).map (.num d n :: ·) := by
  cases h with
  | decimal ds h => exact ⟨true, fun rest hr => tokensOf_decimal h hr⟩
  | hex ds h =>
    refine ⟨false, fun rest hr => ?_⟩
    have hall : ('0' :: 'x' :: ds.map hexChar).all isNameChar = true := by
      rw [List.all_cons, List.all_cons, all_hexChar]
      rfl
    rw [tokensOf_name (List.cons_ne_nil _ _) hall hr, nameToken_hex h]
    cases tokensOf rest <;> rfl

/-- A written number at the end of a line, before a comma and before a closing parenthesis. -/
theorem tokensOf_number_ends {t : List Char} {n : Nat} (h : NumberText t n) :
    ∃ d : Bool, tokensOf t = some [.num d n] ∧
      (∀ rest, tokensOf (t ++ ',' :: rest) = (tokensOf rest).map fun ts => .num d n :: .comma :: ts) ∧
      ∀ rest, tokensOf (t ++ ')' :: rest) = (tokensOf rest).map fun ts => .num d n :: .rpar :: ts := by
  obtain ⟨d, h⟩ := tokensOf_number h
  refine ⟨d, by simpa using h [] stops_nil, fun rest => ?_, fun rest => ?_⟩
  · rw [h _ (stops_cons _ rfl), tokensOf_comma]
    cases tokensOf rest <;> rfl
  · rw [h _ (stops_cons _ rfl), tokensOf_rpar]
    cases tokensOf rest <;> rfl

theorem half_toNat (n : Half) : half n.toNat = some n := by
  rw [half, if_pos (by have := n.isLt; omega), BitVec.ofNat_toNat, BitVec.setWidth_eq]

theorem half_eq_none {n : Nat} (h : 65535 < n) : half n = none := by rw [half, if_neg (by omega)]

/-! ### Written colours -/

/-- What a written colour is read as: tokens of which the first is no end of the line, parsed as that colour. -/
theorem tokensOf_color {t : List Char} {c : Color} (h : ColorText t c) :
    ∃ first toks, (∀ rest, Stops rest → tokensOf (t ++ rest) = (tokensOf rest).map ((first :: toks) ++ ·)) ∧
      ∀ ts, parseColor ((first :: toks) ++ ts) = some (c, ts) := by
  cases h with
  | packed ds h =>
    refine ⟨.rgb (numeral 16 (ds.map (·.2.val))), [], fun rest hr => ?_, fun ts => ?_⟩
    · obtain ⟨ht, hd⟩ := takeWhile_name (all_hexChar ds) hr
      have hrgb : rgbToken (ds.map hexChar) = some (.rgb (numeral 16 (ds.map (·.2.val)))) := by
        rw [rgbToken, List.length_map, if_pos h, readDigits_hex, Option.map_some, numeral]
      rw [List.cons_append, tokensOf_cons, ht, hd, hrgb]
      cases tokensOf rest <;> rfl
    · simp only [List.cons_append, List.nil_append, parseColor]
  | channels r g b tr tg tb hr hg hb er eg eb =>
    have comma : ∀ cs, Stops (',' :: cs) := fun cs => stops_cons cs rfl
    have paren : ∀ cs, Stops (')' :: cs) := fun cs => stops_cons cs rfl
    refine ⟨.lpar, [.num true r.toNat, .comma, .num true g.toNat, .comma, .num true b.toNat, .rpar],
      fun rest _ => ?_, fun ts => ?_⟩
    · simp only [List.cons_append, List.append_assoc, List.nil_append, tokensOf_lpar, tokensOf_decimal hr (comma _),
        tokensOf_comma, tokensOf_decimal hg (comma _), tokensOf_decimal hb (paren _), tokensOf_rpar, Option.map_map, er, eg, eb]
      rfl
    · have hc : ∀ v : Byte, channel v.toNat = some v := by
        intro v
        rw [channel, if_pos (by have := v.isLt; omega), BitVec.ofNat_toNat, BitVec.setWidth_eq]
      simp only [List.cons_append, List.nil_append, parseColor, hc]
  | black => exact ⟨.word "black".toList, [], fun rest hr => tokensOf_word rfl rfl hr, fun ts => rfl⟩
  | white => exact ⟨.word "white".toList, [], fun rest hr => tokensOf_word rfl rfl hr, fun ts => rfl⟩

/-- A written colour at the end of a line. -/
theorem tokensOf_color_end {t : List Char} {c : Color} (h : ColorText t c) :
    ∃ ts, tokensOf t = some ts ∧ oneColor ts = some c := by
  obtain ⟨first, toks, hlex, hparse⟩ := tokensOf_color h
  refine ⟨first :: toks, by simpa using hlex [] stops_nil, ?_⟩
  have := hparse []
  rw [List.append_nil] at this
  rw [oneColor, this]

/-- A chipset's name is a word that stands for it. -/
theorem tokensOf_chip (k : Chip) :
    (∀ rest, Stops rest → tokensOf (chipText k ++ rest) = (tokensOf rest).map (.word (chipText k) :: ·)) ∧
      chipName (chipText k) = some k := by
  cases k <;> exact ⟨fun rest hr => tokensOf_word rfl rfl hr, rfl⟩

/-! ### A line -/

theorem assembleLine_eq (cs : List Char) : assembleLine cs = (tokensOf cs).bind parseTokens := by
  unfold assembleLine tokensOf
  cases lexLine cs.length cs <;> rfl

/-- The tokens of a line: its mnemonic, then those of its operands. -/
theorem tokensOf_lineOf {m : String} (k : Nat) {ops : List Char} (hn : m.toList.all isNameChar = true)
    (hw : nameToken m.toList = some (.word m.toList)) (hk : k = 0 → Stops ops) :
    tokensOf (lineOf m k ops) = (tokensOf ops).map (.word m.toList :: ·) := by
  rw [lineOf, List.append_assoc, tokensOf_word hn hw ?_, tokensOf_blanks]
  cases k with
  | zero => exact hk rfl
  | succ k => exact stops_cons _ rfl

/-- A line stands for what its mnemonic makes of its operands' tokens. -/
theorem assembleLine_lineOf {m : String} (k : Nat) {ops : List Char} (hn : m.toList.all isNameChar = true)
    (hw : nameToken m.toList = some (.word m.toList)) (hk : k = 0 → Stops ops) :
    assembleLine (lineOf m k ops) = (tokensOf ops).bind fun ts => parseTokens (.word m.toList :: ts) := by
  rw [assembleLine_eq, tokensOf_lineOf k hn hw hk]
  cases tokensOf ops <;> rfl

/-! What each mnemonic makes of its operands' tokens, and `CONFIG` of each of its three forms. -/

theorem parseTokens_config (ts : List Token) : parseTokens (.word "CONFIG".toList :: ts) = single (parseConfig ts) := rfl

theorem parseTokens_setled (ts : List Token) : parseTokens (.word "SETLED".toList :: ts) = single (parseSetled ts) := rfl

theorem parseTokens_getled (ts : List Token) :
    parseTokens (.word "GETLED".toList :: ts) = single ((parseIndex ts).map .getled) := rfl

theorem parseTokens_setxy (ts : List Token) : parseTokens (.word "SETXY".toList :: ts) = single (parseSetxy ts) := rfl

theorem parseTokens_getxy (ts : List Token) :
    parseTokens (.word "GETXY".toList :: ts) = single ((parsePair ts).map fun p => .getxy p.1 p.2) := rfl

theorem parseTokens_setframe (ts : List Token) : parseTokens (.word "SETFRAME".toList :: ts) = parseSetframe ts := rfl

theorem parseTokens_setall (ts : List Token) :
    parseTokens (.word "SETALL".toList :: ts) = single ((oneColor ts).map .setall) := rfl

theorem parseTokens_active (ts : List Token) :
    parseTokens (.word "ACTIVE".toList :: ts) = single ((oneColor ts).map .active) := rfl

theorem parseConfig_linear (d : Bool) (n : Nat) (k : List Char) :
    parseConfig [.num d n, .comma, .word "LINEAR".toList, .comma, .word k] =
      match half n, chipName k with
      | some n, some k => some (.config n 0 .linear k)
      | _, _ => none := rfl

theorem parseConfig_rowMajor (d e : Bool) (n w : Nat) (k : List Char) :
    parseConfig [.num d n, .comma, .word "ROWMAJOR".toList, .lpar, .num e w, .rpar, .comma, .word k] =
      match half n, half w, chipName k with
      | some n, some w, some k => some (.config n w .rowMajor k)
      | _, _, _ => none := rfl

theorem parseConfig_serpentine (d e : Bool) (n w : Nat) (k : List Char) :
    parseConfig [.num d n, .comma, .word "SERPENTINE".toList, .lpar, .num e w, .rpar, .comma, .word k] =
      match half n, half w, chipName k with
      | some n, some w, some k => some (.config n w .serpentine k)
      | _, _, _ => none := rfl

/-- A comment ends a line. -/
theorem tokensOf_comment (line comment : List Char) (h : ';' ∉ line) :
    tokensOf (line ++ ';' :: comment) = tokensOf line := by
  have general : ∀ (k : Nat) (line : List Char), line.length ≤ k → ';' ∉ line →
      tokensOf (line ++ ';' :: comment) = tokensOf line := by
    intro k
    induction k with
    | zero =>
      intro line hk _
      obtain rfl := List.length_eq_zero_iff.mp (Nat.le_zero.mp hk)
      simp
    | succ k ih =>
      intro line hk h
      cases line with
      | nil => simp
      | cons c cs =>
        have hcs : ';' ∉ cs := fun hm => h (List.mem_cons_of_mem _ hm)
        have hk' : cs.length ≤ k := by simpa using hk
        have ht : (cs ++ ';' :: comment).takeWhile isNameChar = cs.takeWhile isNameChar := by
          clear ih hk hk' h hcs
          induction cs with
          | nil => rfl
          | cons d ds ihd => simp only [List.cons_append, List.takeWhile_cons, ihd]
        have hd : (cs ++ ';' :: comment).dropWhile isNameChar = cs.dropWhile isNameChar ++ ';' :: comment := by
          clear ih hk hk' h hcs ht
          induction cs with
          | nil => rfl
          | cons d ds ihd =>
            simp only [List.cons_append, List.dropWhile_cons, ihd]
            split <;> rfl
        rw [List.cons_append, tokensOf_cons, tokensOf_cons, ht, hd, ih cs hk' hcs,
          ih _ ((length_dropWhile_le isNameChar cs).trans hk') (fun hm => hcs (List.dropWhile_subset _ hm))]
  exact general line.length line le_rfl h

end Sys2Proof.Machine
end

