-- ==== Sys2Proof/Laws/Decode.lean ====
section
/-!
SUPPORT. The fields of a word and the word of its fields (R71), the numbers of the enumerations (R70, R75), and how a word meets
a mask (R83).
-/

namespace Sys2Proof

@[simp] theorem opField_mkWord (op : BitVec 8) (a b : Half) (c : Packed) : opField (mkWord op a b c) = op := by
  apply BitVec.eq_of_getLsbD_eq
  have outside := @BitVec.getLsbD_of_ge
  simp only [opField, mkWord, BitVec.getLsbD_or, BitVec.getLsbD_shiftLeft, BitVec.getLsbD_setWidth,
    BitVec.getLsbD_extractLsb']
  grind

@[simp] theorem aField_mkWord (op : BitVec 8) (a b : Half) (c : Packed) : aField (mkWord op a b c) = a := by
  apply BitVec.eq_of_getLsbD_eq
  have outside := @BitVec.getLsbD_of_ge
  simp only [aField, mkWord, BitVec.getLsbD_or, BitVec.getLsbD_shiftLeft, BitVec.getLsbD_setWidth,
    BitVec.getLsbD_extractLsb']
  grind

@[simp] theorem bField_mkWord (op : BitVec 8) (a b : Half) (c : Packed) : bField (mkWord op a b c) = b := by
  apply BitVec.eq_of_getLsbD_eq
  have outside := @BitVec.getLsbD_of_ge
  simp only [bField, mkWord, BitVec.getLsbD_or, BitVec.getLsbD_shiftLeft, BitVec.getLsbD_setWidth,
    BitVec.getLsbD_extractLsb']
  grind

@[simp] theorem cField_mkWord (op : BitVec 8) (a b : Half) (c : Packed) : cField (mkWord op a b c) = c := by
  apply BitVec.eq_of_getLsbD_eq
  have outside := @BitVec.getLsbD_of_ge
  simp only [cField, mkWord, BitVec.getLsbD_or, BitVec.getLsbD_shiftLeft, BitVec.getLsbD_setWidth,
    BitVec.getLsbD_extractLsb']
  grind

/-- A word is made of its four fields and nothing else. -/
theorem mkWord_fields (w : CmdWord) : mkWord (opField w) (aField w) (bField w) (cField w) = w := by
  apply BitVec.eq_of_getLsbD_eq
  simp only [opField, aField, bField, cField, mkWord, BitVec.getLsbD_or, BitVec.getLsbD_shiftLeft,
    BitVec.getLsbD_setWidth, BitVec.getLsbD_extractLsb']
  grind

theorem mkWord_inj {o o' : BitVec 8} {a a' b b' : Half} {c c' : Packed} :
    mkWord o a b c = mkWord o' a' b' c' ↔ o = o' ∧ a = a' ∧ b = b' ∧ c = c' := by
  refine ⟨fun h => ⟨?_, ?_, ?_, ?_⟩, fun ⟨ho, ha, hb, hc⟩ => by rw [ho, ha, hb, hc]⟩
  · simpa using congrArg opField h
  · simpa using congrArg aField h
  · simpa using congrArg bField h
  · simpa using congrArg cField h

/-- A mask meets a word field by field (R83). -/
theorem mkWord_and (o o' : BitVec 8) (a a' b b' : Half) (c c' : Packed) :
    mkWord o a b c &&& mkWord o' a' b' c' = mkWord (o &&& o') (a &&& a') (b &&& b') (c &&& c') := by
  apply BitVec.eq_of_getLsbD_eq
  have outside := @BitVec.getLsbD_of_ge
  simp only [mkWord, BitVec.getLsbD_and, BitVec.getLsbD_or, BitVec.getLsbD_shiftLeft, BitVec.getLsbD_setWidth]
  grind

/-- The reserved bits of a payload word are the three upper fields (R76). -/
theorem payloadReserved_mkWord (o : BitVec 8) (a b : Half) (c : Packed) :
    (mkWord o a b c).extractLsb' 24 40 = 0 ↔ o = 0 ∧ a = 0 ∧ b = 0 := by
  constructor
  · intro h
    have bits : ∀ k, ((mkWord o a b c).extractLsb' 24 40).getLsbD k = false := by simp [h]
    simp only [mkWord, BitVec.getLsbD_or, BitVec.getLsbD_shiftLeft, BitVec.getLsbD_setWidth,
      BitVec.getLsbD_extractLsb'] at bits
    refine ⟨?_, ?_, ?_⟩ <;> apply BitVec.eq_of_getLsbD_eq <;> intro k hk
    · have := bits (32 + k)
      grind
    · have := bits (16 + k)
      grind
    · have := bits k
      grind
  · rintro ⟨rfl, rfl, rfl⟩
    apply BitVec.eq_of_getLsbD_eq
    have outside := @BitVec.getLsbD_of_ge
    simp only [mkWord, BitVec.getLsbD_or, BitVec.getLsbD_shiftLeft, BitVec.getLsbD_setWidth, BitVec.getLsbD_extractLsb']
    grind

/-- The number of an opcode names it again (R70). -/
@[simp] theorem Opcode.ofByte_code (o : Opcode) : Opcode.ofByte o.code = some o := by
  cases o <;> rfl

/-- An `op` field names at most the command whose number it is (R70). -/
theorem Opcode.code_of_ofByte {b : BitVec 8} {o : Opcode} (h : Opcode.ofByte b = some o) : b = o.code := by
  have hb := List.find?_some h
  exact (beq_iff_eq.mp hb).symm

@[simp] theorem Topo.ofBits_code (t : Topo) : Topo.ofBits t.code = some t := by
  cases t <;> rfl

@[simp] theorem Chip.ofBits_code (k : Chip) : Chip.ofBits k.code = k := by
  cases k <;> rfl

/-- The mode bits of `CONFIG` and what stands around them (R75). -/
theorem modeBits_fields (t : Topo) (k : Chip) :
    (modeBits t k).extractLsb' 0 2 = t.code ∧ (modeBits t k).extractLsb' 2 6 = 0 ∧
    (modeBits t k).extractLsb' 8 2 = k.code ∧ (modeBits t k).extractLsb' 10 14 = 0 := by
  cases t <;> cases k <;> decide

end Sys2Proof
end

