-- ==== Sys2Proof/Laws/State.lean ====
section
/-!
SUPPORT. What each named update of the state does to each field: one lemma per field per update, true by unfolding.
-/

namespace Sys2Proof.Machine

@[simp] theorem State.answer_life (s : State) (ws : List RspWord) : (s.answer ws).life = s.life := rfl
@[simp] theorem State.answer_numElements (s : State) (ws : List RspWord) : (s.answer ws).numElements = s.numElements := rfl
@[simp] theorem State.answer_width (s : State) (ws : List RspWord) : (s.answer ws).width = s.width := rfl
@[simp] theorem State.answer_topo (s : State) (ws : List RspWord) : (s.answer ws).topo = s.topo := rfl
@[simp] theorem State.answer_chip (s : State) (ws : List RspWord) : (s.answer ws).chip = s.chip := rfl
@[simp] theorem State.answer_buf (s : State) (ws : List RspWord) : (s.answer ws).buf = s.buf := rfl
@[simp] theorem State.answer_txBytes (s : State) (ws : List RspWord) : (s.answer ws).txBytes = s.txBytes := rfl
@[simp] theorem State.answer_txPhase (s : State) (ws : List RspWord) : (s.answer ws).txPhase = s.txPhase := rfl
@[simp] theorem State.answer_txPos (s : State) (ws : List RspWord) : (s.answer ws).txPos = s.txPos := rfl
@[simp] theorem State.answer_lastErr (s : State) (ws : List RspWord) : (s.answer ws).lastErr = s.lastErr := rfl
@[simp] theorem State.answer_wire (s : State) (ws : List RspWord) : (s.answer ws).wire = s.wire := rfl
@[simp] theorem State.answer_port (s : State) (ws : List RspWord) : (s.answer ws).port = s.port := rfl
@[simp] theorem State.answer_rspOut (s : State) (ws : List RspWord) : (s.answer ws).rspOut = s.rspOut ++ ws := rfl
@[simp] theorem State.answer_cmdIn (s : State) (ws : List RspWord) : (s.answer ws).cmdIn = s.cmdIn := rfl
@[simp] theorem State.answer_sched (s : State) (ws : List RspWord) : (s.answer ws).sched = s.sched := rfl
@[simp] theorem State.answer_nmax (s : State) (ws : List RspWord) : (s.answer ws).nmax = s.nmax := rfl

@[simp] theorem State.raised_life (s : State) (e : ErrCode) : (s.raised e).life = s.life := rfl
@[simp] theorem State.raised_numElements (s : State) (e : ErrCode) : (s.raised e).numElements = s.numElements := rfl
@[simp] theorem State.raised_width (s : State) (e : ErrCode) : (s.raised e).width = s.width := rfl
@[simp] theorem State.raised_topo (s : State) (e : ErrCode) : (s.raised e).topo = s.topo := rfl
@[simp] theorem State.raised_chip (s : State) (e : ErrCode) : (s.raised e).chip = s.chip := rfl
@[simp] theorem State.raised_buf (s : State) (e : ErrCode) : (s.raised e).buf = s.buf := rfl
@[simp] theorem State.raised_txBytes (s : State) (e : ErrCode) : (s.raised e).txBytes = s.txBytes := rfl
@[simp] theorem State.raised_txPhase (s : State) (e : ErrCode) : (s.raised e).txPhase = s.txPhase := rfl
@[simp] theorem State.raised_txPos (s : State) (e : ErrCode) : (s.raised e).txPos = s.txPos := rfl
@[simp] theorem State.raised_lastErr (s : State) (e : ErrCode) : (s.raised e).lastErr = e := rfl
@[simp] theorem State.raised_wire (s : State) (e : ErrCode) : (s.raised e).wire = s.wire := rfl
@[simp] theorem State.raised_port (s : State) (e : ErrCode) : (s.raised e).port = s.port := rfl
@[simp] theorem State.raised_rspOut (s : State) (e : ErrCode) : (s.raised e).rspOut = s.rspOut ++ [errWord e] := rfl
@[simp] theorem State.raised_cmdIn (s : State) (e : ErrCode) : (s.raised e).cmdIn = s.cmdIn := rfl
@[simp] theorem State.raised_sched (s : State) (e : ErrCode) : (s.raised e).sched = s.sched := rfl
@[simp] theorem State.raised_nmax (s : State) (e : ErrCode) : (s.raised e).nmax = s.nmax := rfl

@[simp] theorem State.hardReset_life (s : State) : s.hardReset.life = .unconfigured := rfl
@[simp] theorem State.hardReset_numElements (s : State) : s.hardReset.numElements = 0 := rfl
@[simp] theorem State.hardReset_width (s : State) : s.hardReset.width = 0 := rfl
@[simp] theorem State.hardReset_topo (s : State) : s.hardReset.topo = .linear := rfl
@[simp] theorem State.hardReset_chip (s : State) : s.hardReset.chip = .ws2811 := rfl
@[simp] theorem State.hardReset_buf (s : State) : s.hardReset.buf = [] := rfl
@[simp] theorem State.hardReset_txBytes (s : State) : s.hardReset.txBytes = [] := rfl
@[simp] theorem State.hardReset_txPhase (s : State) : s.hardReset.txPhase = .idle := rfl
@[simp] theorem State.hardReset_txPos (s : State) : s.hardReset.txPos = 0 := rfl
@[simp] theorem State.hardReset_lastErr (s : State) : s.hardReset.lastErr = .ok := rfl
@[simp] theorem State.hardReset_wire (s : State) : s.hardReset.wire = [] := rfl
@[simp] theorem State.hardReset_port (s : State) : s.hardReset.port = .ready := rfl
@[simp] theorem State.hardReset_rspOut (s : State) : s.hardReset.rspOut = [] := rfl
@[simp] theorem State.hardReset_cmdIn (s : State) : s.hardReset.cmdIn = s.cmdIn := rfl
@[simp] theorem State.hardReset_sched (s : State) : s.hardReset.sched = s.sched := rfl
@[simp] theorem State.hardReset_nmax (s : State) : s.hardReset.nmax = s.nmax := rfl

end Sys2Proof.Machine
end

