-- ==== Sys2Proof/Laws/Ops.lean ====
section
/-!
SUPPORT. What each shared operation can do: the checks of a command (R187, R183, R132), access to one element, and the words a
command answers with.
-/

namespace Sys2Proof.Machine

/-! ### The checks -/

@[simp] theorem raise_eq (e : ErrCode) (s : State) : raise e s = .next (s.raised e) := rfl

theorem whenReady_of_ready {s : State} (h : s.life = .ready) (k : Result) : whenReady s k = k := by
  simp [whenReady, h]

theorem whenReady_of_not_ready {s : State} (h : s.life ≠ .ready) (k : Result) :
    whenReady s k = .next (s.raised .invalidState) := by
  simp [whenReady, h]

theorem busy_eq_false {s : State} : busy s = false ↔ s.txPhase = .idle := by
  simp [busy]

theorem busy_eq_true {s : State} : busy s = true ↔ s.txPhase ≠ .idle := by
  simp [busy]

theorem whenIdle_of_idle {s : State} (h : s.txPhase = .idle) (k : Result) : whenIdle s k = k := by
  simp [whenIdle, busy_eq_false.mpr h]

theorem whenIdle_of_busy {s : State} (h : s.txPhase ≠ .idle) (k : Result) :
    whenIdle s k = .next (s.raised .busy) := by
  simp [whenIdle, busy_eq_true.mpr h]

theorem inRange_iff {n : Half} {i : Int} : inRange n i = true ↔ 0 ≤ i ∧ i < (n.toNat : Int) := by
  simp [inRange]

theorem whenInRange_of_mem {s : State} {i : Int} (h0 : 0 ≤ i) (h : i < (s.numElements.toNat : Int)) (k : Result) :
    whenInRange s i k = k := by
  simp [whenInRange, inRange_iff.mpr ⟨h0, h⟩]

theorem whenInRange_of_not_mem {s : State} {i : Int} (h : i < 0 ∨ (s.numElements.toNat : Int) ≤ i) (k : Result) :
    whenInRange s i k = .next (s.raised .indexOutOfRange) := by
  have : ¬ inRange s.numElements i = true := by rw [inRange_iff]; omega
  simp [whenInRange, this]

/-- The lifecycle check lets a next state through in two ways only. -/
theorem whenReady_cases {s t : State} {k : Result} (h : whenReady s k = .next t) :
    (s.life = .ready ∧ k = .next t) ∨ (s.life ≠ .ready ∧ t = s.raised .invalidState) := by
  unfold whenReady at h
  split at h
  · exact .inl ⟨‹_›, h⟩
  · simp only [raise_eq, Host.Outcome.next.injEq] at h
    exact .inr ⟨‹_›, h.symm⟩

theorem whenIdle_cases {s t : State} {k : Result} (h : whenIdle s k = .next t) :
    (s.txPhase = .idle ∧ k = .next t) ∨ (s.txPhase ≠ .idle ∧ t = s.raised .busy) := by
  unfold whenIdle at h
  split at h
  · simp only [raise_eq, Host.Outcome.next.injEq] at h
    exact .inr ⟨busy_eq_true.mp ‹_›, h.symm⟩
  · exact .inl ⟨by simpa [busy] using ‹¬ busy s = true›, h⟩

theorem whenInRange_cases {s t : State} {i : Int} {k : Result} (h : whenInRange s i k = .next t) :
    (0 ≤ i ∧ i < (s.numElements.toNat : Int) ∧ k = .next t) ∨ t = s.raised .indexOutOfRange := by
  unfold whenInRange at h
  split at h
  · have := inRange_iff.mp ‹_›
    exact .inl ⟨this.1, this.2, h⟩
  · simp only [raise_eq, Host.Outcome.next.injEq] at h
    exact .inr h.symm

/-! ### One element of the buffer -/

theorem writeElem_of_lt {buf : List Color} {i : Nat} (h : i < buf.length) (c : Color) :
    writeElem buf (i : Int) c = some (buf.set i c) := by
  simp [writeElem, h]

theorem readElem_of_nat (buf : List Color) (i : Nat) : readElem buf (i : Int) = buf[i]? := by
  simp [readElem]

theorem writeElem_cases {buf b : List Color} {i : Int} {c : Color} (h : writeElem buf i c = some b) :
    ∃ j : Nat, i = (j : Int) ∧ j < buf.length ∧ b = buf.set j c := by
  unfold writeElem at h
  split at h
  · exact ⟨i.toNat, by omega, ‹_ ∧ _›.2, by simpa using h.symm⟩
  · cases h

/-- A read after a write to the same element gives what was written (R44). -/
theorem readElem_writeElem_same {buf b : List Color} {i : Int} {c : Color} (h : writeElem buf i c = some b) :
    readElem b i = some c := by
  obtain ⟨j, rfl, hj, rfl⟩ := writeElem_cases h
  simp [readElem, hj]

/-- A write leaves every other element as it was (R110). -/
theorem readElem_writeElem_other {buf b : List Color} {i k : Int} {c : Color} (h : writeElem buf i c = some b) (hk : k ≠ i) :
    readElem b k = readElem buf k := by
  obtain ⟨j, rfl, hj, rfl⟩ := writeElem_cases h
  unfold readElem
  split
  · rw [List.getElem?_set_ne]
    omega
  · rfl

/-- A write keeps the number of elements (the buffer's canonical form, R25). -/
theorem writeElem_length {buf b : List Color} {i : Int} {c : Color} (h : writeElem buf i c = some b) :
    b.length = buf.length := by
  obtain ⟨j, -, -, rfl⟩ := writeElem_cases h
  simp

theorem writeAt_of_lt {s : State} {i : Nat} (hn : i < s.numElements.toNat) (hb : s.buf.length = s.numElements.toNat)
    (c : Color) : writeAt s (i : Int) c = .next ({ s with buf := s.buf.set i c }.answer [okWord]) := by
  rw [writeAt, whenInRange_of_mem (by omega) (by omega), writeElem_of_lt (by omega)]

theorem readAt_of_lt {s : State} {i : Nat} (hn : i < s.numElements.toNat) (hb : s.buf.length = s.numElements.toNat) :
    ∃ c, s.buf[i]? = some c ∧ readAt s (i : Int) = .next (s.answer [colorWord c]) := by
  refine ⟨s.buf[i], by simp, ?_⟩
  rw [readAt, whenInRange_of_mem (by omega) (by omega), readElem_of_nat]
  simp [hb, hn]

/-- What a write of one element can answer. -/
theorem writeAt_cases {s t : State} {i : Int} {c : Color} (h : writeAt s i c = .next t) :
    (∃ b, b.length = s.buf.length ∧ t = { s with buf := b }.answer [okWord]) ∨ t = s.raised .indexOutOfRange := by
  obtain ⟨-, -, h⟩ | h := whenInRange_cases h
  · split at h
    · rename_i b hb
      exact .inl ⟨b, writeElem_length hb, by simpa using h.symm⟩
    · cases h
  · exact .inr h

/-- What a read of one element can answer. -/
theorem readAt_cases {s t : State} {i : Int} (h : readAt s i = .next t) :
    (∃ c, t = s.answer [colorWord c]) ∨ t = s.raised .indexOutOfRange := by
  obtain ⟨-, -, h⟩ | h := whenInRange_cases h
  · split at h
    · rename_i c hc
      exact .inl ⟨c, by simpa using h.symm⟩
    · cases h
  · exact .inr h

/-! ### Response words -/

@[simp] theorem okWord_eq : okWord = 0 := by decide

/-- Reserved bits 27:25 of every response word are zero (R77). -/
theorem rspWord_reserved (e : ErrCode) (p : Bool) (d : Packed) : (rspWord e p d).extractLsb' 25 3 = 0 := by
  ext k hk
  have : k = 0 ∨ k = 1 ∨ k = 2 := by omega
  rcases this with rfl | rfl | rfl <;> simp [rspWord]

/-- The status field is the error code (R77, R180). -/
theorem rspWord_status (e : ErrCode) (p : Bool) (d : Packed) : (rspWord e p d).extractLsb' 28 4 = e.code := by
  ext k hk
  have : k = 0 ∨ k = 1 ∨ k = 2 ∨ k = 3 := by omega
  rcases this with rfl | rfl | rfl | rfl <;> simp [rspWord]

/-- The `present` bit. -/
theorem rspWord_present (e : ErrCode) (p : Bool) (d : Packed) : (rspWord e p d).extractLsb' 24 1 = BitVec.ofBool p := by
  ext k hk
  obtain rfl : k = 0 := by omega
  simp [rspWord]

/-- The `data` field. -/
theorem rspWord_data (e : ErrCode) (p : Bool) (d : Packed) : (rspWord e p d).extractLsb' 0 24 = d := by
  ext k hk
  have h28 : k < 28 := by omega
  simp [rspWord, h28, hk, Nat.lt_trans hk (by decide : 24 < 32)]

theorem ErrCode.code_eq_zero {e : ErrCode} : e.code = 0 ↔ e = .ok := by
  cases e <;> decide

end Sys2Proof.Machine
end

