-- ==== Sys2Proof/Laws/Operands.lean ====
section
/-!
SUPPORT. The index function inside the grid (R130, R134) and the whole-frame write and read (R137, R138): each in one lemma
that says everything it does.
-/

namespace Sys2Proof.Machine

/-- A row that is not reversed (R130). -/
theorem index_straight {topo : Topo} {y : Nat} (h : topo ≠ .serpentine ∨ y % 2 = 0) (w : Half) (x : Nat) :
    index topo w x y = (y : Int) * (w.toNat : Int) + (x : Int) := by
  unfold index
  rw [if_neg]
  rintro ⟨ht, hy⟩
  rcases h with h | h
  · exact h ht
  · omega

/-- A reversed row (R130). -/
theorem index_reversed {y : Nat} (h : y % 2 = 1) (w : Half) (x : Nat) :
    index .serpentine w x y = (y : Int) * (w.toNat : Int) + ((w.toNat : Int) - 1 - (x : Int)) := by
  unfold index
  rw [if_pos ⟨rfl, h⟩]

/-- In the grid the index is the row's base and a column, and that column's index is the base and this column. -/
theorem index_grid (topo : Topo) (w : Half) {x : Nat} (y : Nat) (hx : x < w.toNat) :
    ∃ x' : Nat, x' < w.toNat ∧ index topo w x y = ((y * w.toNat + x' : Nat) : Int) ∧
      index topo w x' y = ((y * w.toNat + x : Nat) : Int) := by
  by_cases h : topo ≠ .serpentine ∨ y % 2 = 0
  · exact ⟨x, hx, by rw [index_straight h]; push_cast; ring, by rw [index_straight h]; push_cast; ring⟩
  · push Not at h
    obtain ⟨rfl, h⟩ := h
    have hy : y % 2 = 1 := by omega
    refine ⟨w.toNat - 1 - x, by omega, ?_, ?_⟩ <;> rw [index_reversed hy] <;> push_cast <;> omega

theorem row_div_mod {w q r : Nat} (h : r < w) : (q * w + r) / w = q ∧ (q * w + r) % w = r := by
  constructor
  · rw [Nat.mul_comm, Nat.mul_add_div (by omega), Nat.div_eq_of_lt h, Nat.add_zero]
  · rw [Nat.mul_comm, Nat.mul_add_mod, Nat.mod_eq_of_lt h]

theorem row_base_lt {w n y x : Nat} (hn : n % w = 0) (hy : y < n / w) (hx : x < w) : y * w + x < n := by
  have hw : n / w * w = n := Nat.div_mul_cancel (Nat.dvd_of_mod_eq_zero hn)
  have hle : (y + 1) * w ≤ n / w * w := Nat.mul_le_mul_right _ (by omega)
  rw [Nat.add_mul] at hle
  omega

theorem row_lt {w n p : Nat} (hn : n % w = 0) (hp : p < n) : p / w < n / w := by
  apply Nat.div_lt_of_lt_mul
  rw [Nat.mul_div_cancel' (Nat.dvd_of_mod_eq_zero hn)]
  exact hp

/-- `phys` maps the buffer's positions to its indices, and is its own inverse (R134). -/
theorem phys_involutive (topo : Topo) {w n : Half} (hw : 1 ≤ w.toNat) (hn : n.toNat % w.toNat = 0) {p : Nat}
    (hp : p < n.toNat) :
    ∃ q : Nat, q < n.toNat ∧ phys topo w p = (q : Int) ∧ phys topo w q = (p : Int) := by
  obtain ⟨x', hx', e1, e2⟩ := index_grid topo w (p / w.toNat) (Nat.mod_lt p hw)
  refine ⟨p / w.toNat * w.toNat + x', row_base_lt hn (row_lt hn hp) hx', e1, ?_⟩
  unfold phys
  rw [(row_div_mod hx').1, (row_div_mod hx').2, e2, Nat.mul_comm, Nat.div_add_mod]

theorem phys_injective (topo : Topo) {w n : Half} (hw : 1 ≤ w.toNat) (hn : n.toNat % w.toNat = 0) {p q : Nat}
    (hp : p < n.toNat) (hq : q < n.toNat) (h : phys topo w p = phys topo w q) : p = q := by
  obtain ⟨a, -, ha, ha'⟩ := phys_involutive topo hw hn hp
  obtain ⟨b, -, hb, hb'⟩ := phys_involutive topo hw hn hq
  have hab : a = b := by
    rw [ha, hb] at h
    exact_mod_cast h
  subst hab
  rw [ha'] at hb'
  exact_mod_cast hb'

/-- The logical position of an in-grid coordinate pair (R134). -/
theorem phys_of_grid (topo : Topo) {w : Half} {x : Nat} (y : Nat) (hx : x < w.toNat) :
    phys topo w (y * w.toNat + x) = index topo w x y := by
  unfold phys
  rw [(row_div_mod hx).1, (row_div_mod hx).2]

/-- Everything a whole-frame write does: it succeeds, keeps the length, writes the frame's positions and no other. -/
theorem writeFrame_spec (topo : Topo) {w n : Half} (hw : 1 ≤ w.toNat) (hn : n.toNat % w.toNat = 0) (cs : List Color) :
    ∀ (p : Nat) (buf : List Color), buf.length = n.toNat → p + cs.length ≤ n.toNat →
    ∃ b, writeFrame topo w p cs buf = some b ∧ b.length = n.toNat ∧
      ∀ q : Nat, q < n.toNat → readElem b (phys topo w q) =
        if p ≤ q ∧ q < p + cs.length then cs[q - p]? else readElem buf (phys topo w q) := by
  induction cs with
  | nil =>
    intro p buf hb _
    refine ⟨buf, rfl, hb, fun q _ => ?_⟩
    rw [if_neg]
    simp only [List.length_nil]
    omega
  | cons c cs ih =>
    intro p buf hb hp
    simp only [List.length_cons] at hp
    obtain ⟨i, hi, hi1, -⟩ := phys_involutive topo hw hn (show p < n.toNat by omega)
    have hwr : writeElem buf (phys topo w p) c = some (buf.set i c) := by rw [hi1]; exact writeElem_of_lt (by omega) c
    obtain ⟨b, hb1, hb2, hb3⟩ := ih (p + 1) (buf.set i c) (by simpa using hb) (by omega)
    refine ⟨b, ?_, hb2, fun q hq => ?_⟩
    · rw [writeFrame, hwr]
      exact hb1
    · rw [hb3 q hq]
      simp only [List.length_cons]
      by_cases hqp : q = p
      · subst hqp
        rw [if_neg (by omega), if_pos (by omega), readElem_writeElem_same hwr]
        simp
      · have hne : phys topo w q ≠ phys topo w p := fun h => hqp (phys_injective topo hw hn hq (by omega) h)
        rw [readElem_writeElem_other hwr hne]
        by_cases hin : p + 1 ≤ q ∧ q < p + 1 + cs.length
        · rw [if_pos hin, if_pos (by omega), show q - p = q - (p + 1) + 1 by omega]
          simp
        · rw [if_neg hin, if_neg (by omega)]

/-- A whole-frame write keeps the number of elements. -/
theorem writeFrame_length {topo : Topo} {w : Half} {cs : List Color} :
    ∀ {p : Nat} {buf b : List Color}, writeFrame topo w p cs buf = some b → b.length = buf.length := by
  induction cs with
  | nil =>
    intro p buf b h
    cases h
    rfl
  | cons c cs ih =>
    intro p buf b h
    rw [writeFrame] at h
    split at h
    · rename_i b' hb'
      rw [ih h, writeElem_length hb']
    · cases h

/-- Everything a whole-frame read does (R138). -/
theorem readFrame_spec (topo : Topo) {w n : Half} (hw : 1 ≤ w.toNat) (hn : n.toNat % w.toNat = 0) {buf : List Color}
    (hb : buf.length = n.toNat) (count : Nat) :
    ∀ p : Nat, p + count ≤ n.toNat →
    ∃ g, readFrame topo w buf p count = some g ∧ g.length = count ∧
      ∀ k : Nat, k < count → g[k]? = readElem buf (phys topo w (p + k)) := by
  induction count with
  | zero => exact fun p _ => ⟨[], rfl, rfl, fun k hk => absurd hk (Nat.not_lt_zero k)⟩
  | succ count ih =>
    intro p hp
    obtain ⟨i, hi, hi1, -⟩ := phys_involutive topo hw hn (show p < n.toNat by omega)
    obtain ⟨g, hg1, hg2, hg3⟩ := ih (p + 1) (by omega)
    have hr : readElem buf (phys topo w p) = some (buf[i]'(by omega)) := by
      rw [hi1, readElem_of_nat, List.getElem?_eq_getElem]
    refine ⟨buf[i]'(by omega) :: g, ?_, by simp [hg2], fun k hk => ?_⟩
    · rw [readFrame, hr, hg1]
    · cases k with
      | zero => simpa using hr.symm
      | succ k =>
        rw [List.getElem?_cons_succ, hg3 k (by omega), show p + 1 + k = p + (k + 1) by omega]

/-- A buffer is what its logical frame says: two buffers of `N` elements with the same colour at every position are one. -/
theorem buf_ext (topo : Topo) {w n : Half} (hw : 1 ≤ w.toNat) (hn : n.toNat % w.toNat = 0) {b b' : List Color}
    (hb : b.length = n.toNat) (hb' : b'.length = n.toNat)
    (h : ∀ p : Nat, p < n.toNat → readElem b (phys topo w p) = readElem b' (phys topo w p)) : b = b' := by
  apply List.ext_getElem?
  intro i
  by_cases hi : i < n.toNat
  · obtain ⟨p, hp, -, h2⟩ := phys_involutive topo hw hn hi
    have := h p hp
    rwa [h2, readElem_of_nat, readElem_of_nat] at this
  · rw [List.getElem?_eq_none (by omega), List.getElem?_eq_none (by omega)]

end Sys2Proof.Machine
end

