-- ==== Sys2Proof/Laws/Exec.lean ====
section
/-!
SUPPORT. What an instruction can do, said once: every next state of `exec` is one of the cases of `Effect`. Statements about all
instructions are derived from `exec_effect`.
-/

namespace Sys2Proof.Machine

/-- The commands whose success is a new buffer and the word `OK` (R110, R112 to R115, R135). -/
abbrev WritesBuffer (i : Instr) : Prop :=
  (∃ k c, i = .setled k c) ∨ (∃ x y c, i = .setxy x y c) ∨ i = .clear ∨ (∃ c, i = .setall c) ∨ (∃ c, i = .active c) ∨
    i = .cycle

/-- The commands that answer one word and change nothing (R111, R116, R136). -/
abbrev ReadsBuffer (i : Instr) : Prop :=
  (∃ k, i = .getled k) ∨ (∃ x y, i = .getxy x y) ∨ i = .firstvis

/-- The next states of an instruction. -/
inductive Effect : Instr → State → State → Prop where
  /-- The command raises an error (R184). -/
  | raised {i : Instr} {s : State} {e : ErrCode} (he : e ≠ .ok) (hw : i = .wait → s.life ≠ .ready)
      (hf : ∀ rx, s.port = .frame rx → ∀ c, i ≠ .payload c) (h0 : ∀ count, i = .setframe count → count = 0) :
      Effect i s (s.raised e)
  /-- The last payload word of a `SETFRAME` that fails (R76, R137). -/
  | frameRaised {c : Color} {s : State} {rx : FrameRx} {e : ErrCode} (hp : s.port = .frame rx) (hl : rx.left ≤ 1)
      (he : e ≠ .ok) : Effect (.payload c) s ({ s with port := .ready }.raised e)
  /-- The last payload word of a `SETFRAME` that succeeds (R137). -/
  | frameWritten {c : Color} {s : State} {rx : FrameRx} {b : List Color} (hp : s.port = .frame rx) (hl : rx.left ≤ 1)
      (hr : s.life = .ready) (hb : b.length = s.buf.length) :
      Effect (.payload c) s ({ s with port := .ready, buf := b }.answer [okWord])
  /-- Any other payload word of a `SETFRAME` (R76). -/
  | frameExtended {c : Color} {s : State} {rx : FrameRx} (hp : s.port = .frame rx) (hl : 1 < rx.left) :
      Effect (.payload c) s { s with port := .frame ⟨rx.left - 1, rx.got ++ [c], rx.legal⟩ }
  /-- `SETFRAME`'s header (R76). -/
  | frameOpened {count : Half} {s : State} (hc : count ≠ 0) :
      Effect (.setframe count) s { s with port := .frame ⟨count.toNat, [], true⟩ }
  /-- `SETFRAME` of no colours on a device of no elements: no state with the invariant. -/
  | frameEmpty {s : State} (hr : s.life = .ready) (hn : s.numElements = 0) : Effect (.setframe 0) s (s.answer [okWord])
  /-- `CONFIG` (R150). -/
  | config {n w : Half} {topo : Topo} {chip : Chip} {s : State} (hl : s.life = .unconfigured)
      (hb : badTopology s.nmax n w topo = false) :
      Effect (.config n w topo chip) s ({ s with
        numElements := n, topo := topo, chip := chip, width := effectiveWidth n w topo,
        buf := List.replicate n.toNat black, life := .ready }.answer [okWord])
  /-- `CLEANUP` (R154). -/
  | cleanup {s : State} (hr : s.life = .ready) (hi : s.txPhase = .idle) :
      Effect .cleanup s ({ s with life := .released }.answer [okWord])
  /-- A command that writes the buffer. -/
  | wrote {i : Instr} {s : State} {b : List Color} (hi : WritesBuffer i) (hr : s.life = .ready)
      (hb : b.length = s.buf.length ∨ b.length = s.numElements.toNat) : Effect i s ({ s with buf := b }.answer [okWord])
  /-- A command that reads one colour. -/
  | read {i : Instr} {s : State} {w : RspWord} (hi : ReadsBuffer i) (hr : s.life = .ready)
      (hw : w = okWord ∨ ∃ c, w = colorWord c) : Effect i s (s.answer [w])
  /-- `GETFRAME` (R138). -/
  | readAll {s : State} {g : List Color} (hr : s.life = .ready) (hg : g.length = s.numElements.toNat) :
      Effect .getframe s (s.answer (countWord s.numElements :: g.map colorWord))
  /-- `START` (R151). -/
  | start {s : State} (hr : s.life = .ready) (hi : s.txPhase = .idle) :
      Effect .start s ({ s with txBytes := encodeFrame s.buf, txPos := 0, txPhase := .data }.answer [okWord])
  /-- `WAIT` with nothing in flight (R152). -/
  | waitAnswered {s : State} (hr : s.life = .ready) (hi : s.txPhase = .idle) : Effect .wait s (s.answer [okWord])
  /-- `WAIT` held (R152). -/
  | waitHeld {s : State} (hr : s.life = .ready) (hi : s.txPhase ≠ .idle) : Effect .wait s { s with port := .waitHeld }

theorem readFrame_length {topo : Topo} {w : Half} {buf : List Color} (count : Nat) :
    ∀ {p : Nat} {g : List Color}, readFrame topo w buf p count = some g → g.length = count := by
  induction count with
  | zero =>
    intro p g h
    cases h
    rfl
  | succ count ih =>
    intro p g h
    rw [readFrame] at h
    split at h
    · rename_i h2
      cases h
      simp [ih h2]
    · cases h

theorem cycledAll_length {cs : List Color} : ∀ {ds : List Color}, cycledAll cs = some ds → ds.length = cs.length := by
  induction cs with
  | nil =>
    intro ds h
    cases h
    rfl
  | cons c cs ih =>
    intro ds h
    rw [cycledAll] at h
    split at h
    · rename_i h2
      cases h
      simp [ih h2]
    · cases h

/-- What the completion of a `SETFRAME` can answer (R137). -/
theorem finishFrame_cases {got : List Color} {legal : Bool} {s t : State} (h : finishFrame got legal s = .next t) :
    (∃ e, e ≠ .ok ∧ t = s.raised e) ∨
    (s.life = .ready ∧ got.length = s.numElements.toNat ∧
      ∃ b, writeFrame s.topo s.width 0 got s.buf = some b ∧ t = { s with buf := b }.answer [okWord]) := by
  unfold finishFrame at h
  split at h
  · obtain ⟨hr, h⟩ | ⟨-, h⟩ := whenReady_cases h
    · split at h
      · split at h
        · rename_i b hb
          exact .inr ⟨hr, ‹_›, b, hb, by simpa using h.symm⟩
        · cases h
      · exact .inl ⟨.frameLengthMismatch, by decide, by simpa using h.symm⟩
    · exact .inl ⟨.invalidState, by decide, h⟩
  · exact .inl ⟨.invalidCommand, by decide, by simpa using h.symm⟩

/-- Every next state of an instruction is one of the cases of `Effect`. -/
theorem exec_effect {i : Instr} {s t : State} (h : exec i s = .next t) : Effect i s t := by
  have raisedBy : ∀ {e : ErrCode}, e ≠ .ok → (i = .wait → s.life ≠ .ready) → (∀ c, i ≠ .payload c) →
      (∀ count, i ≠ .setframe count) → t = s.raised e → Effect i s t := by
    rintro e he hw hp hf rfl
    exact .raised he hw (fun _ _ => hp) (fun count hc => absurd hc (hf count))
  cases i with
  | config n w topo chip =>
    simp only [exec, execConfig] at h
    split at h
    · exact raisedBy (e := .invalidState) (by decide) (by simp) (by simp) (by simp) (by simpa using h.symm)
    · split at h
      · exact raisedBy (e := .invalidTopologyConfiguration) (by decide) (by simp) (by simp) (by simp) (by simpa using h.symm)
      · simp only [Host.Outcome.next.injEq] at h
        subst h
        exact .config (by simpa using ‹¬ s.life ≠ Life.unconfigured›) (by simpa using ‹¬ badTopology _ _ _ _ = true›)
  | cleanup =>
    obtain ⟨hr, h⟩ | ⟨-, h⟩ := whenReady_cases h
    · obtain ⟨hi, h⟩ | ⟨-, h⟩ := whenIdle_cases h
      · cases h
        exact .cleanup hr hi
      · exact raisedBy (e := .busy) (by decide) (by simp) (by simp) (by simp) h
    · exact raisedBy (e := .invalidState) (by decide) (by simp) (by simp) (by simp) h
  | setled k c =>
    obtain ⟨hr, h⟩ | ⟨-, h⟩ := whenReady_cases h
    · obtain ⟨b, hb, rfl⟩ | h := writeAt_cases h
      · exact .wrote (.inl ⟨k, c, rfl⟩) hr (.inl hb)
      · exact raisedBy (e := .indexOutOfRange) (by decide) (by simp) (by simp) (by simp) h
    · exact raisedBy (e := .invalidState) (by decide) (by simp) (by simp) (by simp) h
  | getled k =>
    obtain ⟨hr, h⟩ | ⟨-, h⟩ := whenReady_cases h
    · obtain ⟨c, rfl⟩ | h := readAt_cases h
      · exact .read (.inl ⟨k, rfl⟩) hr (.inr ⟨c, rfl⟩)
      · exact raisedBy (e := .indexOutOfRange) (by decide) (by simp) (by simp) (by simp) h
    · exact raisedBy (e := .invalidState) (by decide) (by simp) (by simp) (by simp) h
  | setxy x y c =>
    obtain ⟨hr, h⟩ | ⟨-, h⟩ := whenReady_cases h
    · obtain ⟨b, hb, rfl⟩ | h := writeAt_cases h
      · exact .wrote (.inr (.inl ⟨x, y, c, rfl⟩)) hr (.inl hb)
      · exact raisedBy (e := .indexOutOfRange) (by decide) (by simp) (by simp) (by simp) h
    · exact raisedBy (e := .invalidState) (by decide) (by simp) (by simp) (by simp) h
  | getxy x y =>
    obtain ⟨hr, h⟩ | ⟨-, h⟩ := whenReady_cases h
    · obtain ⟨c, rfl⟩ | h := readAt_cases h
      · exact .read (.inr (.inl ⟨x, y, rfl⟩)) hr (.inr ⟨c, rfl⟩)
      · exact raisedBy (e := .indexOutOfRange) (by decide) (by simp) (by simp) (by simp) h
    · exact raisedBy (e := .invalidState) (by decide) (by simp) (by simp) (by simp) h
  | setframe count =>
    simp only [exec, execSetframe, beginFrame] at h
    split at h
    · rename_i hc
      subst hc
      obtain ⟨e, he, rfl⟩ | ⟨hr, hn, b, hb, rfl⟩ := finishFrame_cases h
      · exact .raised he (by simp) (by simp) (by simp)
      · cases hb
        exact .frameEmpty hr (by apply BitVec.eq_of_toNat_eq; simpa using hn.symm)
    · simp only [Host.Outcome.next.injEq] at h
      subst h
      exact .frameOpened ‹_›
  | getframe =>
    obtain ⟨hr, h⟩ | ⟨-, h⟩ := whenReady_cases h
    · split at h
      · rename_i g hg
        cases h
        exact .readAll hr (readFrame_length _ hg)
      · cases h
    · exact raisedBy (e := .invalidState) (by decide) (by simp) (by simp) (by simp) h
  | clear =>
    obtain ⟨hr, h⟩ | ⟨-, h⟩ := whenReady_cases h
    · cases h
      exact .wrote (.inr (.inr (.inl rfl))) hr (.inr (by simp))
    · exact raisedBy (e := .invalidState) (by decide) (by simp) (by simp) (by simp) h
  | setall c =>
    obtain ⟨hr, h⟩ | ⟨-, h⟩ := whenReady_cases h
    · cases h
      exact .wrote (.inr (.inr (.inr (.inl ⟨c, rfl⟩)))) hr (.inr (by simp))
    · exact raisedBy (e := .invalidState) (by decide) (by simp) (by simp) (by simp) h
  | active c =>
    obtain ⟨hr, h⟩ | ⟨-, h⟩ := whenReady_cases h
    · cases h
      exact .wrote (.inr (.inr (.inr (.inr (.inl ⟨c, rfl⟩))))) hr (.inl (by simp))
    · exact raisedBy (e := .invalidState) (by decide) (by simp) (by simp) (by simp) h
  | cycle =>
    obtain ⟨hr, h⟩ | ⟨-, h⟩ := whenReady_cases h
    · split at h
      · rename_i b hb
        cases h
        exact .wrote (.inr (.inr (.inr (.inr (.inr rfl))))) hr (.inl (cycledAll_length hb))
      · exact raisedBy (e := .channelOverflow) (by decide) (by simp) (by simp) (by simp) (by simpa using h.symm)
    · exact raisedBy (e := .invalidState) (by decide) (by simp) (by simp) (by simp) h
  | firstvis =>
    obtain ⟨hr, h⟩ | ⟨-, h⟩ := whenReady_cases h
    · cases h
      refine .read (.inr (.inr rfl)) hr ?_
      unfold firstVisibleWord
      split
      · exact .inr ⟨_, rfl⟩
      · exact .inl rfl
    · exact raisedBy (e := .invalidState) (by decide) (by simp) (by simp) (by simp) h
  | start =>
    obtain ⟨hr, h⟩ | ⟨-, h⟩ := whenReady_cases h
    · obtain ⟨hi, h⟩ | ⟨-, h⟩ := whenIdle_cases h
      · cases h
        exact .start hr hi
      · exact raisedBy (e := .busy) (by decide) (by simp) (by simp) (by simp) h
    · exact raisedBy (e := .invalidState) (by decide) (by simp) (by simp) (by simp) h
  | wait =>
    obtain ⟨hr, h⟩ | ⟨hn, h⟩ := whenReady_cases h
    · split at h
      · cases h
        exact .waitHeld hr (busy_eq_true.mp ‹_›)
      · cases h
        exact .waitAnswered hr (by simpa [busy] using ‹¬ busy s = true›)
    · exact raisedBy (e := .invalidState) (by decide) (fun _ => hn) (by simp) (by simp) h
  | payload c =>
    simp only [exec, execPayload, takePayload] at h
    split at h
    · rename_i rx hp
      split at h
      · obtain ⟨e, he, rfl⟩ | ⟨hr, -, b, hb, rfl⟩ := finishFrame_cases h
        · exact .frameRaised hp ‹_› he
        · exact .frameWritten hp ‹_› hr (writeFrame_length hb)
      · simp only [Bool.and_true, Host.Outcome.next.injEq] at h
        subst h
        exact .frameExtended hp (by omega)
    · rename_i hp
      simp only [raise_eq, Host.Outcome.next.injEq] at h
      subst h
      exact .raised (by decide) (by simp) (by simp [hp]) (by simp)
    · rename_i hp
      simp only [raise_eq, Host.Outcome.next.injEq] at h
      subst h
      exact .raised (by decide) (by simp) (by simp [hp]) (by simp)

end Sys2Proof.Machine
end

