-- ==== Sys2Proof/Laws/PerInstr.lean ====
section
/-!
SUPPORT. The family `TableMatch`: the word of every instruction fits its row of the opcode map (R83), one lemma a constructor.
-/

namespace Sys2Proof.Laws.TableMatch

/-- The word of a command fits the command's row of the opcode map; the word of a payload fits the payload mask (R83). -/
def Statement (i : Instr) : Prop :=
  match i.opcode with
  | some o => ∃ r ∈ opcodeMap, r.opcode = o ∧ r.Fits (encode i)
  | none => encode i &&& payloadMask = 0

/-- A word of fields fits a mask of fields and a match whose only field is the opcode, field by field. -/
theorem fits_of_fields {mask pattern : CmdWord} {o : BitVec 8} {a b ma mb : Half} {c mc : Packed}
    (hm : mask = mkWord 0xFF ma mb mc) (hp : pattern = mkWord o 0 0 0) (ha : a &&& ma = 0) (hb : b &&& mb = 0)
    (hc : c &&& mc = 0) : mkWord o a b c &&& mask = pattern := by
  have all : (0xFF : BitVec 8) = BitVec.allOnes 8 := by decide
  rw [hm, hp, mkWord_and, ha, hb, hc, all, BitVec.and_allOnes]

theorem modeBits_masked (topo : Topo) (chip : Chip) : modeBits topo chip &&& 0xFFFCFC = 0 := by
  cases topo <;> cases chip <;> decide

theorem config (n w : Half) (topo : Topo) (chip : Chip) : Statement (.config n w topo chip) :=
  ⟨⟨.config, 0x0100000000000000, 0xFF00000000FFFCFC⟩, by decide, rfl,
    fits_of_fields (ma := 0) (mb := 0) (mc := 0xFFFCFC) (by decide) (by decide) BitVec.and_zero BitVec.and_zero
      (modeBits_masked topo chip)⟩

theorem cleanup : Statement .cleanup :=
  ⟨⟨.cleanup, 0x0200000000000000, 0xFFFFFFFFFFFFFFFF⟩, by decide, rfl, by decide⟩

theorem setled (index : Half) (color : Color) : Statement (.setled index color) :=
  ⟨⟨.setled, 0x1000000000000000, 0xFF0000FFFF000000⟩, by decide, rfl,
    fits_of_fields (ma := 0) (mb := 0xFFFF) (mc := 0) (by decide) (by decide) BitVec.and_zero (by decide) BitVec.and_zero⟩

theorem getled (index : Half) : Statement (.getled index) :=
  ⟨⟨.getled, 0x1100000000000000, 0xFF0000FFFFFFFFFF⟩, by decide, rfl,
    fits_of_fields (ma := 0) (mb := 0xFFFF) (mc := 0xFFFFFF) (by decide) (by decide) BitVec.and_zero (by decide) (by decide)⟩

theorem setxy (x y : Half) (color : Color) : Statement (.setxy x y color) :=
  ⟨⟨.setxy, 0x1200000000000000, 0xFF00000000000000⟩, by decide, rfl,
    fits_of_fields (ma := 0) (mb := 0) (mc := 0) (by decide) (by decide) BitVec.and_zero BitVec.and_zero BitVec.and_zero⟩

theorem getxy (x y : Half) : Statement (.getxy x y) :=
  ⟨⟨.getxy, 0x1300000000000000, 0xFF00000000FFFFFF⟩, by decide, rfl,
    fits_of_fields (ma := 0) (mb := 0) (mc := 0xFFFFFF) (by decide) (by decide) BitVec.and_zero BitVec.and_zero (by decide)⟩

theorem setframe (count : Half) : Statement (.setframe count) :=
  ⟨⟨.setframe, 0x1400000000000000, 0xFF0000FFFFFFFFFF⟩, by decide, rfl,
    fits_of_fields (ma := 0) (mb := 0xFFFF) (mc := 0xFFFFFF) (by decide) (by decide) BitVec.and_zero (by decide) (by decide)⟩

theorem getframe : Statement .getframe :=
  ⟨⟨.getframe, 0x1500000000000000, 0xFFFFFFFFFFFFFFFF⟩, by decide, rfl, by decide⟩

theorem clear : Statement .clear :=
  ⟨⟨.clear, 0x2000000000000000, 0xFFFFFFFFFFFFFFFF⟩, by decide, rfl, by decide⟩

theorem setall (color : Color) : Statement (.setall color) :=
  ⟨⟨.setall, 0x2100000000000000, 0xFFFFFFFFFF000000⟩, by decide, rfl,
    fits_of_fields (ma := 0xFFFF) (mb := 0xFFFF) (mc := 0) (by decide) (by decide) (by decide) (by decide) BitVec.and_zero⟩

theorem active (color : Color) : Statement (.active color) :=
  ⟨⟨.active, 0x2200000000000000, 0xFFFFFFFFFF000000⟩, by decide, rfl,
    fits_of_fields (ma := 0xFFFF) (mb := 0xFFFF) (mc := 0) (by decide) (by decide) (by decide) (by decide) BitVec.and_zero⟩

theorem cycle : Statement .cycle :=
  ⟨⟨.cycle, 0x2300000000000000, 0xFFFFFFFFFFFFFFFF⟩, by decide, rfl, by decide⟩

theorem firstvis : Statement .firstvis :=
  ⟨⟨.firstvis, 0x2400000000000000, 0xFFFFFFFFFFFFFFFF⟩, by decide, rfl, by decide⟩

theorem start : Statement .start :=
  ⟨⟨.start, 0x3000000000000000, 0xFFFFFFFFFFFFFFFF⟩, by decide, rfl, by decide⟩

theorem wait : Statement .wait :=
  ⟨⟨.wait, 0x3100000000000000, 0xFFFFFFFFFFFFFFFF⟩, by decide, rfl, by decide⟩

theorem payload (color : Color) : Statement (.payload color) := by
  have h := fits_of_fields (mask := payloadMask) (pattern := 0) (o := 0) (a := 0) (b := 0) (ma := 0xFFFF) (mb := 0xFFFF)
    (c := pack color) (mc := 0) (by decide) (by decide) (by decide) (by decide) BitVec.and_zero
  exact h

end Sys2Proof.Laws.TableMatch
end

