-- ==== Sys2Proof/Laws/Transmit.lean ====
section
/-!
SUPPORT. How the bytes and the symbols of a frame are indexed (R60 to R63, R157), and what a data step finds (R161).
-/

namespace Sys2Proof.Machine

/-- Position `k` of a list put together from pieces of one length: place `k mod n` of piece `k div n`. -/
theorem getElem?_flatMap_uniform {α β : Type} {f : α → List β} {n : Nat} (hn : 0 < n) (hf : ∀ x, (f x).length = n)
    (l : List α) : ∀ k : Nat, (l.flatMap f)[k]? = (l[k / n]?).bind fun x => (f x)[k % n]? := by
  induction l with
  | nil => simp
  | cons x xs ih =>
    intro k
    rw [List.flatMap_cons]
    by_cases hk : k < n
    · rw [List.getElem?_append_left (by rw [hf]; exact hk), Nat.div_eq_of_lt hk, Nat.mod_eq_of_lt hk]
      rfl
    · rw [List.getElem?_append_right (by rw [hf]; omega), hf, ih]
      obtain ⟨j, rfl⟩ : ∃ j, k = j + n := ⟨k - n, by omega⟩
      rw [Nat.add_sub_cancel, Nat.add_div_right _ hn, Nat.add_mod_right, List.getElem?_cons_succ]

theorem length_flatMap_uniform {α β : Type} {f : α → List β} {n : Nat} (hf : ∀ x, (f x).length = n) (l : List α) :
    (l.flatMap f).length = n * l.length := by
  induction l with
  | nil => rfl
  | cons x xs ih => rw [List.flatMap_cons, List.length_append, hf, ih, List.length_cons, Nat.mul_succ, Nat.add_comm]

@[simp] theorem byteSymbols_length (b : Byte) : (byteSymbols b).length = 8 := rfl

@[simp] theorem encodeColor_length (c : Color) : (encodeColor c).length = 3 := rfl

theorem encodeFrame_length (buf : List Color) : (encodeFrame buf).length = 3 * buf.length :=
  length_flatMap_uniform encodeColor_length buf

/-- Byte `k` of an encoded frame is byte `k mod 3` of LED `k div 3`. -/
theorem encodeFrame_getElem? (buf : List Color) (k : Nat) :
    (encodeFrame buf)[k]? = (buf[k / 3]?).bind fun c => (encodeColor c)[k % 3]? :=
  getElem?_flatMap_uniform (by omega) encodeColor_length buf k

theorem frameSymbols_length (bytes : List Byte) : (frameSymbols bytes).length = 8 * bytes.length + 1 := by
  rw [frameSymbols, List.length_append, length_flatMap_uniform byteSymbols_length]
  rfl

/-- Symbol `k` of the data part of a frame is that of data bit `k`. -/
theorem frameSymbols_getElem? {bytes : List Byte} {k : Nat} {b : Bool} (h : frameBit bytes k = some b) :
    (frameSymbols bytes)[k]? = some (bitSymbol b) := by
  obtain ⟨x, hx, rfl⟩ := Option.map_eq_some_iff.mp h
  have hlt : k / 8 < bytes.length := (List.getElem?_eq_some_iff.mp hx).1
  rw [frameSymbols, List.getElem?_append_left (by rw [length_flatMap_uniform byteSymbols_length]; omega),
    getElem?_flatMap_uniform (by omega) byteSymbols_length, hx]
  have hm : k % 8 < 8 := Nat.mod_lt k (by omega)
  simp [byteSymbols, List.getElem?_range hm]

/-- After the data part stands the reset gap alone. -/
theorem frameSymbols_drop_data (bytes : List Byte) : (frameSymbols bytes).drop (8 * bytes.length) = [.res] := by
  rw [frameSymbols, List.drop_append_of_le_length (by rw [length_flatMap_uniform byteSymbols_length]),
    List.drop_eq_nil_of_le (by rw [length_flatMap_uniform byteSymbols_length])]
  rfl

/-- There is a data bit at every position below eight times the number of bytes. -/
theorem frameBit_of_lt {bytes : List Byte} {k : Nat} (h : k < 8 * bytes.length) : ∃ b, frameBit bytes k = some b := by
  have hlt : k / 8 < bytes.length := by omega
  exact ⟨_, by rw [frameBit, List.getElem?_eq_getElem hlt]; rfl⟩

/-- What is left to send, one symbol on. -/
theorem frameSymbols_drop {bytes : List Byte} {k : Nat} {b : Bool} (h : frameBit bytes k = some b) :
    (frameSymbols bytes).drop k = bitSymbol b :: (frameSymbols bytes).drop (k + 1) := by
  obtain ⟨hlt, e⟩ := List.getElem?_eq_some_iff.mp (frameSymbols_getElem? h)
  rw [List.drop_eq_getElem_cons hlt, e]

end Sys2Proof.Machine
end

