-- ==== Sys2Proof/Laws/Step.lean ====
section
/-!
SUPPORT. What a step can do, said once: every next state of `step` is one of the cases of `StepEffect`. Statements about all
steps are derived from `step_effect`.
-/

namespace Sys2Proof.Machine

/-- The state with its turn used up: no other field changes. -/
def State.turnUsed (s : State) : State := { s with sched := s.sched.tail }

/-- The state with its turn used up and one word taken from the command port. -/
def State.wordTaken (s : State) : State := { s with sched := s.sched.tail, cmdIn := s.cmdIn.tail }

/-- The next states of a step. -/
inductive StepEffect (s : State) : State → Prop where
  /-- The turn's agent has no step. -/
  | passed : StepEffect s s.turnUsed
  /-- A reset (R210). -/
  | reset {ts : List Turn} (hs : s.sched = .reset :: ts) : StepEffect s s.turnUsed.hardReset
  /-- The held `WAIT` answers (R152). -/
  | released (hp : s.port = .waitHeld) (hi : s.txPhase = .idle) :
      StepEffect s ({ s.turnUsed with port := .ready }.answer [okWord])
  /-- A command runs. -/
  | command {w : CmdWord} {ws : List CmdWord} {i : Instr} {t : State} (hc : s.cmdIn = w :: ws) (hp : s.port = .ready)
      (hd : decodeCommand w = .ok i) (h : Effect i s.wordTaken t) : StepEffect s t
  /-- A payload word is taken. -/
  | payload {w : CmdWord} {ws : List CmdWord} {rx : FrameRx} {c : Color} {t : State} (hc : s.cmdIn = w :: ws)
      (hp : s.port = .frame rx) (hd : decodePayload w = .ok (.payload c)) (h : Effect (.payload c) s.wordTaken t) : StepEffect s t
  /-- An illegal word (R79). -/
  | illegal {w : CmdWord} {ws : List CmdWord} (hc : s.cmdIn = w :: ws) (hp : s.port = .ready) :
      StepEffect s (s.wordTaken.raised .invalidCommand)
  /-- An illegal `SETFRAME` header whose payload words are taken all the same (R76). -/
  | illegalHeader {w : CmdWord} {ws : List CmdWord} {count : Half} (hc : s.cmdIn = w :: ws) (hp : s.port = .ready)
      (h0 : count ≠ 0) : StepEffect s { s.wordTaken with port := .frame ⟨count.toNat, [], false⟩ }
  /-- An illegal payload word before the last (R76). -/
  | illegalPayload {w : CmdWord} {ws : List CmdWord} {rx : FrameRx} {c : Color} (hc : s.cmdIn = w :: ws)
      (hp : s.port = .frame rx) (hl : 1 < rx.left) :
      StepEffect s { s.wordTaken with port := .frame ⟨rx.left - 1, rx.got ++ [c], false⟩ }
  /-- An illegal last payload word. -/
  | illegalFrame {w : CmdWord} {ws : List CmdWord} {rx : FrameRx} (hc : s.cmdIn = w :: ws) (hp : s.port = .frame rx)
      (hl : rx.left ≤ 1) : StepEffect s ({ s.wordTaken with port := .ready }.raised .invalidCommand)
  /-- The data step (R161). -/
  | data {b : Bool} (hd : s.txPhase = .data) (hb : frameBit s.txBytes s.txPos = some b) :
      StepEffect s { s.turnUsed with
        wire := s.wire ++ [bitSymbol b]
        txPos := s.txPos + 1
        txPhase := if s.txPos + 1 = frameBits s then .gap else .data }
  /-- The gap step (R162). -/
  | gap (hg : s.txPhase = .gap) : StepEffect s { s.turnUsed with wire := s.wire ++ [.res], txPhase := .idle }

/-- A word in command position never decodes to a payload word. -/
theorem decodeCommand_ne_payload {w : CmdWord} {i : Instr} (h : decodeCommand w = .ok i) (c : Color) : i ≠ .payload c := by
  rintro rfl
  unfold decodeCommand decodeConfig ifZero at h
  repeat' split at h
  all_goals cases h

/-- A word in payload position decodes to a payload word or is illegal. -/
theorem decodePayload_cases (w : CmdWord) :
    decodePayload w = .ok (.payload (unpack (cField w))) ∨ decodePayload w = .error (.payloadReserved (unpack (cField w))) := by
  unfold decodePayload
  split
  · exact .inl rfl
  · exact .inr rfl

/-- What a word that is no command does, its port being ready: it is answered, or opens a reception. -/
theorem rejectWord_ready {r : Reject} {s t : State} (hp : s.port = .ready) (h : rejectWord r s = .next t) :
    t = s.raised .invalidCommand ∨ ∃ count : Half, count ≠ 0 ∧ t = { s with port := .frame ⟨count.toNat, [], false⟩ } := by
  cases r with
  | frameHeader count =>
    simp only [rejectWord, beginFrame] at h
    split at h
    · exact .inl (by simpa [finishFrame] using h.symm)
    · exact .inr ⟨count, ‹_›, by simpa using h.symm⟩
  | payloadReserved c =>
    simp only [rejectWord, takePayload, hp] at h
    exact .inl (by simpa using h.symm)
  | _ => exact .inl (by simpa [rejectWord] using h.symm)

/-- What the command agent's step can do. -/
theorem commandStep_effect {s t : State} (he : commandEnabled s = true) (h : commandStep s.turnUsed = .next t) :
    StepEffect s t := by
  unfold commandStep at h
  split at h
  · rename_i hp
    have hp' : s.port = .waitHeld := hp
    have hi : s.txPhase = .idle := by simpa [commandEnabled, hp', busy] using he
    cases h
    exact .released hp' hi
  · rename_i hp
    split at h
    · cases h
      exact .passed
    · rename_i w ws hc
      have hc' : s.cmdIn = w :: ws := hc
      have hw : { s.turnUsed with cmdIn := ws } = s.wordTaken := by simp [State.wordTaken, State.turnUsed, hc']
      rw [hw] at h
      unfold runDecoded at h
      split at h
      · exact .command hc' hp ‹_› (exec_effect h)
      · obtain rfl | ⟨count, h0, rfl⟩ := rejectWord_ready (s := s.wordTaken) hp h
        · exact .illegal hc' hp
        · exact .illegalHeader hc' hp h0
  · rename_i rx hp
    split at h
    · cases h
      exact .passed
    · rename_i w ws hc
      have hc' : s.cmdIn = w :: ws := hc
      have hw : { s.turnUsed with cmdIn := ws } = s.wordTaken := by simp [State.wordTaken, State.turnUsed, hc']
      rw [hw] at h
      have hp' : s.wordTaken.port = .frame rx := hp
      obtain hd | hd := decodePayload_cases w
      · rw [hd] at h
        exact .payload hc' hp hd (exec_effect h)
      · rw [hd] at h
        simp only [runDecoded, rejectWord, takePayload, hp'] at h
        split at h
        · obtain rfl : t = { s.wordTaken with port := .ready }.raised .invalidCommand := by
            simpa [finishFrame] using h.symm
          exact .illegalFrame hc' hp ‹_›
        · cases h
          rw [Bool.and_false]
          exact .illegalPayload hc' hp (by omega)

/-- What the serializer's step can do. -/
theorem serializerStep_effect {s t : State} (h : serializerStep s.turnUsed = .next t) : StepEffect s t := by
  unfold serializerStep at h
  split at h
  · cases h
    exact .passed
  · rename_i hd
    unfold dataStep at h
    split at h
    · cases h
      exact .data hd ‹_›
    · cases h
  · rename_i hg
    cases h
    exact .gap hg

/-- What one turn can do, its entry of the schedule used up. -/
theorem runTurn_effect {u : Turn} {s t : State} (hr : u = .reset → ∃ ts, s.sched = .reset :: ts)
    (h : runTurn u s.turnUsed = .next t) : StepEffect s t := by
  cases u with
  | command =>
    simp only [runTurn] at h
    split at h
    · exact commandStep_effect ‹_› h
    · cases h
      exact .passed
  | serializer =>
    simp only [runTurn] at h
    split at h
    · exact serializerStep_effect h
    · cases h
      exact .passed
  | reset =>
    obtain ⟨ts, hs⟩ := hr rfl
    cases h
    exact .reset hs

/-- A step is the turn the schedule names, or past its end the turn of the agent that may step. -/
theorem step_eq_runTurn (s : State) :
    step s = runTurn (s.sched.headD (if busy s then .serializer else .command)) s.turnUsed := by
  unfold step scheduledStep
  split
  · rename_i h
    have : s.turnUsed = s := by rw [State.turnUsed, h, List.tail_nil, ← h]
    rw [this, h]
    rfl
  · rename_i h
    rw [State.turnUsed, h]
    rfl

/-- Every next state of a step is one of the cases of `StepEffect`. -/
theorem step_effect {s t : State} (h : step s = .next t) : StepEffect s t := by
  rw [step_eq_runTurn] at h
  refine runTurn_effect (fun hu => ?_) h
  cases hs : s.sched with
  | nil =>
    rw [hs, List.headD_nil] at hu
    split at hu <;> cases hu
  | cons u ts =>
    rw [hs, List.headD_cons] at hu
    exact ⟨ts, by rw [hu]⟩

/-- A run of one step more is the step and then the run. -/
theorem run_next {s t : State} (k : Nat) (h : step s = .next t) : core.run (k + 1) s = core.run k t := by
  have general : ∀ (M : Host.Core) (s t : M.State), M.step s = .next t → M.run (k + 1) s = M.run k t := by
    intro M s t h
    simp only [Host.Core.run, h]
  exact general core s t h

end Sys2Proof.Machine
end

