-- ==== Sys2Proof/Tests/Slice0.lean ====
section
/-!
SUPPORT. Tests: the words of the spec's encodings, one-step vectors of `95_test_vectors.md`, the check of `WellFormed`, and a
witness for every statement with hypotheses. Expected values are copied from the spec (the comment names the place).
-/

namespace Sys2Proof.Tests

open Sys2Proof.Machine

/-! ### States -/

/-- The state of 95 section 2.3: a chain of three, `[(1,0,0), (0,0,0), (0,2,0)]`. -/
def chain : State :=
  { State.reset with
    life := .ready, numElements := 3, width := 3, topo := .linear, chip := .ws2812
    buf := [⟨1, 0, 0⟩, ⟨0, 0, 0⟩, ⟨0, 2, 0⟩] }

/-- The state of 95 section 2.4: a serpentine matrix of six, width 3. -/
def matrix : State :=
  { State.reset with
    life := .ready, numElements := 6, width := 3, topo := .serpentine, chip := .ws2812b
    buf := [⟨1, 0, 0⟩, ⟨2, 0, 0⟩, ⟨3, 0, 0⟩, ⟨4, 0, 0⟩, ⟨5, 0, 0⟩, ⟨6, 0, 0⟩] }

/-- One LED of `(10,20,30)`, idle (R151's example). -/
def single : State :=
  { State.reset with
    life := .ready, numElements := 1, width := 1, topo := .linear, chip := .ws2812b, buf := [⟨10, 20, 30⟩] }

/-- The same with its frame on the wire up to symbol `k`. -/
def sendingAt (k : Nat) : State :=
  { single with
    txBytes := [20, 10, 30], txPhase := .data, txPos := k, wire := (frameSymbols [20, 10, 30]).take k }

/-- The same with the reset gap to come. -/
def inGap : State :=
  { single with
    txBytes := [20, 10, 30], txPhase := .gap, txPos := 24, wire := (frameSymbols [20, 10, 30]).take 24 }

/-- A `WAIT` held while the last data symbol and the gap are to come. -/
def heldWait : State := { sendingAt 23 with port := .waitHeld }

/-- After `CLEANUP`. -/
def released : State := { single with life := .released, lastErr := .busy }

/-- A `SETFRAME` of six whose last word is still to come. -/
def lastWordDue : State :=
  { matrix with port := .frame ⟨1, [⟨1, 0, 0⟩, ⟨2, 0, 0⟩, ⟨3, 0, 0⟩, ⟨4, 0, 0⟩, ⟨5, 0, 0⟩], true⟩ }

/-- The word next on the command port, and the command agent's turn. -/
def given (s : State) (ws : List CmdWord) : State := { s with cmdIn := ws, sched := ws.map fun _ => .command }

/-- What one step answers, leaves in the buffer, and records. -/
def answerTo (s : State) (w : CmdWord) : Option (List RspWord × List Color × ErrCode) :=
  match step (given s [w]) with
  | .next t => some (t.rspOut, t.buf, t.lastErr)
  | _ => none

/-- The registers `CONFIG` writes, after one step. -/
def configuredBy (w : CmdWord) : Option (List RspWord × Life × Half × Half × Topo × Chip × List Color) :=
  match step (given State.reset [w]) with
  | .next t => some (t.rspOut, t.life, t.numElements, t.width, t.topo, t.chip, t.buf)
  | _ => none

/-- What a step does to the transfer. -/
def transferAfter (s : State) : Option (Phase × Nat × List Byte × List Symbol) :=
  match step s with
  | .next t => some (t.txPhase, t.txPos, t.txBytes, t.wire)
  | _ => none

/-- What an instruction answers and leaves in the buffer, the error register and the port. -/
def effectOf (i : Instr) (s : State) : Option (List RspWord × List Color × ErrCode × Port) :=
  match exec i s with
  | .next t => some (t.rspOut, t.buf, t.lastErr, t.port)
  | _ => none

/-! ### WellFormed -/

/-- R81: `LINEAR` has no width, so a term that gives it one stands for no line and no word. -/
theorem test_linear_with_width_is_ill_formed : ¬ (Instr.config 5 7 .linear .ws2811).WellFormed := by decide

theorem test_linear_without_width_is_well_formed : (Instr.config 5 0 .linear .ws2811).WellFormed := by decide

/-! ### Words of every row, from R72, R75, R76 and 95 sections 2.3 to 2.5 -/

theorem test_word_config : decodeCommand 0x0100060003000202 = .ok (.config 6 3 .serpentine .ws2812b) := by rfl
theorem test_word_config_linear : decodeCommand 0x0100050007000000 = .ok (.config 5 0 .linear .ws2811) := by rfl
theorem test_word_cleanup : decodeCommand 0x0200000000000000 = .ok .cleanup := by rfl
theorem test_word_setled : decodeCommand 0x1000010000010203 = .ok (.setled 1 ⟨1, 2, 3⟩) := by rfl
theorem test_word_getled : decodeCommand 0x1100020000000000 = .ok (.getled 2) := by rfl
theorem test_word_setxy : decodeCommand 0x1200020001FF0000 = .ok (.setxy 2 1 ⟨255, 0, 0⟩) := by rfl
theorem test_word_getxy : decodeCommand 0x1300020001000000 = .ok (.getxy 2 1) := by rfl
theorem test_word_setframe : decodeCommand 0x1400060000000000 = .ok (.setframe 6) := by rfl
theorem test_word_payload : decodePayload 0x0000000000060000 = .ok (.payload ⟨6, 0, 0⟩) := by rfl
theorem test_word_getframe : decodeCommand 0x1500000000000000 = .ok .getframe := by rfl
theorem test_word_clear : decodeCommand 0x2000000000000000 = .ok .clear := by rfl
theorem test_word_setall : decodeCommand 0x21000000000A141E = .ok (.setall ⟨10, 20, 30⟩) := by rfl
theorem test_word_active : decodeCommand 0x2200000000808080 = .ok (.active ⟨128, 128, 128⟩) := by rfl
theorem test_word_cycle : decodeCommand 0x2300000000000000 = .ok .cycle := by rfl
theorem test_word_firstvis : decodeCommand 0x2400000000000000 = .ok .firstvis := by rfl
theorem test_word_start : decodeCommand 0x3000000000000000 = .ok .start := by rfl
theorem test_word_wait : decodeCommand 0x3100000000000000 = .ok .wait := by rfl

/-- 95 section 2.5 and R79: what is wrong with each illegal word. -/
theorem test_word_opcode_zero : decodeCommand 0 = .error (.unknownOpcode 0) := by rfl
theorem test_word_reserved_field : decodeCommand 0x2100010000000000 = .error (.reservedField .setall) := by rfl
theorem test_word_topology_three : decodeCommand 0x0100060003000003 = .error .illegalTopology := by rfl
theorem test_word_mode_bits : decodeCommand 0x0100060003000006 = .error .reservedModeBits := by rfl
theorem test_word_payload_reserved :
    decodePayload 0x0000000001030000 = .error (.payloadReserved ⟨3, 0, 0⟩) := by rfl

/-- The table's numbering: the same words as natural numbers. -/
theorem test_table_word : decodeTableWord 64 0x1200020001FF0000 = some (.setxy 2 1 ⟨255, 0, 0⟩) := by rfl
theorem test_table_payload : decodeTableWord 64 0x060000 = some (.payload ⟨6, 0, 0⟩) := by rfl

/-- Each word is the encoder's, too. -/
theorem test_encode :
    [Instr.config 6 3 .serpentine .ws2812b, .setled 1 ⟨1, 2, 3⟩, .setxy 2 1 ⟨255, 0, 0⟩, .getxy 2 1, .setframe 6,
      .setall ⟨10, 20, 30⟩, .payload ⟨6, 0, 0⟩].map encode =
    [0x0100060003000202, 0x1000010000010203, 0x1200020001FF0000, 0x1300020001000000, 0x1400060000000000,
      0x21000000000A141E, 0x0000000000060000] := by decide

/-! ### One step, 95 section 2.5 (CONFIG) -/

theorem test_config_serpentine :
    configuredBy 0x0100060003000202 =
      some ([0], .ready, 6, 3, .serpentine, .ws2812b, List.replicate 6 ⟨0, 0, 0⟩) := by rfl

theorem test_config_width_does_not_divide :
    configuredBy 0x01000A0003000101 = some ([0x30000000], .unconfigured, 0, 0, .linear, .ws2811, []) := by rfl

/-! ### One step, 95 section 2.3 -/

theorem test_setled :
    answerTo chain 0x1000010000010203 = some ([0], [⟨1, 0, 0⟩, ⟨1, 2, 3⟩, ⟨0, 2, 0⟩], .ok) := by decide

theorem test_setled_past_the_end :
    answerTo chain 0x1000030000010203 =
      some ([0x10000000], [⟨1, 0, 0⟩, ⟨0, 0, 0⟩, ⟨0, 2, 0⟩], .indexOutOfRange) := by decide

theorem test_getled :
    answerTo chain 0x1100020000000000 = some ([0x01000200], [⟨1, 0, 0⟩, ⟨0, 0, 0⟩, ⟨0, 2, 0⟩], .ok) := by decide

theorem test_getled_past_the_end :
    answerTo chain 0x1100030000000000 =
      some ([0x10000000], [⟨1, 0, 0⟩, ⟨0, 0, 0⟩, ⟨0, 2, 0⟩], .indexOutOfRange) := by decide

theorem test_clear :
    answerTo chain 0x2000000000000000 = some ([0], [⟨0, 0, 0⟩, ⟨0, 0, 0⟩, ⟨0, 0, 0⟩], .ok) := by decide

theorem test_setall :
    answerTo chain 0x21000000000A141E = some ([0], [⟨10, 20, 30⟩, ⟨10, 20, 30⟩, ⟨10, 20, 30⟩], .ok) := by decide

theorem test_setall_reserved_field :
    answerTo chain 0x2100010000000000 =
      some ([0x70000000], [⟨1, 0, 0⟩, ⟨0, 0, 0⟩, ⟨0, 2, 0⟩], .invalidCommand) := by decide

theorem test_active :
    answerTo chain 0x2200000000808080 = some ([0], [⟨128, 128, 128⟩, ⟨0, 0, 0⟩, ⟨128, 128, 128⟩], .ok) := by decide

theorem test_cycle :
    answerTo chain 0x2300000000000000 = some ([0], [⟨0, 1, 0⟩, ⟨0, 0, 0⟩, ⟨0, 1, 1⟩], .ok) := by decide

theorem test_cycle_overflow :
    answerTo { chain with buf := [⟨1, 0, 0⟩, ⟨255, 255, 0⟩, ⟨0, 0, 0⟩] } 0x2300000000000000 =
      some ([0x60000000], [⟨1, 0, 0⟩, ⟨255, 255, 0⟩, ⟨0, 0, 0⟩], .channelOverflow) := by decide

theorem test_firstvis :
    answerTo { chain with buf := [⟨0, 0, 0⟩, ⟨0, 2, 0⟩, ⟨7, 0, 0⟩] } 0x2400000000000000 =
      some ([0x01000200], [⟨0, 0, 0⟩, ⟨0, 2, 0⟩, ⟨7, 0, 0⟩], .ok) := by decide

theorem test_firstvis_all_black :
    answerTo { chain with buf := [⟨0, 0, 0⟩, ⟨0, 0, 0⟩, ⟨0, 0, 0⟩] } 0x2400000000000000 =
      some ([0], [⟨0, 0, 0⟩, ⟨0, 0, 0⟩, ⟨0, 0, 0⟩], .ok) := by decide

/-! ### One step, 95 section 2.4 -/

theorem test_setxy :
    answerTo matrix 0x12000100010000FF =
      some ([0], [⟨1, 0, 0⟩, ⟨2, 0, 0⟩, ⟨3, 0, 0⟩, ⟨4, 0, 0⟩, ⟨0, 0, 255⟩, ⟨6, 0, 0⟩], .ok) := by decide

theorem test_setxy_past_the_end :
    answerTo matrix 0x1200000002FF0000 = some ([0x10000000], matrix.buf, .indexOutOfRange) := by decide

theorem test_getxy : answerTo matrix 0x1300000001000000 = some ([0x01060000], matrix.buf, .ok) := by decide

theorem test_getxy_outside_the_grid :
    answerTo matrix 0x1300030001000000 = some ([0x01030000], matrix.buf, .ok) := by decide

theorem test_getframe :
    answerTo matrix 0x1500000000000000 =
      some ([0x00000006, 0x01010000, 0x01020000, 0x01030000, 0x01060000, 0x01050000, 0x01040000], matrix.buf, .ok) := by
  decide

theorem test_setframe_of_none :
    answerTo matrix 0x1400000000000000 = some ([0x20000000], matrix.buf, .frameLengthMismatch) := by decide

theorem test_setframe_opens :
    effectOf (.setframe 3) matrix = some ([], matrix.buf, .ok, .frame ⟨3, [], true⟩) := by decide

theorem test_payload_completes :
    effectOf (.payload ⟨6, 0, 0⟩) lastWordDue =
      some ([0], [⟨1, 0, 0⟩, ⟨2, 0, 0⟩, ⟨3, 0, 0⟩, ⟨6, 0, 0⟩, ⟨5, 0, 0⟩, ⟨4, 0, 0⟩], .ok, .ready) := by decide

/-- A payload word with a reserved bit, as the last of the frame (95 section 2.4, R79). -/
theorem test_payload_reserved_bit : answerTo lastWordDue 0x0000000001030000 = some ([0x70000000], matrix.buf, .invalidCommand) := by
  decide

/-! ### One step, R151, R152, R154 and 95 section 3 -/

theorem test_start :
    transferAfter (given single [0x3000000000000000]) = some (.data, 0, [20, 10, 30], []) := by decide

theorem test_start_while_busy :
    answerTo (sendingAt 5) 0x3000000000000000 = some ([0x50000000], single.buf, .busy) := by decide

theorem test_wait_idle : effectOf .wait single = some ([0], single.buf, .ok, .ready) := by decide

theorem test_wait_held : effectOf .wait (sendingAt 5) = some ([], single.buf, .ok, .waitHeld) := by decide

theorem test_cleanup_while_busy : effectOf .cleanup inGap = some ([0x50000000], single.buf, .busy, .ready) := by decide

theorem test_cleanup_twice : effectOf .cleanup released = some ([0x40000000], single.buf, .invalidState, .ready) := by decide

/-! ### The serializer: R164's example -/

theorem test_wire_of_the_example :
    frameSymbols (encodeFrame [⟨10, 20, 30⟩]) =
      [.t0, .t0, .t0, .t1, .t0, .t1, .t0, .t0, .t0, .t0, .t0, .t0, .t1, .t0, .t1, .t0, .t0, .t0, .t0, .t1, .t1, .t1, .t1,
        .t0, .res] := by decide

theorem test_data_step : transferAfter (sendingAt 3) =
    some (.data, 4, [20, 10, 30], [.t0, .t0, .t0, .t1]) := by decide

theorem test_last_data_step : (transferAfter (sendingAt 23)).map (fun r => (r.1, r.2.1)) = some (.gap, 24) := by decide

theorem test_gap_step : (transferAfter inGap).map (fun r => (r.1, r.2.2.2.getLast?)) = some (.idle, some .res) := by decide

/-- R64 on R164's example: the first LED shows `(10,20,30)`, the second keeps its colour. -/
theorem test_chain :
    ((⟨[⟨0, 0, 0⟩, ⟨7, 7, 7⟩], []⟩ : Chain).after
      [.t0, .t0, .t0, .t1, .t0, .t1, .t0, .t0, .t0, .t0, .t0, .t0, .t1, .t0, .t1, .t0, .t0, .t0, .t0, .t1, .t1, .t1, .t1,
        .t0, .res]).shown = [⟨10, 20, 30⟩, ⟨7, 7, 7⟩] := by decide

/-! ### Functions: 95 sections 2.1 and 2.2 -/

theorem test_cycled :
    [cycled ⟨255, 0, 0⟩, cycled ⟨1, 254, 0⟩, cycled ⟨0, 1, 254⟩, cycled ⟨5, 5, 5⟩, cycled ⟨1, 0, 254⟩, cycled ⟨254, 0, 1⟩,
      cycled ⟨0, 0, 0⟩] =
    [some ⟨254, 1, 0⟩, some ⟨0, 255, 0⟩, some ⟨0, 0, 255⟩, some ⟨5, 4, 6⟩, some ⟨2, 0, 253⟩, some ⟨255, 0, 0⟩,
      some ⟨0, 0, 0⟩] := by decide

theorem test_cycled_overflows :
    [cycled ⟨255, 255, 0⟩, cycled ⟨1, 255, 0⟩, cycled ⟨0, 1, 255⟩, cycled ⟨255, 255, 255⟩, cycled ⟨255, 0, 1⟩,
      cycled ⟨255, 0, 255⟩] = [none, none, none, none, none, none] := by decide

theorem test_index_corners :
    [index .rowMajor 4 5 0, index .serpentine 4 4 1, index .serpentine 4 5 1, index .serpentine 4 7 1, index .serpentine 4 8 1,
      index .serpentine 4 0 3, index .serpentine 1 65535 1, index .rowMajor 65535 65535 65535, index .linear 5 0 1] =
    [5, 3, 2, 0, -1, 15, -65534, 4294901760, 5] := by decide

theorem test_phys : (List.range 12).map (phys .serpentine 4) = [0, 1, 2, 3, 7, 6, 5, 4, 8, 9, 10, 11] := by decide

theorem test_encode_frame : encodeFrame [⟨10, 20, 30⟩, ⟨255, 0, 1⟩] = [20, 10, 30, 0, 255, 1] := by decide

/-- R222 with the rounding of R222: 10 MHz, 800 kHz, duties 0.33 and 0.66, 55 microseconds (hand calculation). -/
theorem test_ticks : ticksOf 10000000 ⟨33 / 100, 66 / 100, 800000, 55⟩ = ⟨13, 4, 9, 550⟩ := by decide +kernel

/-! ### The assembler: R81, R82 -/

theorem test_assemble_config :
    assembleLine "CONFIG   6, SERPENTINE(3), WS2812B  ; six".toList = some [.config 6 3 .serpentine .ws2812b] := by decide

theorem test_assemble_setframe :
    assembleLine "SETFRAME #010000, (0,0x2,0)".toList = none ∧
    assembleLine "SETFRAME #010000, (0,2,0), white".toList =
      some [.setframe 3, .payload ⟨1, 0, 0⟩, .payload ⟨0, 2, 0⟩, .payload ⟨128, 128, 128⟩] := by decide

/-! ### Witnesses: for each statement with hypotheses, states and operands that meet them

`witness_X` is for `Obligations.X`; one named after a clause takes that clause's boundary values. Nothing here is a claim. -/

theorem witness_ResetComesInAnyState :
    { sendingAt 5 with sched := [.reset] }.sched = .reset :: [] ∧
    (State.reset.life = .unconfigured ∧ State.reset.txPhase = .idle ∧ State.reset.port = .ready ∧ State.reset.cmdIn = [] ∧
      State.reset.sched.head? ≠ some .reset) ∧
    (released.sched.head? ≠ some .reset ∧ (∃ t, step released = .next t) ∧ released.life = .released ∧
      released.lastErr ≠ .ok) :=
  ⟨rfl, by decide, by decide, ⟨_, rfl⟩, rfl, by decide⟩

/-- The invariant holds in states of every kind: idle, sending, in the gap, with a `WAIT` held, receiving a frame, released. -/
theorem witness_inv :
    chain.Inv ∧ matrix.Inv ∧ (sendingAt 0).Inv ∧ (sendingAt 23).Inv ∧ inGap.Inv ∧ heldWait.Inv ∧ lastWordDue.Inv ∧
      released.Inv :=
  ⟨by decide, by decide, by decide, by decide, by decide, by decide, by decide, by decide⟩

/-- `EveryStepKeepsInvariant`, `InvariantStatesNeverStop`. -/
theorem witness_EveryStepKeepsInvariant : (sendingAt 23).Inv ∧ ∃ t, step (sendingAt 23) = .next t := ⟨by decide, _, rfl⟩

theorem witness_EveryStepKeepsWireFraming :
    (inGap.Inv ∧ WireInv inGap ∧ ∃ t, step inGap = .next t) ∧
    ((sendingAt 23).Inv ∧ WireInv (sendingAt 23) ∧ ∃ t, step (sendingAt 23) = .next t) :=
  ⟨⟨by decide, by decide, _, rfl⟩, by decide, by decide, _, rfl⟩

/-- The boundary operands are well-formed: `DecodeEncodeRoundTrip`, `PlacedWordRunsItsInstruction`. -/
theorem witness_DecodeEncodeRoundTrip :
    (Instr.config 65535 65535 .serpentine .ws2813).WellFormed ∧ (Instr.config 0 0 .linear .ws2811).WellFormed ∧
    (Instr.setxy 65535 65535 ⟨255, 255, 255⟩).WellFormed ∧ (Instr.payload ⟨255, 255, 255⟩).WellFormed := by decide

theorem witness_DecodedInstructionGivesItsWord :
    decodeCommand 0x01FFFFFFFF000302 = .ok (.config 65535 65535 .serpentine .ws2813) ∧
    decodeCommand 0x0100050007000000 = .ok (.config 5 0 .linear .ws2811) ∧
    decodePayload 0x0000000000FFFFFF = .ok (.payload ⟨255, 255, 255⟩) := ⟨rfl, rfl, rfl⟩

theorem witness_DecodeFollowsOpcodeMap :
    ∃ r ∈ opcodeMap, r.opcode = .config ∧ r.Fits 0x0100060003000202 ∧ (0x0100060003000202 : CmdWord).extractLsb' 0 2 ≠ 3 := by
  decide

theorem witness_StepRunsDecodedWord :
    ((given chain [0x2000000000000000]).sched.head? = some .command ∧ chain.port = .ready ∧
      decodeCommand 0x2000000000000000 = .ok .clear) ∧
    (chain.sched = [] ∧ busy chain = false) ∧
    ((given lastWordDue [0x060000]).sched.head? = some .command ∧
      lastWordDue.port = .frame ⟨1, [⟨1, 0, 0⟩, ⟨2, 0, 0⟩, ⟨3, 0, 0⟩, ⟨4, 0, 0⟩, ⟨5, 0, 0⟩], true⟩ ∧
      decodePayload 0x060000 = .ok (.payload ⟨6, 0, 0⟩)) :=
  ⟨⟨rfl, rfl, rfl⟩, ⟨rfl, rfl⟩, rfl, rfl, rfl⟩

theorem witness_ScheduleChoosesTheAgent : (sendingAt 3).sched = [] ∧ busy (sendingAt 3) = true := by decide

/-- The first and the last opcode outside the map, and `CONFIG` with `topo = 3`. -/
theorem witness_IllegalWordAnswersInvalidCommand :
    (∀ r ∈ opcodeMap, r.Fits 0 → r.opcode = .config ∧ (0 : CmdWord).extractLsb' 0 2 = 3) ∧
    (∀ r ∈ opcodeMap, r.Fits 0xFF00000000000000 → r.opcode = .config ∧ (0xFF00000000000000 : CmdWord).extractLsb' 0 2 = 3) ∧
    (∀ r ∈ opcodeMap, r.Fits 0x0100060003000003 → r.opcode = .config ∧ (0x0100060003000003 : CmdWord).extractLsb' 0 2 = 3) ∧
    opField 0 ≠ 0x14 ∧ opField 0xFF00000000000000 ≠ 0x14 ∧ opField 0x0100060003000003 ≠ 0x14 ∧
    (given chain [0]).sched.head? = some .command ∧ chain.port = .ready := by decide

/-- A whole `SETFRAME`: no payload at all, and three words on the chain of three. -/
theorem witness_SetframeTakesItsPayloadAndWrites :
    (opField 0x1400000000000000 = 0x14 ∧ ([] : List CmdWord).length = (aField 0x1400000000000000).toNat ∧
      chain.port = .ready ∧ (given chain [0x1400000000000000]).sched = List.replicate 1 .command ∧
      (given chain [0x1400000000000000]).Inv) ∧
    (opField 0x1400030000000000 = 0x14 ∧ [(0x010000 : CmdWord), 0x020000, 0x030000].length = (aField 0x1400030000000000).toNat ∧
      (given chain [0x1400030000000000, 0x010000, 0x020000, 0x030000]).sched = List.replicate 4 .command ∧
      (given chain [0x1400030000000000, 0x010000, 0x020000, 0x030000]).Inv ∧
      3 = chain.numElements.toNat ∧ chain.life = .ready) :=
  ⟨⟨rfl, rfl, rfl, rfl, by decide⟩, rfl, rfl, rfl, by decide, rfl, rfl⟩

/-- The clauses that refuse it: a reserved bit in the header, one in the only payload word, and each wrong lifecycle state. -/
theorem witness_SetframeTakesItsPayloadAndWrites_illegal :
    (opField 0x1400000000000001 = 0x14 ∧ cField 0x1400000000000001 ≠ 0 ∧
      ([] : List CmdWord).length = (aField 0x1400000000000001).toNat ∧ (given chain [0x1400000000000001]).Inv) ∧
    (opField 0x1400010000000000 = 0x14 ∧ bField 0x1400010000000000 = 0 ∧ cField 0x1400010000000000 = 0 ∧
      (∃ p ∈ [(0x0000000001030000 : CmdWord)], p.extractLsb' 24 40 ≠ 0) ∧
      [(0x0000000001030000 : CmdWord)].length = (aField 0x1400010000000000).toNat ∧
      (given chain [0x1400010000000000, 0x0000000001030000]).sched = List.replicate 2 .command ∧
      (given chain [0x1400010000000000, 0x0000000001030000]).Inv) :=
  ⟨⟨rfl, by decide, rfl, by decide⟩, rfl, rfl, rfl, ⟨_, List.mem_singleton_self _, by simp⟩, rfl, rfl, by decide⟩

theorem witness_SetframeTakesItsPayloadAndWrites_state :
    (¬ ∃ p ∈ [(0x0000000000FFFFFF : CmdWord)], p.extractLsb' 24 40 ≠ 0) ∧
    ((given State.reset [0x1400010000000000, 0x0000000000FFFFFF]).Inv ∧ State.reset.life ≠ .ready ∧
      State.reset.port = .ready) ∧
    ((given released [0x1400010000000000, 0x0000000000FFFFFF]).Inv ∧ released.life ≠ .ready ∧ released.port = .ready) :=
  ⟨by simp, by decide, by decide⟩

/-- `CycledLaws`: a defined application, a sum of 255, the least and the greatest pure channel. -/
theorem witness_CycledLaws :
    cycled ⟨5, 5, 5⟩ = some ⟨5, 4, 6⟩ ∧ channelSum ⟨85, 85, 85⟩ ≤ 255 ∧
    (⟨1, 0, 0⟩ : Color) = ⟨BitVec.ofNat 8 1, 0, 0⟩ ∧ (⟨0, 0, 255⟩ : Color) = ⟨0, 0, BitVec.ofNat 8 255⟩ := by decide

theorem witness_IndexRelations :
    (2 < (3 : Half).toNat ∧ index .serpentine 3 2 1 = index .serpentine 3 2 1) ∧ (1 : Half).toNat = 1 := by decide

/-- One LED in a matrix of one; the largest straight chain; a serpentine with rows of both kinds. -/
theorem witness_IndexIsABijection :
    (1 ≤ (1 : Half).toNat ∧ (1 : Half).toNat % (1 : Half).toNat = 0) ∧
    (1 ≤ (65535 : Half).toNat ∧ (65535 : Half).toNat % (65535 : Half).toNat = 0) ∧
    (1 ≤ (3 : Half).toNat ∧ (6 : Half).toNat % (3 : Half).toNat = 0 ∧ 2 < (3 : Half).toNat ∧
      1 < (6 : Half).toNat / (3 : Half).toNat ∧ 5 < (6 : Half).toNat ∧ 5 / (3 : Half).toNat % 2 = 1) := by decide

theorem witness_IndexStaysWithinThirtyThreeBits : 1 ≤ (1 : Half).toNat ∧ 1 ≤ (65535 : Half).toNat := by decide

/-- `CONFIG`'s three outcomes at the edges: `n = 0`, `n = NMAX` with `w = n`, and a device that is there already. -/
theorem witness_ConfigConstructs :
    (State.reset.life = .unconfigured ∧ (0 : Half) = 0) ∧
    ((65535 : Half) ≠ 0 ∧ (65535 : Half).toNat ≤ State.reset.nmax ∧ (65535 : Half).toNat % (65535 : Half).toNat = 0) ∧
    chain.life ≠ .unconfigured := by decide

theorem witness_CleanupReleases :
    State.reset.life ≠ .ready ∧ (inGap.life = .ready ∧ inGap.txPhase ≠ .idle) ∧ (single.life = .ready ∧ single.txPhase = .idle) ∧
    released.life = .released := by decide

/-- `SetledWritesOneElement`, `GetledReadsOneElement`, `ReadAfterWriteGivesTheColor`: the last legal index and the first illegal. -/
theorem witness_SetledWritesOneElement :
    chain.life = .ready ∧ (2 : Half).toNat < chain.numElements.toNat ∧ chain.numElements.toNat ≤ (3 : Half).toNat ∧
    chain.buf.length = chain.numElements.toNat := by decide

/-- The commands over the whole buffer: `ClearAndSetallFillTheBuffer`, `ActiveRecolorsVisibleElements`. -/
theorem witness_ready : chain.life = .ready := by decide

theorem witness_CycleStepsEveryElementOrNone :
    (chain.life = .ready ∧ ∀ c ∈ chain.buf, cycled c ≠ none) ∧
    ∃ c ∈ { chain with buf := [⟨1, 0, 0⟩, ⟨255, 255, 0⟩, ⟨0, 0, 0⟩] }.buf, cycled c = none := by decide

theorem witness_FirstvisFindsTheFirstVisible :
    (∀ c ∈ [(⟨0, 0, 0⟩ : Color), ⟨0, 0, 0⟩], c = black) ∧
    ([(⟨0, 0, 0⟩ : Color), ⟨0, 2, 0⟩][1]? = some ⟨0, 2, 0⟩ ∧ (⟨0, 2, 0⟩ : Color) ≠ black ∧
      ∀ k : Nat, k < 1 → [(⟨0, 0, 0⟩ : Color), ⟨0, 2, 0⟩][k]? = some black) := by decide

/-- `SetxyWritesTheTranslatedElement`, `GetxyReadsTheTranslatedElement`: the index below 0, at 0, at `N - 1` and at `N`. -/
theorem witness_SetxyWritesTheTranslatedElement :
    matrix.life = .ready ∧ index matrix.topo matrix.width 6 1 = -1 ∧ index matrix.topo matrix.width 5 1 = 0 ∧
    index matrix.topo matrix.width 0 1 = 5 ∧ index matrix.topo matrix.width 0 2 = 6 ∧
    matrix.numElements.toNat = 6 ∧ matrix.buf.length = 6 := by decide

theorem witness_SetframeWordsAreReceived :
    (1 : Half) ≠ 0 ∧ State.reset.life ≠ .ready ∧ (chain.life = .ready ∧ chain.numElements ≠ 0) ∧
    ({ matrix with port := .frame ⟨2, [], true⟩ }.port = .frame ⟨2, [], true⟩ ∧ 1 < 2) ∧ matrix.port = .ready ∧
    heldWait.port = .waitHeld := by decide

theorem witness_SetframeWritesTheLogicalFrame :
    (lastWordDue.port = .frame ⟨1, [⟨1, 0, 0⟩, ⟨2, 0, 0⟩, ⟨3, 0, 0⟩, ⟨4, 0, 0⟩, ⟨5, 0, 0⟩], true⟩ ∧ lastWordDue.life = .ready ∧
      lastWordDue.Inv ∧ 5 + 1 = lastWordDue.numElements.toNat) ∧
    ({ matrix with port := .frame ⟨1, [], true⟩ }.port = .frame ⟨1, [], true⟩ ∧ 0 + 1 ≠ matrix.numElements.toNat) ∧
    { matrix with port := .frame ⟨1, [], false⟩ }.port = .frame ⟨1, [], false⟩ := by decide

/-- `GetframeReadsTheLogicalFrame`, `FrameRoundTrip`. -/
theorem witness_FrameRoundTrip :
    matrix.life = .ready ∧ matrix.Inv ∧ matrix.buf.length = matrix.numElements.toNat ∧
    (2 : Half).toNat < matrix.width.toNat ∧ (1 : Half).toNat < matrix.numElements.toNat / matrix.width.toNat ∧
    matrix.buf[(1 : Half).toNat * matrix.width.toNat + (2 : Half).toNat]? = some ⟨6, 0, 0⟩ ∧
    ∃ g : List Color, exec .getframe matrix = .next (matrix.answer (countWord matrix.numElements :: g.map colorWord)) :=
  ⟨rfl, by decide, by decide, by decide, by decide, by decide,
    [⟨1, 0, 0⟩, ⟨2, 0, 0⟩, ⟨3, 0, 0⟩, ⟨6, 0, 0⟩, ⟨5, 0, 0⟩, ⟨4, 0, 0⟩], rfl⟩

theorem witness_EncodeIsGreenRedBlue : [(⟨10, 20, 30⟩ : Color)][0]? = some ⟨10, 20, 30⟩ := by decide

theorem witness_FrameSymbolsFollowTheBits :
    [(20 : Byte), 10, 30][0 / 8]? = some 20 ∧ [(20 : Byte), 10, 30][23 / 8]? = some 30 := by decide

/-- `StartCapturesTheFrame`, and the first clauses of `WaitAnswersOrHolds`: see `witness_CleanupReleases` for the same states. -/
theorem witness_WaitAnswersOrHolds :
    (heldWait.port = .waitHeld ∧ { heldWait with sched := [.command] }.sched = .command :: [] ∧ heldWait.txPhase ≠ .idle) ∧
    ({ single with port := .waitHeld, sched := [.command] }.port = .waitHeld ∧ single.txPhase = .idle) := by decide

theorem witness_SerializerStepsEmitTheirSymbol :
    ((sendingAt 0).txPhase = .data ∧ (sendingAt 0).txBytes[0 / 8]? = some 20) ∧
    ((sendingAt 23).txPhase = .data ∧ (sendingAt 23).txBytes[23 / 8]? = some 30) ∧ inGap.txPhase = .gap := by decide

theorem witness_SerializerTouchesNothingElse :
    ((sendingAt 3).txPhase ≠ .idle ∧ ∃ t, serializerStep (sendingAt 3) = .next t) ∧
    (single.txPhase = .idle ∧ { single with sched := [.serializer] }.sched = .serializer :: []) :=
  ⟨⟨by decide, _, rfl⟩, rfl, rfl⟩

/-- The clause under the invariant: the first and the last data step, and the gap step. -/
theorem witness_SerializerTouchesNothingElse_answers :
    ((sendingAt 0).Inv ∧ (sendingAt 0).txPhase ≠ .idle) ∧ ((sendingAt 23).Inv ∧ (sendingAt 23).txPhase ≠ .idle) ∧
    (inGap.Inv ∧ inGap.txPhase ≠ .idle) := ⟨by decide, by decide, by decide⟩

/-- The clause on what the serializer reads: the second state has another buffer and another error. -/
theorem witness_SerializerTouchesNothingElse_reads :
    { sendingAt 3 with buf := [⟨9, 9, 9⟩], lastErr := .busy }.txBytes = (sendingAt 3).txBytes ∧
    { sendingAt 3 with buf := [⟨9, 9, 9⟩], lastErr := .busy }.txPhase = (sendingAt 3).txPhase ∧
    { sendingAt 3 with buf := [⟨9, 9, 9⟩], lastErr := .busy }.txPos = (sendingAt 3).txPos ∧
    { sendingAt 3 with buf := [⟨9, 9, 9⟩], lastErr := .busy }.numElements = (sendingAt 3).numElements ∧
    ∃ t, serializerStep (sendingAt 3) = .next t := ⟨rfl, rfl, rfl, rfl, _, rfl⟩

theorem witness_PhaseTransitions :
    (single.life = .ready ∧ single.txPhase = .idle ∧ ∃ t, exec .start single = .next t) ∧
    ((sendingAt 22).txPos + 1 < 24 * (sendingAt 22).numElements.toNat ∧ ∃ t, serializerStep (sendingAt 22) = .next t) ∧
    ((sendingAt 23).txPos + 1 = 24 * (sendingAt 23).numElements.toNat ∧ ∃ t, serializerStep (sendingAt 23) = .next t) ∧
    (inGap.txPhase = .gap ∧ ∃ t, serializerStep inGap = .next t) ∧
    (inGap.Inv ∧ inGap.sched.head? ≠ some .reset ∧ ∃ t, step inGap = .next t) :=
  ⟨⟨rfl, rfl, _, rfl⟩, ⟨by decide, _, rfl⟩, ⟨by decide, _, rfl⟩, ⟨rfl, _, rfl⟩, by decide, by decide, _, rfl⟩

/-- `OnlyStartAddsToTheWire`, `TracesOnlyGrow`: a step of each agent. -/
theorem witness_OnlyStartAddsToTheWire :
    ((sendingAt 23).Inv ∧ (sendingAt 23).sched.head? ≠ some .reset ∧ ∃ t, step (sendingAt 23) = .next t) ∧
    ((given single [0x3000000000000000]).Inv ∧ (given single [0x3000000000000000]).sched.head? ≠ some .reset ∧
      ∃ t, step (given single [0x3000000000000000]) = .next t) :=
  ⟨⟨by decide, by decide, _, rfl⟩, by decide, by decide, _, rfl⟩

/-- A schedule with both agents and pending commands. -/
theorem witness_FrameLaw :
    { single with sched := [.command, .serializer, .command], cmdIn := [0x2000000000000000] }.Inv ∧ single.life = .ready ∧
    single.txPhase = .idle ∧ Turn.reset ∉ [Turn.command, .serializer, .command] := by decide

theorem witness_HeldWaitAnswersInTheEnd : heldWait.Inv ∧ heldWait.port = .waitHeld ∧ Turn.reset ∉ heldWait.sched := by decide

theorem witness_ChainShowsTheBuffer : (⟨[⟨0, 0, 0⟩, ⟨7, 7, 7⟩], []⟩ : Chain).bits = [] := by decide

/-- `ErrorsArePrecise`, `EveryCommandAnswersInForm`, `OnlyNamedCommandsWriteEachRegister`: a failing command and its one word. -/
theorem witness_ErrorsArePrecise :
    ∃ t, exec (.getled 3) chain = .next t ∧ t.rspOut = chain.rspOut ++ [0x10000000] ∧
      (0x10000000 : RspWord).extractLsb' 28 4 ≠ 0 := ⟨_, rfl, by decide, by decide⟩

theorem witness_LifecycleTransitions :
    (State.reset.life = .unconfigured ∧ ∃ t, exec (.config 65535 65535 .rowMajor .ws2811) State.reset = .next t) ∧
    (State.reset.life = .unconfigured ∧ ∃ t, exec .clear State.reset = .next t) ∧
    (inGap.life = .ready ∧ ∃ t, exec .cleanup inGap = .next t) ∧
    (chain.life = .ready ∧ ∃ t, exec (.config 1 0 .linear .ws2811) chain = .next t) ∧
    (released.life = .released ∧ ∃ t, exec .start released = .next t) :=
  ⟨⟨rfl, _, rfl⟩, ⟨rfl, _, rfl⟩, ⟨rfl, _, rfl⟩, ⟨rfl, _, rfl⟩, rfl, _, rfl⟩

theorem witness_LifecycleIsCheckedFirst :
    chain.life ≠ .unconfigured ∧ State.reset.life ≠ .ready ∧
    (released.life ≠ .ready ∧ { released with port := .frame ⟨1, [], true⟩ }.port = .frame ⟨1, [], true⟩) := by decide

/-- `TransferLastsItsTicks`: the tick counts of `test_ticks`, and the least legal ones. -/
theorem witness_TransferLastsItsTicks : (⟨13, 4, 9, 550⟩ : Ticks).Legal ∧ (⟨3, 1, 2, 0⟩ : Ticks).Legal := by decide

/-- `SymbolsTakeTheirTime`, `TickCountsAreRounded`. -/
theorem witness_TickCountsAreRounded : (⟨33 / 100, 66 / 100, 800000, 55⟩ : Profile).Legal ∧ (0 : Rat) < 10000000 := by
  unfold Profile.Legal
  norm_num

/-! `AssembledLinesStandForTheirRows`: each written form at the ends of its range, a number out of range, a line without a comment,
and a line that stands for something. -/

theorem witness_number_decimal : NumberText "0".toList (0 : Half).toNat ∧ NumberText "65535".toList (65535 : Half).toNat :=
  ⟨.decimal [0] (by decide), .decimal [6, 5, 5, 3, 5] (by decide)⟩

theorem witness_number_hex : NumberText "0x0".toList (0 : Half).toNat ∧ NumberText "0xFFff".toList (65535 : Half).toNat :=
  ⟨.hex [(true, 0)] (by decide), .hex [(true, 15), (true, 15), (false, 15), (false, 15)] (by decide)⟩

theorem witness_number_out_of_range : NumberText "65536".toList 65536 ∧ NumberText "0x10000".toList 65536 ∧ 65535 < 65536 :=
  ⟨.decimal [6, 5, 5, 3, 6] (by decide), .hex [(true, 1), (true, 0), (true, 0), (true, 0), (true, 0)] (by decide), by decide⟩

theorem witness_color : ColorText "#FFfF00".toList ⟨255, 255, 0⟩ ∧ ColorText "(0,7,255)".toList ⟨0, 7, 255⟩ ∧
    ColorText "black".toList ⟨0, 0, 0⟩ ∧ ColorText "white".toList ⟨128, 128, 128⟩ :=
  ⟨.packed [(true, 15), (true, 15), (false, 15), (true, 15), (true, 0), (true, 0)] (by decide),
    .channels 0 7 255 [0] [7] [2, 5, 5] (by decide) (by decide) (by decide) (by decide) (by decide) (by decide), .black, .white⟩

theorem witness_colors : ColorsText "white, black".toList [⟨128, 128, 128⟩, ⟨0, 0, 0⟩] ∧
    [(⟨128, 128, 128⟩ : Color), ⟨0, 0, 0⟩].length ≤ 65535 := ⟨.more .white (.one .black), by decide⟩

theorem witness_AssembledLinesStandForTheirRows :
    ';' ∉ "GETLED 2 ".toList ∧ assembleLine "SETALL white".toList = some [.setall ⟨128, 128, 128⟩] := by decide

end Sys2Proof.Tests
end

section
/-!
PROOF. Which registers an instruction writes (the frame of every instruction), read off the cases of `Effect`, and what of it
holds of a whole step (R12 to R23).
-/

namespace Sys2Proof.Machine

variable {i : Instr} {s t : State}

/-! ### The frame of an instruction, register by register -/

/-- No instruction writes the wire, the host's words, the schedule or `NMAX`. -/
theorem Effect.keeps_wire_and_environment (h : Effect i s t) :
    t.wire = s.wire ∧ t.cmdIn = s.cmdIn ∧ t.sched = s.sched ∧ t.nmax = s.nmax := by
  cases h <;> exact ⟨rfl, rfl, rfl, rfl⟩

/-- No instruction clears the error record (R21). -/
theorem Effect.lastErr_keeps_or_fails (h : Effect i s t) : t.lastErr = s.lastErr ∨ t.lastErr ≠ .ok := by
  cases h with
  | raised he => exact .inr he
  | frameRaised _ _ he => exact .inr he
  | _ => exact .inl rfl

/-- Only `CONFIG` writes the configuration (R12 to R15). -/
theorem Effect.keeps_configuration (h : Effect i s t) (hc : ∀ n w topo chip, i ≠ .config n w topo chip) :
    t.numElements = s.numElements ∧ t.width = s.width ∧ t.topo = s.topo ∧ t.chip = s.chip := by
  cases h with
  | config => exact absurd rfl (hc _ _ _ _)
  | _ => exact ⟨rfl, rfl, rfl, rfl⟩

/-- Only `CONFIG` and `CLEANUP` write the lifecycle (R11). -/
theorem Effect.keeps_life (h : Effect i s t) (hc : ∀ n w topo chip, i ≠ .config n w topo chip) (hl : i ≠ .cleanup) :
    t.life = s.life := by
  cases h with
  | config => exact absurd rfl (hc _ _ _ _)
  | cleanup => exact absurd rfl hl
  | _ => rfl

/-- Only `START` writes the transfer's registers (R17, R18, R163). -/
theorem Effect.keeps_transfer (h : Effect i s t) (hs : i ≠ .start) :
    t.txBytes = s.txBytes ∧ t.txPhase = s.txPhase ∧ t.txPos = s.txPos := by
  cases h with
  | start => exact absurd rfl hs
  | _ => exact ⟨rfl, rfl, rfl⟩

/-- The buffer is written by `CONFIG`, the commands that write elements, and the last payload word of a `SETFRAME` only (R16). -/
theorem Effect.keeps_buf (h : Effect i s t) (hc : ∀ n w topo chip, i ≠ .config n w topo chip) (hw : ¬ WritesBuffer i)
    (hp : ∀ c, i ≠ .payload c) : t.buf = s.buf := by
  cases h with
  | config => exact absurd rfl (hc _ _ _ _)
  | wrote hi => exact absurd hi hw
  | frameWritten => exact absurd rfl (hp _)
  | _ => rfl

/-- Only `WAIT`, `SETFRAME` and its payload words write the port's state (R76, R152). -/
theorem Effect.keeps_port (h : Effect i s t) (hw : i ≠ .wait) (hf : ∀ count, i ≠ .setframe count)
    (hp : ∀ c, i ≠ .payload c) : t.port = s.port := by
  cases h with
  | waitHeld => exact absurd rfl hw
  | frameOpened => exact absurd rfl (hf _)
  | frameRaised => exact absurd rfl (hp _)
  | frameWritten => exact absurd rfl (hp _)
  | frameExtended => exact absurd rfl (hp _)
  | _ => rfl

/-- Settles O53, register by register from the cases of `Effect`. -/
theorem onlyNamedCommandsWriteEachRegister : Obligations.OnlyNamedCommandsWriteEachRegister := by
  intro i s t h
  have he := exec_effect h
  obtain ⟨hwire, hcmd, hsched, hnmax⟩ := he.keeps_wire_and_environment
  refine ⟨hwire, hcmd, hsched, hnmax, he.lastErr_keeps_or_fails, fun hc => ?_, he.keeps_transfer, fun hi => ?_, he.keeps_port⟩
  · obtain ⟨hn, hw, ht, hk⟩ := he.keeps_configuration hc
    exact ⟨hn, hw, ht, hk, he.keeps_life hc⟩
  · have keeps : (∀ n w topo chip, i ≠ .config n w topo chip) ∧ ¬ WritesBuffer i ∧ ∀ c, i ≠ .payload c := by
      rcases hi with rfl | rfl | rfl | rfl | rfl | ⟨k, rfl⟩ | ⟨x, y, rfl⟩ | ⟨count, rfl⟩ <;> simp
    obtain ⟨hc, hw, hp⟩ := keeps
    exact he.keeps_buf hc hw hp

/-! ### The two traces over a step -/

/-- An instruction answers at the end of the response list (R23). -/
theorem Effect.rspOut_grows (h : Effect i s t) : ∃ ws, t.rspOut = s.rspOut ++ ws := by
  cases h with
  | frameExtended => exact ⟨[], (List.append_nil _).symm⟩
  | frameOpened => exact ⟨[], (List.append_nil _).symm⟩
  | waitHeld => exact ⟨[], (List.append_nil _).symm⟩
  | _ => exact ⟨_, rfl⟩

/-- Without a reset a step puts at most one symbol on the wire (R22). -/
theorem StepEffect.wire_grows (hr : s.sched.head? ≠ some .reset) (h : StepEffect s t) :
    ∃ ys, ys.length ≤ 1 ∧ t.wire = s.wire ++ ys := by
  have keeps {u : State} (hu : u.wire = s.wire) : ∃ ys, ys.length ≤ 1 ∧ u.wire = s.wire ++ ys :=
    ⟨[], Nat.zero_le 1, by rw [hu, List.append_nil]⟩
  cases h with
  | reset hs => simp [hs] at hr
  | data => exact ⟨[_], le_rfl, rfl⟩
  | gap => exact ⟨[.res], le_rfl, rfl⟩
  | command _ _ _ h => exact keeps h.keeps_wire_and_environment.1
  | payload _ _ _ h => exact keeps h.keeps_wire_and_environment.1
  | _ => exact keeps rfl

/-- Without a reset the response list grows at its end (R23). -/
theorem StepEffect.rspOut_grows (hr : s.sched.head? ≠ some .reset) (h : StepEffect s t) :
    ∃ ws, t.rspOut = s.rspOut ++ ws := by
  cases h with
  | reset hs => simp [hs] at hr
  | command _ _ _ h => exact h.rspOut_grows
  | payload _ _ _ h => exact h.rspOut_grows
  | released => exact ⟨[okWord], rfl⟩
  | illegal => exact ⟨[errWord .invalidCommand], rfl⟩
  | illegalFrame => exact ⟨[errWord .invalidCommand], rfl⟩
  | _ => exact ⟨[], (List.append_nil _).symm⟩

/-- Settles O47, from the cases of `StepEffect`. -/
theorem tracesOnlyGrow : Obligations.TracesOnlyGrow := fun _ _ hr h =>
  ⟨(step_effect h).wire_grows hr, (step_effect h).rspOut_grows hr⟩

end Sys2Proof.Machine
end

section
/-!
PROOF. The invariant of R25: which updates of the state keep it, that every instruction and every step keeps it, and that the
reset state has it.
-/

namespace Sys2Proof.Machine

variable {i : Instr} {s t : State}

/-! ### Updates that keep the invariant -/

/-! The invariant reads neither the responses, the error record, the host's words nor the schedule. -/

theorem State.Inv.answer (h : s.Inv) (ws : List RspWord) : (s.answer ws).Inv := h

theorem State.Inv.raised (h : s.Inv) (e : ErrCode) : (s.raised e).Inv := h

theorem State.Inv.turnUsed (h : s.Inv) : s.turnUsed.Inv := h

theorem State.Inv.wordTaken (h : s.Inv) : s.wordTaken.Inv := h

theorem State.Inv.configInv (h : s.Inv) (hr : s.life = .ready) : ConfigInv s := by
  obtain ⟨-, hready, -⟩ := h
  exact (hready hr).1

theorem State.Inv.transferInv (h : s.Inv) (hr : s.life = .ready) : TransferInv s := by
  obtain ⟨-, hready, -⟩ := h
  exact (hready hr).2

theorem State.Inv.buf_length (h : s.Inv) (hr : s.life = .ready) : s.buf.length = s.numElements.toNat := by
  obtain ⟨-, -, -, -, -, -, hbuf⟩ := h.configInv hr
  exact hbuf

/-- Nothing is asked of a transfer that is not in flight. -/
theorem transferInv_of_idle (h : s.txPhase = .idle) : TransferInv s := by simp [TransferInv, h]

/-- A transfer is in flight only while `Ready`. -/
theorem State.Inv.ready_of_busy (h : s.Inv) (hb : s.txPhase ≠ .idle) : s.life = .ready := by
  obtain ⟨-, -, hidle, -⟩ := h
  by_contra hr
  exact hb (hidle hr)

/-- A reset keeps the invariant whatever the state of the block: `NMAX` is the environment's. -/
theorem State.hardReset_inv (h : ParamsLegal s) : s.hardReset.Inv := ⟨h, by simp, by simp, rfl⟩

/-- The buffer may be replaced by one of `N` elements. -/
theorem State.Inv.withBuf (h : s.Inv) {b : List Color} (hb : s.life = .ready → b.length = s.numElements.toNat) :
    State.Inv { s with buf := b } := by
  obtain ⟨hparams, hready, hidle, hport⟩ := h
  refine ⟨hparams, fun hr => ?_, hidle, hport⟩
  obtain ⟨⟨hn1, hn, hw1, hw, hdvd, hlin, -⟩, htransfer⟩ := hready hr
  exact ⟨⟨hn1, hn, hw1, hw, hdvd, hlin, hb hr⟩, htransfer⟩

/-- The port may take any legal state. -/
theorem State.Inv.withPort (h : s.Inv) {p : Port} (hp : portLegal { s with port := p } = true) :
    State.Inv { s with port := p } := by
  obtain ⟨hparams, hready, hidle, -⟩ := h
  exact ⟨hparams, hready, hidle, hp⟩

/-- Nothing but a held `WAIT` binds the port to the lifecycle. -/
theorem portLegal_withLife (hp : s.port ≠ .waitHeld) (h : portLegal s = true) (l : Life) :
    portLegal { s with life := l } = true := by
  unfold portLegal at h ⊢
  cases hport : s.port with
  | ready => rfl
  | frame rx => simpa [hport] using h
  | waitHeld => exact absurd hport hp

/-! ### `CONFIG` -/

/-- What `CONFIG` accepts (R150). -/
theorem badTopology_eq_false {nmax : Nat} {n w : Half} {topo : Topo} :
    badTopology nmax n w topo = false ↔
      n ≠ 0 ∧ n.toNat ≤ nmax ∧ (topo ≠ .linear → w ≠ 0 ∧ n.toNat % w.toNat = 0) := by
  simp [badTopology, and_assoc]

/-- The effective width of an accepted `CONFIG` divides the LED count (R25, R131). -/
theorem effectiveWidth_divides {nmax : Nat} {n w : Half} {topo : Topo} (h : badTopology nmax n w topo = false) :
    1 ≤ (effectiveWidth n w topo).toNat ∧ (effectiveWidth n w topo).toNat ≤ n.toNat ∧
      n.toNat % (effectiveWidth n w topo).toNat = 0 ∧ (topo = .linear → effectiveWidth n w topo = n) := by
  obtain ⟨hn, -, hw⟩ := badTopology_eq_false.mp h
  unfold effectiveWidth
  split
  · exact ⟨BitVec.toNat_pos_of_ne_zero hn, le_rfl, Nat.mod_self _, fun _ => rfl⟩
  · rename_i ht
    obtain ⟨hw0, hdvd⟩ := hw ht
    have hle : w.toNat ≤ n.toNat := Nat.le_of_dvd (BitVec.toNat_pos_of_ne_zero hn) (Nat.dvd_of_mod_eq_zero hdvd)
    exact ⟨BitVec.toNat_pos_of_ne_zero hw0, hle, hdvd, fun h => absurd h ht⟩

/-- The state `CONFIG` leaves. -/
theorem State.Inv.configured (h : s.Inv) {n w : Half} {topo : Topo} (chip : Chip) (hl : s.life = .unconfigured)
    (hb : badTopology s.nmax n w topo = false) :
    State.Inv { s with
      numElements := n, topo := topo, chip := chip, width := effectiveWidth n w topo,
      buf := List.replicate n.toNat black, life := .ready } := by
  obtain ⟨hparams, -, hidle, hport⟩ := h
  obtain ⟨hn, hmax, -⟩ := badTopology_eq_false.mp hb
  obtain ⟨hw1, hwn, hdvd, hlin⟩ := effectiveWidth_divides hb
  have hphase : s.txPhase = .idle := hidle (by simp [hl])
  have hheld : s.port ≠ .waitHeld := fun hp => by simp [portLegal, hp, hl] at hport
  exact ⟨hparams, fun _ => ⟨⟨BitVec.toNat_pos_of_ne_zero hn, hmax, hw1, hwn, hdvd, hlin, List.length_replicate⟩,
    transferInv_of_idle hphase⟩, by simp, portLegal_withLife hheld hport .ready⟩

/-! ### Every instruction keeps the invariant -/

/-- The state `START` leaves. -/
theorem State.Inv.started (h : s.Inv) (hr : s.life = .ready) :
    State.Inv { s with txBytes := encodeFrame s.buf, txPos := 0, txPhase := .data } := by
  have hconfig := h.configInv hr
  have hbuf := h.buf_length hr
  obtain ⟨hn1, -⟩ := h.configInv hr
  obtain ⟨hparams, -, -, hport⟩ := h
  refine ⟨hparams, fun _ => ⟨hconfig, fun _ => ⟨?_, ?_⟩, by simp⟩, fun hn => absurd hr hn, hport⟩
  · rw [← hbuf]
    exact encodeFrame_length s.buf
  · show 0 < 24 * s.numElements.toNat
    omega

/-- The state `CLEANUP` leaves. -/
theorem State.Inv.released (h : s.Inv) (hi : s.txPhase = .idle) (hp : s.port ≠ .waitHeld) :
    State.Inv { s with life := .released } := by
  obtain ⟨hparams, -, -, hport⟩ := h
  exact ⟨hparams, by simp, fun _ => hi, portLegal_withLife hp hport .released⟩

/-- Every instruction keeps the invariant where no `WAIT` is held; while one is, the port takes no word. -/
theorem Effect.keeps_inv (h : Effect i s t) (hp : s.port ≠ .waitHeld) (hs : s.Inv) : t.Inv := by
  cases h with
  | raised => exact hs.raised _
  | frameRaised => exact (hs.withPort rfl).raised _
  | frameWritten _ _ hr hb =>
    exact ((hs.withPort (p := .ready) rfl).withBuf fun _ => hb.trans (hs.buf_length hr)).answer _
  | frameExtended _ hl => exact hs.withPort (decide_eq_true (Nat.sub_pos_of_lt hl))
  | frameOpened hc => exact hs.withPort (decide_eq_true (BitVec.toNat_pos_of_ne_zero hc))
  | frameEmpty => exact hs.answer _
  | config hl hb => exact (hs.configured _ hl hb).answer _
  | cleanup _ hi => exact (hs.released hi hp).answer _
  | wrote _ hr hb =>
    exact (hs.withBuf fun _ => hb.elim (·.trans (hs.buf_length hr)) id).answer _
  | read => exact hs.answer _
  | readAll => exact hs.answer _
  | start hr => exact (hs.started hr).answer _
  | waitAnswered => exact hs.answer _
  | waitHeld hr => exact hs.withPort (decide_eq_true hr)

/-! ### Every step keeps the invariant -/

/-- The state the data step leaves (R161): the last bit opens the gap. -/
theorem State.Inv.dataStepped (h : s.Inv) (hd : s.txPhase = .data) (wire : List Symbol) :
    State.Inv { s with
      wire := wire, txPos := s.txPos + 1, txPhase := if s.txPos + 1 = frameBits s then .gap else .data } := by
  have hr : s.life = .ready := h.ready_of_busy (by simp [hd])
  obtain ⟨hbytes, hpos⟩ := (h.transferInv hr).1 hd
  have hconfig := h.configInv hr
  obtain ⟨hparams, -, -, hport⟩ := h
  refine ⟨hparams, fun _ => ⟨hconfig, ?_⟩, fun hn => absurd hr hn, hport⟩
  by_cases hlast : s.txPos + 1 = frameBits s
  · exact ⟨by simp [hlast], fun _ => hlast⟩
  · refine ⟨fun _ => ⟨hbytes, ?_⟩, by simp [hlast]⟩
    show s.txPos + 1 < frameBits s
    omega

/-- The state the gap step leaves (R162). -/
theorem State.Inv.gapStepped (h : s.Inv) (wire : List Symbol) : State.Inv { s with wire := wire, txPhase := .idle } := by
  obtain ⟨hparams, hready, -, hport⟩ := h
  exact ⟨hparams, fun hr => ⟨(hready hr).1, transferInv_of_idle rfl⟩, fun _ => rfl, hport⟩

/-- A step keeps the invariant: the word it takes runs in a port that holds no `WAIT`, so `Effect.keeps_inv` applies. -/
theorem StepEffect.keeps_inv (h : StepEffect s t) (hs : s.Inv) : t.Inv := by
  cases h with
  | passed => exact hs.turnUsed
  | reset =>
    obtain ⟨hparams, -⟩ := hs
    exact State.hardReset_inv hparams
  | released => exact (hs.turnUsed.withPort rfl).answer _
  | command _ hp _ h => exact h.keeps_inv (hp ▸ by simp) hs.wordTaken
  | payload _ hp _ h => exact h.keeps_inv (hp ▸ by simp) hs.wordTaken
  | illegal => exact hs.wordTaken.raised _
  | illegalHeader _ _ h0 => exact hs.wordTaken.withPort (decide_eq_true (BitVec.toNat_pos_of_ne_zero h0))
  | illegalPayload _ _ hl => exact hs.wordTaken.withPort (decide_eq_true (Nat.sub_pos_of_lt hl))
  | illegalFrame => exact (hs.wordTaken.withPort rfl).raised _
  | data hd => exact hs.turnUsed.dataStepped hd _
  | gap => exact hs.turnUsed.gapStepped _

/-- Settles O4, from the cases of `StepEffect`. -/
theorem everyStepKeepsInvariant : Obligations.EveryStepKeepsInvariant := fun _ _ hs h => (step_effect h).keeps_inv hs

/-! ### The reset state -/

/-- Settles O1: every register and pin evaluates to its row of R26. -/
theorem resetStateIsTheTable : Obligations.ResetStateIsTheTable := by
  unfold Obligations.ResetStateIsTheTable
  decide

theorem reset_inv : State.reset.Inv := State.hardReset_inv (s := State.reset) (by decide)

/-- Settles O3: the reset state is what a reset makes of itself, and its wire is empty. -/
theorem invariantsHoldAtReset : Obligations.InvariantsHoldAtReset := ⟨reset_inv, rfl⟩

end Sys2Proof.Machine
end

section
/-!
PROOF. Under the invariant of R25 neither fault of the model can arise (log entry 8): one lemma for each shared operation and
agent, then every instruction and every step.
-/

namespace Sys2Proof.Machine

variable {s : State}

/-- The machine goes on: neither a fault nor a refusal. -/
def Answers (r : Result) : Prop := ∃ t, r = .next t

theorem answers_next (t : State) : Answers (.next t) := ⟨t, rfl⟩

theorem answers_raise (e : ErrCode) (s : State) : Answers (raise e s) := answers_next _

theorem answers_whenReady {k : Result} (h : s.life = .ready → Answers k) : Answers (whenReady s k) := by
  unfold whenReady
  split
  · exact h ‹_›
  · exact answers_raise _ s

theorem answers_whenIdle {k : Result} (h : Answers k) : Answers (whenIdle s k) := by
  unfold whenIdle
  split
  · exact answers_raise _ s
  · exact h

/-- An access to an element is asked of the indices of the buffer only. -/
theorem answers_whenInRange {k : Result} (p : Int) (h : ∀ j : Nat, p = j → j < s.numElements.toNat → Answers k) :
    Answers (whenInRange s p k) := by
  unfold whenInRange
  split
  · obtain ⟨h0, hn⟩ := inRange_iff.mp ‹_›
    exact h p.toNat (by omega) (by omega)
  · exact answers_raise _ s

/-- An index that passes the range check has an element to write. -/
theorem State.Inv.writeAt_answers (h : s.Inv) (hr : s.life = .ready) (p : Int) (c : Color) : Answers (writeAt s p c) := by
  refine answers_whenInRange p fun j hp hj => ?_
  rw [hp, writeElem_of_lt (by rw [h.buf_length hr]; exact hj)]
  exact answers_next _

/-- An index that passes the range check has an element to read. -/
theorem State.Inv.readAt_answers (h : s.Inv) (hr : s.life = .ready) (p : Int) : Answers (readAt s p) := by
  refine answers_whenInRange p fun j hp hj => ?_
  rw [hp, readElem_of_nat, List.getElem?_eq_getElem (by rw [h.buf_length hr]; exact hj)]
  exact answers_next _

/-- A frame of `N` colours has an element for each (R137). -/
theorem State.Inv.finishFrame_answers (h : s.Inv) (got : List Color) (legal : Bool) : Answers (finishFrame got legal s) := by
  unfold finishFrame
  split
  · refine answers_whenReady fun hr => ?_
    split
    · obtain ⟨-, -, hw, -, hdvd, -, hbuf⟩ := h.configInv hr
      obtain ⟨b, hb, -⟩ := writeFrame_spec s.topo hw hdvd got 0 s.buf hbuf (by omega)
      rw [hb]
      exact answers_next _
    · exact answers_raise _ s
  · exact answers_raise _ s

theorem State.Inv.beginFrame_answers (h : s.Inv) (count : Half) (legal : Bool) : Answers (beginFrame count legal s) := by
  unfold beginFrame
  split
  · exact h.finishFrame_answers [] legal
  · exact answers_next _

theorem State.Inv.takePayload_answers (h : s.Inv) (c : Color) (legal : Bool) : Answers (takePayload c legal s) := by
  unfold takePayload
  split
  · split
    · exact (h.withPort rfl).finishFrame_answers _ _
    · exact answers_next _
  · exact answers_raise _ s
  · exact answers_raise _ s

/-- `GETFRAME` finds an element for every logical position (R138). -/
theorem State.Inv.getframe_answers (h : s.Inv) : Answers (execGetframe s) := by
  refine answers_whenReady fun hr => ?_
  obtain ⟨-, -, hw, -, hdvd, -, hbuf⟩ := h.configInv hr
  obtain ⟨g, hg, -⟩ := readFrame_spec s.topo hw hdvd hbuf s.numElements.toNat 0 (by omega)
  rw [hg]
  exact answers_next _

theorem config_answers (n w : Half) (topo : Topo) (chip : Chip) (s : State) : Answers (execConfig n w topo chip s) := by
  unfold execConfig
  split
  · exact answers_raise _ s
  · split
    · exact answers_raise _ s
    · exact answers_next _

theorem cycle_answers (s : State) : Answers (execCycle s) := by
  refine answers_whenReady fun _ => ?_
  split
  · exact answers_next _
  · exact answers_raise _ s

theorem wait_answers (s : State) : Answers (execWait s) := by
  refine answers_whenReady fun _ => ?_
  split
  · exact answers_next _
  · exact answers_next _

/-- Under the invariant every instruction answers a next state. -/
theorem State.Inv.exec_answers (h : s.Inv) (i : Instr) : Answers (exec i s) := by
  cases i with
  | config n w topo chip => exact config_answers n w topo chip s
  | cleanup => exact answers_whenReady fun _ => answers_whenIdle (answers_next _)
  | setled k c => exact answers_whenReady fun hr => h.writeAt_answers hr _ c
  | getled k => exact answers_whenReady fun hr => h.readAt_answers hr _
  | setxy x y c => exact answers_whenReady fun hr => h.writeAt_answers hr _ c
  | getxy x y => exact answers_whenReady fun hr => h.readAt_answers hr _
  | setframe count => exact h.beginFrame_answers count true
  | getframe => exact h.getframe_answers
  | clear => exact answers_whenReady fun _ => answers_next _
  | setall c => exact answers_whenReady fun _ => answers_next _
  | active c => exact answers_whenReady fun _ => answers_next _
  | cycle => exact cycle_answers s
  | firstvis => exact answers_whenReady fun _ => answers_next _
  | start => exact answers_whenReady fun _ => answers_whenIdle (answers_next _)
  | wait => exact wait_answers s
  | payload c => exact h.takePayload_answers c true

theorem State.Inv.rejectWord_answers (h : s.Inv) (r : Reject) : Answers (rejectWord r s) := by
  cases r with
  | frameHeader count => exact h.beginFrame_answers count false
  | payloadReserved c => exact h.takePayload_answers c false
  | _ => exact answers_raise _ s

theorem State.Inv.runDecoded_answers (h : s.Inv) (d : Except Reject Instr) : Answers (runDecoded d s) := by
  cases d with
  | ok i => exact h.exec_answers i
  | error r => exact h.rejectWord_answers r

theorem State.Inv.withCmdIn (h : s.Inv) (ws : List CmdWord) : State.Inv { s with cmdIn := ws } := h

theorem State.Inv.commandStep_answers (h : s.Inv) : Answers (commandStep s) := by
  unfold commandStep
  split
  · exact answers_next _
  · split
    · exact answers_next _
    · exact (h.withCmdIn _).runDecoded_answers _
  · split
    · exact answers_next _
    · exact (h.withCmdIn _).runDecoded_answers _

/-- The captured frame has a byte at the cursor while a bit is left to send (R25). -/
theorem State.Inv.dataStep_answers (h : s.Inv) (hd : s.txPhase = .data) : Answers (dataStep s) := by
  obtain ⟨hbytes, hpos⟩ := (h.transferInv (h.ready_of_busy (by simp [hd]))).1 hd
  obtain ⟨b, hb⟩ := frameBit_of_lt (bytes := s.txBytes) (k := s.txPos) (by rw [frameBits] at hpos; omega)
  rw [dataStep, hb]
  exact answers_next _

theorem State.Inv.serializerStep_answers (h : s.Inv) : Answers (serializerStep s) := by
  unfold serializerStep
  split
  · exact answers_next _
  · exact h.dataStep_answers ‹_›
  · exact answers_next _

theorem State.Inv.runTurn_answers (h : s.Inv) (u : Turn) : Answers (runTurn u s) := by
  cases u with
  | command =>
    simp only [runTurn]
    split
    · exact h.commandStep_answers
    · exact answers_next _
  | serializer =>
    simp only [runTurn]
    split
    · exact h.serializerStep_answers
    · exact answers_next _
  | reset => exact answers_next _

/-- Under the invariant every step answers a next state. -/
theorem State.Inv.step_answers (h : s.Inv) : Answers (step s) := by
  rw [step_eq_runTurn]
  exact h.turnUsed.runTurn_answers _

/-- Settles O5, from one lemma per shared operation and agent. -/
theorem invariantStatesNeverStop : Obligations.InvariantStatesNeverStop :=
  ⟨fun _ h => h.step_answers, fun i _ h => h.exec_answers i⟩

end Sys2Proof.Machine
end

section
/-!
PROOF. Read after write: what a read of one element answers in the state a write has left (R44), by physical index (R110, R111)
and through the index function (R135, R136).
-/

namespace Sys2Proof.Machine

variable {s : State} {i j : Nat} {c : Color}

/-- The state a successful write of one element leaves, its `OK` answered (R110, R135). -/
def State.elemWritten (s : State) (i : Nat) (c : Color) : State := { s with buf := s.buf.set i c }.answer [okWord]

theorem writeAt_eq_elemWritten (hi : i < s.numElements.toNat) (hb : s.buf.length = s.numElements.toNat) (c : Color) :
    writeAt s (i : Int) c = .next (s.elemWritten i c) := writeAt_of_lt hi hb c

@[simp] theorem State.elemWritten_life : (s.elemWritten i c).life = s.life := rfl
@[simp] theorem State.elemWritten_numElements : (s.elemWritten i c).numElements = s.numElements := rfl
@[simp] theorem State.elemWritten_topo : (s.elemWritten i c).topo = s.topo := rfl
@[simp] theorem State.elemWritten_width : (s.elemWritten i c).width = s.width := rfl
@[simp] theorem State.elemWritten_buf : (s.elemWritten i c).buf = s.buf.set i c := rfl

/-- After a write, a read answers the colour written where it is of the same element, and otherwise the element as it was. -/
theorem readAt_elemWritten (hj : j < s.numElements.toNat) (hb : s.buf.length = s.numElements.toNat) (i : Nat) (c : Color) :
    ∃ d, s.buf[j]? = some d ∧ readAt (s.elemWritten i c) (j : Int) =
      .next ((s.elemWritten i c).answer [colorWord (if j = i then c else d)]) := by
  have hjb : j < s.buf.length := by omega
  obtain ⟨e, he, hread⟩ := readAt_of_lt (s := s.elemWritten i c) hj (by simpa using hb)
  refine ⟨s.buf[j], List.getElem?_eq_getElem hjb, ?_⟩
  have heq : e = if j = i then c else s.buf[j] := by
    rw [State.elemWritten_buf, List.getElem?_set] at he
    by_cases hij : j = i
    · subst hij
      simpa [hjb] using he.symm
    · simpa [hij, Ne.symm hij, hjb] using he.symm
  rw [hread, heq]

theorem exec_setled_of_ready (hr : s.life = .ready) (i : Half) (c : Color) :
    exec (.setled i c) s = writeAt s (i.toNat : Int) c := whenReady_of_ready hr _

theorem exec_getled_of_ready (hr : s.life = .ready) (i : Half) : exec (.getled i) s = readAt s (i.toNat : Int) :=
  whenReady_of_ready hr _

theorem exec_setxy_of_ready (hr : s.life = .ready) (x y : Half) (c : Color) :
    exec (.setxy x y c) s = writeAt s (index s.topo s.width x.toNat y.toNat) c := whenReady_of_ready hr _

theorem exec_getxy_of_ready (hr : s.life = .ready) (x y : Half) :
    exec (.getxy x y) s = readAt s (index s.topo s.width x.toNat y.toNat) := whenReady_of_ready hr _

/-- Settles O34: a write keeps the lifecycle state and the configuration, so the read reaches the buffer at the index it names,
and `readAt_elemWritten` says what it finds there. -/
theorem readAfterWriteGivesTheColor : Obligations.ReadAfterWriteGivesTheColor := by
  constructor
  · intro i j c s hr hb hi hj
    obtain ⟨d, hd, hread⟩ := readAt_elemWritten hj hb i.toNat c
    refine ⟨s.elemWritten i.toNat c, d, ?_, hd, ?_⟩
    · rw [exec_setled_of_ready hr, writeAt_eq_elemWritten hi hb]
    · rw [exec_getled_of_ready (State.elemWritten_life.trans hr), hread]
      simp only [BitVec.toNat_inj]
  · intro x y c s hr hb h0 hn
    obtain ⟨i, hi⟩ := Int.eq_ofNat_of_zero_le h0
    have hin : i < s.numElements.toNat := by omega
    obtain ⟨d, -, hread⟩ := readAt_elemWritten hin hb i c
    refine ⟨s.elemWritten i c, ?_, ?_⟩
    · rw [exec_setxy_of_ready hr, hi, writeAt_eq_elemWritten hin hb]
    · rw [exec_getxy_of_ready (State.elemWritten_life.trans hr), State.elemWritten_topo, State.elemWritten_width, hi, hread, if_pos rfl]

end Sys2Proof.Machine
end

section
/-!
PROOF. Whose step is taken (R53, R160): the turn of the schedule's first entry, and past the schedule's end the serializer's step
whenever it has one (log entry 2).
-/

namespace Sys2Proof.Machine

variable {s : State}

/-- The command agent's turn: its step where it has one. -/
theorem runTurn_command (s : State) :
    runTurn .command s = if commandEnabled s = true then commandStep s else .next s := rfl

/-- The serializer's turn: its step where it has one. -/
theorem runTurn_serializer (s : State) :
    runTurn .serializer s = if busy s = true then serializerStep s else .next s := rfl

/-- An entry of the schedule is the next turn, and is used up by it. -/
theorem step_of_sched_cons (s : State) (u : Turn) (ts : List Turn) :
    step { s with sched := u :: ts } = runTurn u { s with sched := ts } := rfl

/-- With the schedule at its end the turn is the serializer's while it is busy, and otherwise the command agent's. -/
theorem step_of_sched_nil (h : s.sched = []) :
    step s = runTurn (if busy s = true then .serializer else .command) s := by
  rw [step, scheduledStep, h]

/-- Whether the command agent has a step is no matter of the schedule. -/
@[simp] theorem commandEnabled_withSched (s : State) (ts : List Turn) :
    commandEnabled { s with sched := ts } = commandEnabled s := rfl

/-- Whether the serializer has a step is no matter of the schedule. -/
@[simp] theorem busy_withSched (s : State) (ts : List Turn) : busy { s with sched := ts } = busy s := rfl

/-- Settles O13: the schedule names the turn (`step_of_sched_cons`, `step_of_sched_nil`), and a turn is its agent's step. -/
theorem scheduleChoosesTheAgent : Obligations.ScheduleChoosesTheAgent := by
  refine ⟨fun s ts => ?_, fun s ts => ?_, fun s h => ?_⟩
  · rw [step_of_sched_cons, runTurn_command, commandEnabled_withSched]
  · rw [step_of_sched_cons, runTurn_serializer, busy_withSched]
  · rw [step_of_sched_nil h]
    by_cases hb : busy s = true
    · rw [if_pos hb, if_pos hb, runTurn_serializer, if_pos hb]
    · rw [if_neg hb, if_neg hb, runTurn_command]

end Sys2Proof.Machine
end

section
/-!
PROOF. Encoding and decoding: which fields a word of each opcode must have (R72, R75), and what it then stands for, said once
(`decodeCommand_eq_ok_iff`); the round trips of R71 to R76 and the opcode map of R83 are read off it.
-/

namespace Sys2Proof

open Laws.TableMatch (modeBits_masked)

/-! ### The colour operand -/

/-- A colour is the colour of its packed form (R101, R102). -/
@[simp] theorem unpack_pack (c : Color) : unpack (pack c) = c := by
  obtain ⟨r, g, b⟩ := c
  have outside := @BitVec.getLsbD_of_ge
  rw [unpack, Color.mk.injEq]
  refine ⟨?_, ?_, ?_⟩ <;> apply BitVec.eq_of_getLsbD_eq <;>
    simp only [pack, BitVec.getLsbD_or, BitVec.getLsbD_shiftLeft, BitVec.getLsbD_setWidth, BitVec.getLsbD_extractLsb'] <;>
    grind

/-- Every 24-bit value is the packed form of its colour (R101, R102). -/
@[simp] theorem pack_unpack (v : Packed) : pack (unpack v) = v := by
  apply BitVec.eq_of_getLsbD_eq
  simp only [unpack, pack, BitVec.getLsbD_or, BitVec.getLsbD_shiftLeft, BitVec.getLsbD_setWidth, BitVec.getLsbD_extractLsb']
  grind

/-! ### The mode bits -/

/-- The value 3 alone is the number of no topology (R75). -/
theorem Topo.ofBits_eq_none {b : BitVec 2} : Topo.ofBits b = none ↔ b = 3 := by
  revert b
  decide

/-- A value names at most the topology whose number it is (R75). -/
theorem Topo.code_of_ofBits {b : BitVec 2} {t : Topo} (h : Topo.ofBits b = some t) : b = t.code := by
  revert b
  cases t <;> decide

/-- Every value names the chipset whose number it is (R75). -/
@[simp] theorem Chip.code_ofBits (b : BitVec 2) : (Chip.ofBits b).code = b := by
  revert b
  decide

theorem Topo.code_ne_three (t : Topo) : t.code ≠ 3 := by cases t <;> decide

/-- The reserved mode bits are those under the mask (R75, R83). -/
theorem reservedMode_iff (c : Packed) :
    c &&& 0xFFFCFC = 0 ↔ c.extractLsb' 2 6 = 0 ∧ c.extractLsb' 10 14 = 0 := by
  have mask : ∀ k, (0xFFFCFC : Packed).getLsbD k = (decide (2 ≤ k ∧ k < 8) || decide (10 ≤ k ∧ k < 24)) := by
    intro k
    by_cases h : k < 24
    · revert k
      decide
    · rw [BitVec.getLsbD_of_ge _ _ (by omega)]
      grind
  constructor
  · intro h
    have bits : ∀ k, (c &&& 0xFFFCFC).getLsbD k = false := by
      intro k
      rw [h]
      exact BitVec.getLsbD_zero
    simp only [BitVec.getLsbD_and, mask] at bits
    constructor <;> apply BitVec.eq_of_getLsbD_eq <;> intro k hk
    · have := bits (2 + k)
      grind
    · have := bits (10 + k)
      grind
  · rintro ⟨hlow, hhigh⟩
    have low : ∀ k, (c.extractLsb' 2 6).getLsbD k = false := by simp [hlow]
    have high : ∀ k, (c.extractLsb' 10 14).getLsbD k = false := by simp [hhigh]
    apply BitVec.eq_of_getLsbD_eq
    intro k hk
    have := low (k - 2)
    have := high (k - 10)
    simp only [BitVec.getLsbD_extractLsb', BitVec.getLsbD_and, mask] at *
    grind

/-- Mode bits with the reserved ones zero are those of their topology and chipset (R75). -/
theorem modeBits_of_fields {c : Packed} {t : Topo} (ht : c.extractLsb' 0 2 = t.code) (h : c &&& 0xFFFCFC = 0) :
    modeBits t (Chip.ofBits (c.extractLsb' 8 2)) = c := by
  obtain ⟨hlow, hhigh⟩ := (reservedMode_iff c).mp h
  have low : ∀ k, (c.extractLsb' 2 6).getLsbD k = false := by simp [hlow]
  have high : ∀ k, (c.extractLsb' 10 14).getLsbD k = false := by simp [hhigh]
  rw [modeBits, Chip.code_ofBits, ← ht]
  apply BitVec.eq_of_getLsbD_eq
  intro k hk
  have := low (k - 2)
  have := high (k - 10)
  simp only [BitVec.getLsbD_or, BitVec.getLsbD_shiftLeft, BitVec.getLsbD_setWidth, BitVec.getLsbD_extractLsb'] at *
  grind

/-! ### What a word of each opcode must have, and what it stands for -/

/-- The bits of the fields `A`, `B` and `C` that must be zero (R72, R75). -/
def Opcode.reserved : Opcode → Half × Half × Packed
  | .config => (0, 0, 0xFFFCFC)
  | .setled => (0, 0xFFFF, 0)
  | .getled => (0, 0xFFFF, 0xFFFFFF)
  | .setxy => (0, 0, 0)
  | .getxy => (0, 0, 0xFFFFFF)
  | .setframe => (0, 0xFFFF, 0xFFFFFF)
  | .setall => (0xFFFF, 0xFFFF, 0)
  | .active => (0xFFFF, 0xFFFF, 0)
  | _ => (0xFFFF, 0xFFFF, 0xFFFFFF)

/-- The bits that must be zero are. -/
def Opcode.ReservedZero (o : Opcode) (a b : Half) (c : Packed) : Prop :=
  a &&& o.reserved.1 = 0 ∧ b &&& o.reserved.2.1 = 0 ∧ c &&& o.reserved.2.2 = 0

/-- What the fields of a legal word of the opcode stand for (R72). -/
def Opcode.instr (a b : Half) (c : Packed) : Opcode → Instr
  | .config =>
    let t := (Topo.ofBits (c.extractLsb' 0 2)).getD .linear
    .config a (if t = .linear then 0 else b) t (Chip.ofBits (c.extractLsb' 8 2))
  | .cleanup => .cleanup
  | .setled => .setled a (unpack c)
  | .getled => .getled a
  | .setxy => .setxy a b (unpack c)
  | .getxy => .getxy a b
  | .setframe => .setframe a
  | .getframe => .getframe
  | .clear => .clear
  | .setall => .setall (unpack c)
  | .active => .active (unpack c)
  | .cycle => .cycle
  | .firstvis => .firstvis
  | .start => .start
  | .wait => .wait

/-- A field is under its whole mask zero exactly when it is zero. -/
theorem half_masked_iff (a : Half) : a &&& 0xFFFF = 0 ↔ a = 0 := by
  have : a &&& 0xFFFF = a := BitVec.and_allOnes
  rw [this]

theorem packed_masked_iff (c : Packed) : c &&& 0xFFFFFF = 0 ↔ c = 0 := by
  have : c &&& 0xFFFFFF = c := BitVec.and_allOnes
  rw [this]

/-- A check that passes or rejects answers an instruction exactly when it passes. -/
theorem ite_ok_error_eq_ok_iff {p : Prop} [Decidable p] {r : Reject} {i j : Instr} :
    (if p then Except.ok i else Except.error r) = Except.ok j ↔ p ∧ i = j := by
  by_cases h : p <;> simp [h]

/-- `CONFIG` decodes exactly when its reserved mode bits are zero and its topology is not 3 (R75, R79). -/
theorem decodeConfig_eq_ok_iff (w : CmdWord) (i : Instr) :
    decodeConfig w = .ok i ↔
      cField w &&& 0xFFFCFC = 0 ∧ (cField w).extractLsb' 0 2 ≠ 3 ∧
        Opcode.config.instr (aField w) (bField w) (cField w) = i := by
  rw [decodeConfig, reservedMode_iff, Opcode.instr, Ne, ← Topo.ofBits_eq_none]
  by_cases h : (cField w).extractLsb' 2 6 = 0 ∧ (cField w).extractLsb' 10 14 = 0
  · cases Topo.ofBits ((cField w).extractLsb' 0 2) <;> simp [h]
  · simp only [h, if_false, false_and, ← and_assoc, reduceCtorEq]

/-- A word of an opcode decodes exactly when its reserved bits are zero and its topology is not 3, and then to what its fields
stand for (R72, R75, R79). -/
theorem decodeCommand_eq_ok_iff {w : CmdWord} {o : Opcode} (h : opField w = o.code) (i : Instr) :
    decodeCommand w = .ok i ↔
      o.ReservedZero (aField w) (bField w) (cField w) ∧ (o = .config → (cField w).extractLsb' 0 2 ≠ 3) ∧
        o.instr (aField w) (bField w) (cField w) = i := by
  rw [decodeCommand, h, Opcode.ofByte_code]
  unfold Opcode.ReservedZero
  cases o with
  | config => simp [decodeConfig_eq_ok_iff, Opcode.reserved]
  | _ =>
    simp only [Opcode.reserved, half_masked_iff, packed_masked_iff, ifZero, ite_ok_error_eq_ok_iff]
    simp [Opcode.instr, and_assoc]

/-- The instruction of an opcode's fields has that opcode. -/
@[simp] theorem Opcode.instr_opcode (o : Opcode) (a b : Half) (c : Packed) : (o.instr a b c).opcode = some o := by
  cases o <;> rfl

/-- The instruction a word's fields stand for has no width where it is a `Linear` `CONFIG`. -/
theorem Opcode.instr_wellFormed (o : Opcode) (a b : Half) (c : Packed) : (o.instr a b c).WellFormed := by
  cases o with
  | config => exact fun ht => if_pos ht
  | _ => trivial

/-- A word that decodes has an opcode, and what it decodes to is what its fields stand for. -/
theorem opcode_of_decodeCommand {w : CmdWord} {i : Instr} (h : decodeCommand w = .ok i) :
    ∃ o : Opcode, opField w = o.code ∧ o.ReservedZero (aField w) (bField w) (cField w) ∧
      (o = .config → (cField w).extractLsb' 0 2 ≠ 3) ∧ o.instr (aField w) (bField w) (cField w) = i := by
  cases ho : Opcode.ofByte (opField w) with
  | none => simp [decodeCommand, ho] at h
  | some o =>
    have hop := Opcode.code_of_ofByte ho
    exact ⟨o, hop, (decodeCommand_eq_ok_iff hop i).mp h⟩

/-! ### The round trips -/

/-- The word of a well-formed command: its opcode's number and fields with the reserved bits zero, which stand for it again. -/
theorem encode_fields {i : Instr} (hw : i.WellFormed) {o : Opcode} (ho : i.opcode = some o) :
    ∃ a b c, encode i = mkWord o.code a b c ∧ o.ReservedZero a b c ∧ (o = .config → c.extractLsb' 0 2 ≠ 3) ∧
      o.instr a b c = i := by
  cases i with
  | config n w topo chip =>
    cases ho
    obtain ⟨htopo, -, hchip, -⟩ := modeBits_fields topo chip
    refine ⟨n, w, modeBits topo chip, rfl, ⟨BitVec.and_zero, BitVec.and_zero, modeBits_masked topo chip⟩,
      fun _ => htopo ▸ topo.code_ne_three, ?_⟩
    have hwidth : topo = .linear → 0 = w := fun h => (hw h).symm
    simpa [Opcode.instr, htopo, hchip] using hwidth
  | payload c => cases ho
  | _ =>
    cases ho
    refine ⟨_, _, _, rfl, ?_, by simp, by simp [Opcode.instr]⟩
    simp [Opcode.ReservedZero, Opcode.reserved]

/-- A command that is no payload has an opcode. -/
theorem exists_opcode {i : Instr} (h : ∀ c, i ≠ .payload c) : ∃ o, i.opcode = some o := by
  cases i with
  | payload c => exact absurd rfl (h c)
  | _ => exact ⟨_, rfl⟩

theorem decodeCommand_encode {i : Instr} (hw : i.WellFormed) (hp : ∀ c, i ≠ .payload c) :
    decodeCommand (encode i) = .ok i := by
  obtain ⟨o, ho⟩ := exists_opcode hp
  obtain ⟨a, b, c, he, hf⟩ := encode_fields hw ho
  rw [he, decodeCommand_eq_ok_iff (o := o) (by simp)]
  simpa using hf

theorem payloadBits_iff (w : CmdWord) : w.extractLsb' 24 40 = 0 ↔ opField w = 0 ∧ aField w = 0 ∧ bField w = 0 := by
  rw [← payloadReserved_mkWord (c := cField w), mkWord_fields]

/-- A word decodes as a payload exactly when it has nothing but a colour (R76). -/
theorem decodePayload_eq_ok_iff {w : CmdWord} {i : Instr} :
    decodePayload w = .ok i ↔ (opField w = 0 ∧ aField w = 0 ∧ bField w = 0) ∧ .payload (unpack (cField w)) = i := by
  rw [decodePayload, ite_ok_error_eq_ok_iff, payloadBits_iff]

theorem decodePayload_encode (c : Color) : decodePayload (encode (.payload c)) = .ok (.payload c) := by
  simp [decodePayload_eq_ok_iff, encode]

/-- Settles O7: the word of a command has the fields its row asks for (`encode_fields`), so it decodes to what they stand for. -/
theorem decodeEncodeRoundTrip : Obligations.DecodeEncodeRoundTrip :=
  ⟨fun _ => decodeCommand_encode, decodePayload_encode⟩

/-- The word of what a command's fields stand for has those fields again, but for `B` where the topology is `Linear` (R79). -/
theorem encode_instr {o : Opcode} {a b : Half} {c : Packed} (hz : o.ReservedZero a b c)
    (ht : o = .config → c.extractLsb' 0 2 ≠ 3) :
    ((∀ n v k, o.instr a b c ≠ .config n v .linear k) → encode (o.instr a b c) = mkWord o.code a b c) ∧
    (∀ n v k, o.instr a b c = .config n v .linear k → encode (o.instr a b c) = mkWord o.code a 0 c) := by
  obtain ⟨ha, hb, hc⟩ := hz
  cases o with
  | config =>
    obtain ⟨t, hsome⟩ := Option.ne_none_iff_exists'.mp (mt Topo.ofBits_eq_none.mp (ht rfl))
    have hmode := modeBits_of_fields (Topo.code_of_ofBits hsome) hc
    cases t <;> simp [Opcode.instr, hsome, encode, hmode]
  | _ =>
    simp only [Opcode.reserved, half_masked_iff, packed_masked_iff] at ha hb hc
    simp [Opcode.instr, encode, *]

/-- Settles O8: a word that decodes is made of an opcode and fields (`opcode_of_decodeCommand`), and `encode_instr` puts them
together again. -/
theorem decodedInstructionGivesItsWord : Obligations.DecodedInstructionGivesItsWord := by
  refine ⟨fun w i h => ?_, fun w i h => ?_⟩
  · obtain ⟨o, hop, hz, ht, rfl⟩ := opcode_of_decodeCommand h
    obtain ⟨hexact, hlinear⟩ := encode_instr hz ht
    refine ⟨o.instr_wellFormed _ _ _, fun hn => ?_, fun n v k hi => ?_⟩
    · rw [hexact hn, ← hop, mkWord_fields]
    · rw [hlinear n v k hi, hop]
  · obtain ⟨⟨hop, ha, hb⟩, rfl⟩ := decodePayload_eq_ok_iff.mp h
    have hw := mkWord_fields w
    rw [hop, ha, hb] at hw
    exact ⟨trivial, by rw [encode, pack_unpack, hw]⟩

/-! ### The opcode map -/

/-- The row of an opcode, from its number and its reserved bits. -/
def Opcode.row (o : Opcode) : OpcodeRow :=
  ⟨o, mkWord o.code 0 0 0, mkWord 0xFF o.reserved.1 o.reserved.2.1 o.reserved.2.2⟩

/-- The table of R83 holds exactly the rows of the opcodes. -/
theorem mem_opcodeMap_iff {r : OpcodeRow} : r ∈ opcodeMap ↔ ∃ o : Opcode, o.row = r := by
  have table : opcodeMap = Opcode.all.map Opcode.row := by decide
  have complete : ∀ o : Opcode, o ∈ Opcode.all := by rintro ⟨⟩ <;> decide
  simp [table, complete]

/-- A word fits an opcode's row exactly when it has the opcode's number and its reserved bits are zero. -/
theorem Opcode.row_fits_iff (o : Opcode) (w : CmdWord) :
    o.row.Fits w ↔ opField w = o.code ∧ o.ReservedZero (aField w) (bField w) (cField w) := by
  have hop : opField w &&& 0xFF = opField w := BitVec.and_allOnes
  conv_lhs => rw [OpcodeRow.Fits, ← mkWord_fields w, Opcode.row, mkWord_and, mkWord_inj, hop]
  rfl

theorem Opcode.code_injective {o o' : Opcode} (h : o.code = o'.code) : o = o' := by
  have := congrArg Opcode.ofByte h
  simpa using this

/-- Bits 1:0 of field `C` are bits 1:0 of the word (R71). -/
theorem cField_topoBits (w : CmdWord) : (cField w).extractLsb' 0 2 = w.extractLsb' 0 2 := by
  apply BitVec.eq_of_getLsbD_eq
  intro k hk
  simp [cField, hk]

/-- A word decodes to a command of an opcode exactly when it fits the opcode's row and its topology is not 3. -/
theorem decodes_iff_row_fits (w : CmdWord) (o : Opcode) :
    (∃ i, decodeCommand w = .ok i ∧ i.opcode = some o) ↔
      o.row.Fits w ∧ (o = .config → w.extractLsb' 0 2 ≠ 3) := by
  rw [Opcode.row_fits_iff, ← cField_topoBits]
  constructor
  · rintro ⟨i, h, ho⟩
    obtain ⟨o', hop, hz, ht, rfl⟩ := opcode_of_decodeCommand h
    rw [Opcode.instr_opcode, Option.some.injEq] at ho
    subst ho
    exact ⟨⟨hop, hz⟩, ht⟩
  · rintro ⟨⟨hop, hz⟩, ht⟩
    exact ⟨_, (decodeCommand_eq_ok_iff hop _).mpr ⟨hz, ht, rfl⟩, Opcode.instr_opcode _ _ _ _⟩

/-- Settles O9: the rows are those of the opcodes (`mem_opcodeMap_iff`), `decodes_iff_row_fits` treats each, and two rows of one
word have one number. -/
theorem decodeFollowsOpcodeMap : Obligations.DecodeFollowsOpcodeMap := by
  refine ⟨fun w o => ?_, fun w r hr r' hr' h h' => ?_, fun w => ?_⟩
  · rw [decodes_iff_row_fits]
    constructor
    · rintro ⟨hfit, ht⟩
      exact ⟨o.row, mem_opcodeMap_iff.mpr ⟨o, rfl⟩, rfl, hfit, ht⟩
    · rintro ⟨r, hr, ho, h⟩
      obtain ⟨o', rfl⟩ := mem_opcodeMap_iff.mp hr
      obtain rfl : o' = o := ho
      exact h
  · obtain ⟨o, rfl⟩ := mem_opcodeMap_iff.mp hr
    obtain ⟨o', rfl⟩ := mem_opcodeMap_iff.mp hr'
    rw [Opcode.row_fits_iff] at h h'
    rw [Opcode.code_injective (h.1.symm.trans h'.1)]
  · have hmask : payloadMask = mkWord 0xFF 0xFFFF 0xFFFF 0 := by decide
    have hop : opField w &&& 0xFF = opField w := BitVec.and_allOnes
    have hc : cField w &&& 0 = 0 := BitVec.and_zero
    have hfields : w &&& payloadMask = 0 ↔ opField w = 0 ∧ aField w = 0 ∧ bField w = 0 := by
      conv_lhs => rw [← mkWord_fields w, hmask, mkWord_and, hop, show (0 : CmdWord) = mkWord 0 0 0 0 by decide, mkWord_inj]
      simp only [half_masked_iff, hc, and_true]
    simp only [decodePayload_eq_ok_iff, hfields, exists_and_left, exists_eq', and_true]

/-- Settles O10, by evaluation. -/
theorem sampleWordsDecode : Obligations.SampleWordsDecode := by
  unfold Obligations.SampleWordsDecode
  decide

end Sys2Proof
end

section
/-!
PROOF. The command agent's turn (R80): it runs what the next word decodes to in the position the port is in, and answers for a
word that is no command (R79).
-/

namespace Sys2Proof.Machine

variable {s : State} {w : CmdWord} {ws : List CmdWord}

/-- The next turn is the command agent's: the schedule says so, or is at its end with the serializer at rest (log entry 2). -/
abbrev CommandsTurn (s : State) : Prop := s.sched.head? = some .command ∨ s.sched = [] ∧ busy s = false

theorem step_of_commandsTurn (h : CommandsTurn s) : step s = runTurn .command s.turnUsed := by
  rw [step_eq_runTurn]
  rcases h with h | ⟨h, hb⟩
  · rw [List.headD_eq_head?_getD, h, Option.getD_some]
  · rw [h, hb]
    rfl

/-- The command agent's turn with the port ready: the next word is run as a command. -/
theorem step_takes_command (h : CommandsTurn s) (hc : s.cmdIn = w :: ws) (hp : s.port = .ready) :
    step s = runDecoded (decodeCommand w) { s with cmdIn := ws, sched := s.sched.tail } := by
  simp [step_of_commandsTurn h, runTurn, commandEnabled, commandStep, State.turnUsed, hc, hp]

/-- The command agent's turn within a `SETFRAME`: the next word is taken as a payload word. -/
theorem step_takes_payload {rx : FrameRx} (h : CommandsTurn s) (hc : s.cmdIn = w :: ws) (hp : s.port = .frame rx) :
    step s = runDecoded (decodePayload w) { s with cmdIn := ws, sched := s.sched.tail } := by
  simp [step_of_commandsTurn h, runTurn, commandEnabled, commandStep, State.turnUsed, hc, hp]

/-- Settles O11: the turn takes the word (`step_takes_command`, `step_takes_payload`), and a word that decodes runs. -/
theorem stepRunsDecodedWord : Obligations.StepRunsDecodedWord := by
  refine ⟨fun s w ws i ht hc hp hd => ?_, fun s w ws rx i ht hc hp hd => ?_⟩
  · rw [step_takes_command ht hc hp, hd]
    rfl
  · rw [step_takes_payload ht hc hp, hd]
    rfl

/-! ### A word of the opcode table -/

theorem tableWord_toNat (w : CmdWord) : tableWord 64 w.toNat = w := by
  rw [tableWord, Nat.mod_eq_of_lt w.isLt, BitVec.ofNat_toNat, BitVec.setWidth_eq]

/-- A payload word is no command: its `op` field is 0 (R79). -/
theorem decodeCommand_encode_payload (c : Color) : decodeCommand (encode (.payload c)) = .error (.unknownOpcode 0) := by
  have h0 : Opcode.ofByte 0 = none := rfl
  rw [decodeCommand, encode, opField_mkWord, h0]

/-- The step after a word was placed for a ready port. -/
theorem step_placeWord_ready (s : State) {w : CmdWord} (h : portFor w = .ready) :
    step (placeWord s w) = runDecoded (decodeCommand w) { s with port := .ready } := by
  rw [step_takes_command (s := placeWord s w) (.inl rfl) rfl h, placeWord, h]
  rfl

/-- The step after a word was placed as the payload of a `SETFRAME`. -/
theorem step_placeWord_frame (s : State) {w : CmdWord} {rx : FrameRx} (h : portFor w = .frame rx) :
    step (placeWord s w) = runDecoded (decodePayload w) { s with port := .frame rx } := by
  rw [step_takes_payload (s := placeWord s w) (.inl rfl) rfl h, placeWord, h]
  rfl

/-- Settles O12: `portFor` sets the port for the position the word is decoded in, and the round trip O7 gives the instruction. -/
theorem placedWordRunsItsInstruction : Obligations.PlacedWordRunsItsInstruction := by
  refine ⟨fun i hw => ?_, fun s i hw hp => ?_, fun s c => ?_⟩
  · rw [decodeTableWord, tableWord_toNat]
    by_cases hp : ∀ c, i ≠ .payload c
    · rw [decodeCommand_encode hw hp]
    · push Not at hp
      obtain ⟨c, rfl⟩ := hp
      rw [decodeCommand_encode_payload, decodePayload_encode]
  · have hd := decodeCommand_encode hw hp
    have hport : portFor (encode i) = .ready := by rw [portFor, hd]
    rw [State.withFetchWord, tableWord_toNat, step_placeWord_ready s hport, hd]
    rfl
  · have hport : portFor (encode (.payload c)) = .frame ⟨1, [], true⟩ := by
      rw [portFor, decodeCommand_encode_payload, decodePayload_encode]
    rw [State.withFetchWord, tableWord_toNat, step_placeWord_frame s hport, decodePayload_encode]
    rfl

/-! ### A word that is no command -/

/-- Only a word with `op = 0x14` is rejected as a `SETFRAME` header (R76). -/
theorem opField_of_frameHeader {count : Half} (h : decodeCommand w = .error (.frameHeader count)) : opField w = 0x14 := by
  cases ho : Opcode.ofByte (opField w) with
  | none => simp [decodeCommand, ho] at h
  | some o =>
    have hop := Opcode.code_of_ofByte ho
    cases o with
    | setframe => exact hop
    | _ =>
      simp only [decodeCommand, ho, decodeConfig, ifZero] at h
      repeat' split at h
      all_goals cases h

/-- A rejected word that is no `SETFRAME` header answers `InvalidCommand` where no frame is being received (R79). -/
theorem rejectWord_of_ready {r : Reject} (hp : s.port = .ready) (hr : ∀ count, r ≠ .frameHeader count) :
    rejectWord r s = .next (s.raised .invalidCommand) := by
  cases r with
  | frameHeader count => exact absurd rfl (hr count)
  | payloadReserved c => rw [rejectWord, takePayload, hp, raise_eq]
  | _ => rfl

/-- Settles O14: a word that fits no row does not decode (`decodes_iff_row_fits`), and is rejected as no header. -/
theorem illegalWordAnswersInvalidCommand : Obligations.IllegalWordAnswersInvalidCommand := by
  intro s w ws ht hc hp hrows hop
  rw [step_takes_command ht hc hp]
  cases hd : decodeCommand w with
  | error r =>
    refine rejectWord_of_ready hp fun count hr => ?_
    subst hr
    exact hop (opField_of_frameHeader hd)
  | ok i =>
    obtain ⟨o, ho⟩ := exists_opcode (decodeCommand_ne_payload hd)
    obtain ⟨hfit, htopo⟩ := (decodes_iff_row_fits w o).mp ⟨i, hd, ho⟩
    obtain ⟨hconfig, hthree⟩ := hrows o.row (mem_opcodeMap_iff.mpr ⟨o, rfl⟩) hfit
    exact absurd hthree (htopo hconfig)

end Sys2Proof.Machine
end

section
/-!
PROOF. `SETFRAME` (R76, R137): its words one by one, its completion, and the whole command as a run of one word a step.
-/

namespace Sys2Proof.Machine

variable {s : State} {got : List Color} {rx : FrameRx} {w : CmdWord}

/-! ### The completion -/

theorem finishFrame_of_illegal (got : List Color) (s : State) :
    finishFrame got false s = .next (s.raised .invalidCommand) := rfl

theorem finishFrame_of_not_ready (hr : s.life ≠ .ready) (got : List Color) :
    finishFrame got true s = .next (s.raised .invalidState) := whenReady_of_not_ready hr _

theorem finishFrame_of_mismatch (hr : s.life = .ready) (hn : got.length ≠ s.numElements.toNat) :
    finishFrame got true s = .next (s.raised .frameLengthMismatch) := by
  rw [finishFrame, if_pos rfl, whenReady_of_ready hr, if_neg hn, raise_eq]

/-- A frame of `N` colours is written: `buf[phys(p)]` is its `p`-th colour (R137). -/
theorem State.Inv.finishFrame_writes (h : s.Inv) (hr : s.life = .ready) (hn : got.length = s.numElements.toNat) :
    ∃ b : List Color, finishFrame got true s = .next ({ s with buf := b }.answer [0]) ∧ b.length = s.numElements.toNat ∧
      ∀ p : Nat, p < s.numElements.toNat → readElem b (phys s.topo s.width p) = got[p]? := by
  obtain ⟨-, -, hw, -, hdvd, -, hbuf⟩ := h.configInv hr
  obtain ⟨b, hb, hlen, hread⟩ := writeFrame_spec s.topo hw hdvd got 0 s.buf hbuf (by omega)
  refine ⟨b, ?_, hlen, fun p hp => ?_⟩
  · rw [finishFrame, if_pos rfl, whenReady_of_ready hr, if_pos hn, hb, okWord_eq]
  · rw [hread p hp, if_pos (by omega), Nat.sub_zero]

/-! ### The words -/

theorem beginFrame_zero (legal : Bool) (s : State) : beginFrame 0 legal s = finishFrame [] legal s := if_pos rfl

theorem beginFrame_of_ne_zero {count : Half} (h : count ≠ 0) (legal : Bool) (s : State) :
    beginFrame count legal s = .next { s with port := .frame ⟨count.toNat, [], legal⟩ } := if_neg h

/-- The last payload word completes the command. -/
theorem takePayload_last (hp : s.port = .frame rx) (hl : rx.left ≤ 1) (c : Color) (legal : Bool) :
    takePayload c legal s = finishFrame (rx.got ++ [c]) (rx.legal && legal) { s with port := .ready } := by
  rw [takePayload, hp]
  exact if_pos hl

/-- Any other payload word is stored. -/
theorem takePayload_before_last (hp : s.port = .frame rx) (hl : 1 < rx.left) (c : Color) (legal : Bool) :
    takePayload c legal s = .next { s with port := .frame ⟨rx.left - 1, rx.got ++ [c], rx.legal && legal⟩ } := by
  rw [takePayload, hp]
  exact if_neg (Nat.not_le.mpr hl)

theorem takePayload_outside (hp : ∀ rx, s.port ≠ .frame rx) (c : Color) (legal : Bool) :
    takePayload c legal s = .next (s.raised .invalidCommand) := by
  unfold takePayload
  split
  · exact absurd ‹_› (hp _)
  · rfl
  · rfl

/-- Settles O35: `exec` of a header is `beginFrame`, and of a payload word `takePayload`. -/
theorem setframeWordsAreReceived : Obligations.SetframeWordsAreReceived := by
  refine ⟨fun count s h => beginFrame_of_ne_zero h true s, fun s hr => ?_, fun s hr hn => ?_, fun c s rx hp hl => ?_,
    fun c s hp => takePayload_outside hp c true⟩
  · exact (beginFrame_zero true s).trans (finishFrame_of_not_ready hr [])
  · have h0 : ([] : List Color).length ≠ s.numElements.toNat := fun h => hn (BitVec.eq_of_toNat_eq h.symm)
    exact (beginFrame_zero true s).trans (finishFrame_of_mismatch hr h0)
  · have h := takePayload_before_last hp hl c true
    rw [Bool.and_true] at h
    exact h

/-! ### The whole command -/

/-- The colour of a payload word, read whether or not the word is legal. -/
def payloadColor (p : CmdWord) : Color := unpack (cField p)

/-- A payload word with its reserved bits zero. -/
def payloadLegal (p : CmdWord) : Bool := p.extractLsb' 24 40 == 0

/-- A header with its reserved fields zero. -/
def headerLegal (w : CmdWord) : Bool := bField w == 0 && cField w == 0

/-- A word with `op = 0x14` begins a frame, legal or not (R76). -/
theorem runDecoded_header (hop : opField w = 0x14) (s : State) :
    runDecoded (decodeCommand w) s = beginFrame (aField w) (headerLegal w) s := by
  have hname : Opcode.ofByte 0x14 = some .setframe := rfl
  rw [decodeCommand, hop, hname]
  by_cases h : bField w = 0 ∧ cField w = 0
  · simp only [h, and_self, if_true, headerLegal, runDecoded]
    rfl
  · have hl : headerLegal w = false := by simpa [headerLegal] using h
    simp only [if_neg h, hl]
    rfl

/-- A word in payload position is taken as one, legal or not (R76). -/
theorem runDecoded_payload (p : CmdWord) (s : State) :
    runDecoded (decodePayload p) s = takePayload (payloadColor p) (payloadLegal p) s := by
  rw [decodePayload]
  by_cases h : p.extractLsb' 24 40 = 0
  · have hl : payloadLegal p = true := by simpa [payloadLegal] using h
    rw [if_pos h, hl]
    rfl
  · have hl : payloadLegal p = false := by simpa [payloadLegal] using h
    rw [if_neg h, hl]
    rfl

/-- The turn that takes the last payload word completes the command. -/
theorem step_takes_last {ws : List CmdWord} (ht : CommandsTurn s) (hc : s.cmdIn = w :: ws) (hp : s.port = .frame rx)
    (hl : rx.left ≤ 1) :
    step s = finishFrame (rx.got ++ [payloadColor w]) (rx.legal && payloadLegal w)
      { s with port := .ready, cmdIn := ws, sched := s.sched.tail } := by
  rw [step_takes_payload ht hc hp, runDecoded_payload]
  exact takePayload_last (s := { s with cmdIn := ws, sched := s.sched.tail }) hp hl _ _

/-- A turn before that stores the payload word. -/
theorem step_stores_payload {ws : List CmdWord} (ht : CommandsTurn s) (hc : s.cmdIn = w :: ws) (hp : s.port = .frame rx)
    (hl : 1 < rx.left) :
    step s = .next { s with
      port := .frame ⟨rx.left - 1, rx.got ++ [payloadColor w], rx.legal && payloadLegal w⟩
      cmdIn := ws
      sched := s.sched.tail } := by
  rw [step_takes_payload ht hc hp, runDecoded_payload]
  exact takePayload_before_last (s := { s with cmdIn := ws, sched := s.sched.tail }) hp hl _ _

theorem run_one (s : State) : core.run 1 s = step s := by
  have general : ∀ (M : Host.Core) (s : M.State), M.run 1 s = M.step s := by
    intro M s
    simp only [Host.Core.run]
    cases M.step s <;> rfl
  exact general core s

/-- The payload words of a frame, each taken in a turn of the command agent: the last completes the command. -/
theorem run_payloads (rest : List CmdWord) (ts : List Turn) (ps : List CmdWord) :
    ∀ (p : CmdWord) (s : State) (got : List Color) (legal : Bool),
    s.port = .frame ⟨ps.length + 1, got, legal⟩ → s.cmdIn = p :: (ps ++ rest) →
    s.sched = List.replicate (ps.length + 1) .command ++ ts →
    core.run (ps.length + 1) s = finishFrame (got ++ (p :: ps).map payloadColor) (legal && (p :: ps).all payloadLegal)
      { s with port := .ready, cmdIn := rest, sched := ts } := by
  induction ps with
  | nil =>
    intro p s got legal hp hc hs
    have hstep := step_takes_last (.inl (by rw [hs]; rfl)) hc hp le_rfl
    rw [hs] at hstep
    exact (run_one s).trans (hstep.trans (by simp))
  | cons q qs ih =>
    intro p s got legal hp hc hs
    have hstep := step_stores_payload (.inl (by rw [hs]; rfl)) hc hp (by simp)
    rw [hs] at hstep
    refine (run_next _ hstep).trans ((ih q _ (got ++ [payloadColor p]) (legal && payloadLegal p) ?_ ?_ ?_).trans ?_)
    · rfl
    · rfl
    · rfl
    · rw [List.append_assoc, Bool.and_assoc]
      rfl

/-- A whole `SETFRAME`, its header first: only after its last word is it completed or refused, with all its words taken. -/
theorem run_setframe {ps rest : List CmdWord} {ts : List Turn} (hop : opField w = 0x14)
    (hlen : ps.length = (aField w).toNat) (hp : s.port = .ready) (hc : s.cmdIn = w :: (ps ++ rest))
    (hs : s.sched = List.replicate (ps.length + 1) .command ++ ts) :
    core.run (ps.length + 1) s = finishFrame (ps.map payloadColor) (headerLegal w && ps.all payloadLegal)
      { s with cmdIn := rest, sched := ts } := by
  have hstep := step_takes_command (.inl (by rw [hs]; rfl)) hc hp
  rw [runDecoded_header hop, hs] at hstep
  cases ps with
  | nil =>
    have h0 : aField w = 0 := BitVec.eq_of_toNat_eq hlen.symm
    rw [h0, beginFrame_zero] at hstep
    exact (run_one s).trans (hstep.trans (by simp))
  | cons p ps =>
    have h0 : aField w ≠ 0 := by
      rintro h0
      simp [h0] at hlen
    rw [beginFrame_of_ne_zero h0, ← hlen] at hstep
    have hready : { s with port := .ready, cmdIn := rest, sched := ts } = { s with cmdIn := rest, sched := ts } := by
      rw [← hp]
    refine (run_next _ hstep).trans ((run_payloads rest ts ps p _ [] (headerLegal w) ?_ ?_ ?_).trans ?_)
    · rfl
    · rfl
    · rfl
    · exact congrArg _ hready

theorem frameLegal_eq_false_iff (w : CmdWord) (ps : List CmdWord) :
    (headerLegal w && ps.all payloadLegal) = false ↔
      bField w ≠ 0 ∨ cField w ≠ 0 ∨ ∃ p ∈ ps, p.extractLsb' 24 40 ≠ 0 := by
  simp only [headerLegal, payloadLegal, Bool.and_eq_false_iff, List.all_eq_false, Bool.not_eq_true, beq_eq_false_iff_ne,
    or_assoc]

/-- Settles O15: the run is the completion of the frame (`run_setframe`), in the four cases of `finishFrame`. -/
theorem setframeTakesItsPayloadAndWrites : Obligations.SetframeTakesItsPayloadAndWrites := by
  intro s w ps rest ts hop hlen hp hc hs hinv
  have hrun := run_setframe hop hlen hp hc hs
  have hinv' : State.Inv { s with cmdIn := rest, sched := ts } := hinv
  by_cases hlegal : bField w ≠ 0 ∨ cField w ≠ 0 ∨ ∃ p ∈ ps, p.extractLsb' 24 40 ≠ 0
  · rw [if_pos hlegal]
    rw [(frameLegal_eq_false_iff w ps).mpr hlegal] at hrun
    exact hrun.trans (finishFrame_of_illegal _ _)
  rw [if_neg hlegal]
  rw [Bool.eq_true_of_not_eq_false (mt (frameLegal_eq_false_iff w ps).mp hlegal)] at hrun
  by_cases hr : s.life = .ready
  swap
  · rw [if_pos hr]
    exact hrun.trans (finishFrame_of_not_ready (s := { s with cmdIn := rest, sched := ts }) hr _)
  rw [if_neg (not_not.mpr hr)]
  by_cases hn : ps.length = s.numElements.toNat
  · rw [if_neg (not_not.mpr hn)]
    obtain ⟨b, hfin, hb, hread⟩ := hinv'.finishFrame_writes hr (got := ps.map payloadColor) (by simpa using hn)
    exact ⟨b, hrun.trans hfin, hb, fun p hpn => (hread p hpn).trans (List.getElem?_map ..)⟩
  · rw [if_pos hn]
    exact hrun.trans (finishFrame_of_mismatch (s := { s with cmdIn := rest, sched := ts }) hr (by simpa using hn))

end Sys2Proof.Machine
end

section
/-!
PROOF. The frame on the wire symbol by symbol (R60 to R63), and what a chain of LEDs makes of it (R64, log entry 18).
-/

namespace Sys2Proof.Machine

/-- Settles O40: a data symbol is that of its data bit, and the reset gap stands after the last. -/
theorem frameSymbolsFollowTheBits : Obligations.FrameSymbolsFollowTheBits := by
  refine fun bytes => ⟨frameSymbols_length bytes, fun k b hb => ?_, ?_⟩
  · have hbit : frameBit bytes k = some (b.getLsbD (7 - k % 8)) := by rw [frameBit, hb, Option.map_some]
    exact frameSymbols_getElem? hbit
  · rw [← List.head?_drop, frameSymbols_drop_data, List.head?_cons]

/-! ### The data bits of a frame -/

/-- The eight bits of a byte, most significant first (R62). -/
def byteBits (b : Byte) : List Bool := (List.range 8).map fun k => b.getLsbD (7 - k)

/-- The bits of one LED: green, red, blue (R41, R157). -/
def colorBits (c : Color) : List Bool := byteBits c.green ++ (byteBits c.red ++ byteBits c.blue)

/-- The data bits of a buffer's frame (R157). -/
def dataBits (buf : List Color) : List Bool := (encodeFrame buf).flatMap byteBits

@[simp] theorem byteBits_length (b : Byte) : (byteBits b).length = 8 := rfl

@[simp] theorem byteOfBits_byteBits (b : Byte) : byteOfBits (byteBits b) = b := by
  revert b
  decide

theorem byteSymbols_eq (b : Byte) : byteSymbols b = (byteBits b).map bitSymbol := rfl

/-- A frame is its data bits' symbols and the reset gap (R63). -/
theorem frameSymbols_eq (buf : List Color) : frameSymbols (encodeFrame buf) = (dataBits buf).map bitSymbol ++ [.res] := by
  rw [frameSymbols, dataBits, List.map_flatMap, funext byteSymbols_eq]

theorem dataBits_cons (c : Color) (buf : List Color) : dataBits (c :: buf) = colorBits c ++ dataBits buf := by
  simp [dataBits, colorBits, encodeFrame, encodeColor]

/-! ### The chain -/

theorem Chain.see_bitSymbol (c : Chain) (b : Bool) : c.see (bitSymbol b) = { c with bits := c.bits ++ [b] } := by
  cases b <;> rfl

/-- Data symbols reach the chain as their bits and change no LED. -/
theorem Chain.after_data (bits : List Bool) (c : Chain) : c.after (bits.map bitSymbol) = { c with bits := c.bits ++ bits } := by
  induction bits generalizing c with
  | nil => rw [List.append_nil]; rfl
  | cons b bits ih =>
    have hnext : c.after ((b :: bits).map bitSymbol) = (c.see (bitSymbol b)).after (bits.map bitSymbol) := rfl
    rw [hnext, ih, Chain.see_bitSymbol, List.append_assoc]
    rfl

/-- The first LED takes the first colour and passes on the rest (R64). -/
theorem takenColors_color (n : Nat) (c : Color) (rest : List Bool) :
    takenColors (n + 1) (colorBits c ++ rest) = c :: takenColors n rest := by
  have hlength : ¬ (colorBits c ++ rest).length < 24 := by
    simp only [colorBits, List.length_append, byteBits_length]
    omega
  have hgreen : (colorBits c ++ rest).take 8 = byteBits c.green := rfl
  have hred : ((colorBits c ++ rest).drop 8).take 8 = byteBits c.red := rfl
  have hblue : ((colorBits c ++ rest).drop 16).take 8 = byteBits c.blue := rfl
  have hrest : (colorBits c ++ rest).drop 24 = rest := rfl
  rw [takenColors, if_neg hlength, hgreen, hred, hblue, hrest, byteOfBits_byteBits, byteOfBits_byteBits, byteOfBits_byteBits]

/-- A chain takes the frame's colours in order, as many as it has LEDs. -/
theorem takenColors_dataBits (n : Nat) (buf : List Color) : takenColors n (dataBits buf) = buf.take n := by
  induction buf generalizing n with
  | nil => cases n <;> rfl
  | cons c buf ih =>
    cases n with
    | zero => rfl
    | succ n => rw [dataBits_cons, takenColors_color, ih, List.take_succ_cons]

/-- Settles O50: the chain has the frame's bits when the gap comes (`Chain.after_data`), and takes the colours they are of. -/
theorem chainShowsTheBuffer : Obligations.ChainShowsTheBuffer := by
  intro buf c hbits
  have hlatch : c.after (frameSymbols (encodeFrame buf)) = Chain.latch { c with bits := dataBits buf } := by
    rw [frameSymbols_eq, Chain.after, List.foldl_append]
    have hdata := Chain.after_data (dataBits buf) c
    rw [hbits, List.nil_append, Chain.after] at hdata
    rw [hdata]
    rfl
  have hdrop : c.shown.drop (buf.take c.shown.length).length = c.shown.drop buf.length := by
    rw [List.drop_eq_drop_iff, List.length_take]
    omega
  rw [hlatch, Chain.latch, takenColors_dataBits, hdrop]

end Sys2Proof.Machine
end

section
/-!
PROOF. The response words (R77, R78): their fields, and how many an instruction sends, case by case of `Effect`.
-/

namespace Sys2Proof.Machine

variable {i : Instr} {s t : State}

/-! ### The fields of a word -/

/-- The header word of `GETFRAME` is the count and nothing else (R77). -/
theorem countWord_fields (n : Half) : (countWord n).extractLsb' 16 16 = 0 ∧ (countWord n).extractLsb' 0 16 = n := by
  have hword : countWord n = n.setWidth 32 := by
    apply BitVec.eq_of_getLsbD_eq
    intro k hk
    simp [countWord, rspWord, ErrCode.code]
  rw [hword]
  constructor
  · ext k hk
    simp
  · ext k hk
    simp [hk, Nat.lt_trans hk (by decide : 16 < 32)]

/-- Bits 27:25 of a response word are zero (R77). -/
abbrev ReservedClear (w : RspWord) : Prop := w.extractLsb' 25 3 = 0

theorem reservedClear_okWord : ReservedClear okWord := rspWord_reserved .ok false 0

theorem reservedClear_errWord (e : ErrCode) : ReservedClear (errWord e) := rspWord_reserved e false 0

theorem reservedClear_colorWord (c : Color) : ReservedClear (colorWord c) := rspWord_reserved .ok true (pack c)

theorem reservedClear_countWord (n : Half) : ReservedClear (countWord n) := rspWord_reserved .ok false (n.setWidth 24)

/-! ### How many words -/

/-- How many words a payload word sends: one where it is the last of its `SETFRAME`, or outside a reception (log entry 10). -/
def payloadWordsSent : Port → Nat
  | .frame rx => if rx.left ≤ 1 then 1 else 0
  | .ready => 1
  | .waitHeld => 1

/-- How many words an instruction sends (R77, R76, R152; log entries 4, 5 and 10). -/
def wordsSent (i : Instr) (s : State) : Nat :=
  match i with
  | .getframe => if s.life = .ready then s.numElements.toNat + 1 else 1
  | .setframe count => if count = 0 then 1 else 0
  | .payload _ => payloadWordsSent s.port
  | .wait => if s.life = .ready ∧ s.txPhase ≠ .idle then 0 else 1
  | _ => 1

theorem payloadWordsSent_frame {rx : FrameRx} (hp : s.port = .frame rx) :
    payloadWordsSent s.port = if rx.left ≤ 1 then 1 else 0 := by
  rw [hp]
  rfl

theorem payloadWordsSent_outside (hp : ∀ rx, s.port ≠ .frame rx) : payloadWordsSent s.port = 1 := by
  cases h : s.port with
  | frame rx => exact absurd h (hp rx)
  | ready => rfl
  | waitHeld => rfl

/-- The words an instruction sends are as many as `wordsSent` says, their reserved bits zero. -/
def AnswersInForm (i : Instr) (s t : State) : Prop :=
  ∃ ws, t.rspOut = s.rspOut ++ ws ∧ (∀ w ∈ ws, ReservedClear w) ∧ ws.length = wordsSent i s

theorem answersInForm_none (h : wordsSent i s = 0) (ht : t.rspOut = s.rspOut) : AnswersInForm i s t :=
  ⟨[], by rw [ht, List.append_nil], by simp, h.symm⟩

theorem answersInForm_one {w : RspWord} (hw : ReservedClear w) (h : wordsSent i s = 1) (ht : t.rspOut = s.rspOut ++ [w]) :
    AnswersInForm i s t :=
  ⟨[w], ht, by simpa using hw, h.symm⟩

/-- `GETFRAME` sends `N` and `N` colours, or the one word of its error (R138, R187). -/
theorem getframe_answersInForm (h : exec .getframe s = .next t) : AnswersInForm .getframe s t := by
  obtain ⟨hr, h⟩ | ⟨hr, rfl⟩ := whenReady_cases h
  · split at h
    · rename_i g hg
      cases h
      have hlength : (countWord s.numElements :: g.map colorWord).length = s.numElements.toNat + 1 := by
        simp [readFrame_length _ hg]
      refine ⟨_, rfl, ?_, hlength.trans (if_pos hr).symm⟩
      rintro w hw
      obtain rfl | ⟨c, -, rfl⟩ := by simpa using hw
      · exact reservedClear_countWord _
      · exact reservedClear_colorWord c
    · cases h
  · exact answersInForm_one (reservedClear_errWord _) (if_neg hr) rfl

/-- A command that fails sends one word: `SETFRAME` only with no payload to come, a payload word only outside a reception, and
`WAIT` only where it is not held. -/
theorem wordsSent_of_raised (hg : i ≠ .getframe) (hw : i = .wait → s.life ≠ .ready)
    (hf : ∀ rx, s.port = .frame rx → ∀ c, i ≠ .payload c) (h0 : ∀ count, i = .setframe count → count = 0) :
    wordsSent i s = 1 := by
  cases i with
  | getframe => exact absurd rfl hg
  | setframe count => exact if_pos (h0 count rfl)
  | payload c => exact payloadWordsSent_outside fun rx hp => hf rx hp c rfl
  | wait => exact if_neg fun h => hw rfl h.1
  | _ => rfl

/-- Every instruction but `GETFRAME` sends one word or none. -/
theorem Effect.answersInForm (h : Effect i s t) (hg : i ≠ .getframe) : AnswersInForm i s t := by
  cases h with
  | raised _ hw hf h0 => exact answersInForm_one (reservedClear_errWord _) (wordsSent_of_raised hg hw hf h0) rfl
  | frameRaised hp hl =>
    exact answersInForm_one (reservedClear_errWord _) ((payloadWordsSent_frame hp).trans (if_pos hl)) rfl
  | frameWritten hp hl => exact answersInForm_one reservedClear_okWord ((payloadWordsSent_frame hp).trans (if_pos hl)) rfl
  | frameExtended hp hl => exact answersInForm_none ((payloadWordsSent_frame hp).trans (if_neg (by omega))) rfl
  | frameOpened hc => exact answersInForm_none (if_neg hc) rfl
  | frameEmpty => exact answersInForm_one reservedClear_okWord rfl rfl
  | wrote hi =>
    refine answersInForm_one reservedClear_okWord ?_ rfl
    obtain ⟨k, c, rfl⟩ | ⟨x, y, c, rfl⟩ | rfl | ⟨c, rfl⟩ | ⟨c, rfl⟩ | rfl := hi <;> rfl
  | @read i s w hi _ hw =>
    have hclear : ReservedClear w := by
      obtain rfl | ⟨c, rfl⟩ := hw
      · exact reservedClear_okWord
      · exact reservedClear_colorWord c
    refine answersInForm_one hclear ?_ rfl
    obtain ⟨k, rfl⟩ | ⟨x, y, rfl⟩ | rfl := hi <;> rfl
  | readAll => exact absurd rfl hg
  | waitAnswered _ hi => exact answersInForm_one reservedClear_okWord (if_neg fun h => h.2 hi) rfl
  | waitHeld hr hi => exact answersInForm_none (if_pos ⟨hr, hi⟩) rfl
  | config => exact answersInForm_one reservedClear_okWord rfl rfl
  | cleanup => exact answersInForm_one reservedClear_okWord rfl rfl
  | start => exact answersInForm_one reservedClear_okWord rfl rfl

theorem exec_answersInForm (h : exec i s = .next t) : AnswersInForm i s t := by
  by_cases hg : i = .getframe
  · subst hg
    exact getframe_answersInForm h
  · exact (exec_effect h).answersInForm hg

/-- Settles O52: the fields are those of `rspWord`, and `exec_answersInForm` counts the words. -/
theorem everyCommandAnswersInForm : Obligations.EveryCommandAnswersInForm := by
  refine ⟨okWord_eq, fun c => ⟨rspWord_status .ok true _, reservedClear_colorWord c, rspWord_present .ok true _,
    rspWord_data .ok true _⟩, countWord_fields, fun i s t h => ?_⟩
  obtain ⟨ws, hws, hclear, hlength⟩ := exec_answersInForm h
  refine ⟨ws, hws, hclear, ?_⟩
  cases i with
  | payload c =>
    cases hp : s.port with
    | frame rx => exact hlength.trans (payloadWordsSent_frame hp)
    | ready => exact hlength.trans (payloadWordsSent_outside (by simp [hp]))
    | waitHeld => exact hlength.trans (payloadWordsSent_outside (by simp [hp]))
  | _ => exact hlength

end Sys2Proof.Machine
end

section
/-!
PROOF. The assembler (R81, R82): what each row's line stands for, its numerals any numbers: where one of them is above 65535,
`half` is `none`, and so is the line.
-/

namespace Sys2Proof.Machine

variable {a b : Nat} {c : Color} {ta tb tc : List Char}

/-! ### Lines without and with operands -/

/-- A mnemonic alone, with any number of blanks. -/
theorem assembleLine_alone {m : String} {is : List Instr} (hn : m.toList.all isNameChar = true)
    (hw : nameToken m.toList = some (.word m.toList)) (hp : parseTokens [.word m.toList] = some is) (k : Nat) :
    assembleLine (lineOf m k []) = some is := by
  rw [assembleLine_lineOf k hn hw fun _ => stops_nil, tokensOf_nil, Option.bind_some, hp]

/-- A mnemonic, a blank or more, and operands of known tokens. -/
theorem assembleLine_operands {m : String} {ops : List Char} {ts : List Token} (hn : m.toList.all isNameChar = true)
    (hw : nameToken m.toList = some (.word m.toList)) (h : tokensOf ops = some ts) (k : Nat) :
    assembleLine (lineOf m (k + 1) ops) = parseTokens (.word m.toList :: ts) := by
  rw [assembleLine_lineOf (k + 1) hn hw (fun h0 => absurd h0 (Nat.succ_ne_zero k)), h, Option.bind_some]

/-- The rows without operands (R81). -/
theorem assemble_noOperands (k : Nat) :
    assembleLine (lineOf "CLEANUP" k []) = some [.cleanup] ∧ assembleLine (lineOf "GETFRAME" k []) = some [.getframe] ∧
    assembleLine (lineOf "CLEAR" k []) = some [.clear] ∧ assembleLine (lineOf "CYCLE" k []) = some [.cycle] ∧
    assembleLine (lineOf "FIRSTVIS" k []) = some [.firstvis] ∧ assembleLine (lineOf "START" k []) = some [.start] ∧
    assembleLine (lineOf "WAIT" k []) = some [.wait] ∧ assembleLine (lineOf "SETFRAME" k []) = some [.setframe 0] :=
  ⟨assembleLine_alone rfl rfl rfl k, assembleLine_alone rfl rfl rfl k, assembleLine_alone rfl rfl rfl k,
    assembleLine_alone rfl rfl rfl k, assembleLine_alone rfl rfl rfl k, assembleLine_alone rfl rfl rfl k,
    assembleLine_alone rfl rfl rfl k, assembleLine_alone rfl rfl rfl k⟩

/-! ### Numbers and colours as operands -/

/-- A number, a comma and a blank, in front of other operands. -/
theorem tokensOf_number_comma (h : NumberText ta a) :
    ∃ d : Bool, ∀ rest : List Char,
      tokensOf (ta ++ ", ".toList ++ rest) = (tokensOf rest).map fun ts => .num d a :: .comma :: ts := by
  obtain ⟨d, -, hcomma, -⟩ := tokensOf_number_ends h
  refine ⟨d, fun rest => ?_⟩
  have hblank : ta ++ ", ".toList ++ rest = ta ++ ',' :: ' ' :: rest := List.append_assoc _ _ _
  rw [hblank, hcomma, tokensOf_blank]

theorem assemble_getled (ha : NumberText ta a) (k : Nat) :
    assembleLine (lineOf "GETLED" (k + 1) ta) = (half a).map fun i => [.getled i] := by
  obtain ⟨d, htok, -⟩ := tokensOf_number_ends ha
  rw [assembleLine_operands rfl rfl htok k, parseTokens_getled, parseIndex]
  cases half a <;> rfl

theorem assemble_setled (ha : NumberText ta a) (hc : ColorText tc c) (k : Nat) :
    assembleLine (lineOf "SETLED" (k + 1) (ta ++ ", ".toList ++ tc)) = (half a).map fun i => [.setled i c] := by
  obtain ⟨d, hnum⟩ := tokensOf_number_comma ha
  obtain ⟨ts, htok, hone⟩ := tokensOf_color_end hc
  rw [assembleLine_operands rfl rfl (by rw [hnum, htok, Option.map_some]) k, parseTokens_setled, parseSetled, hone]
  cases half a <;> rfl

theorem assemble_getxy (ha : NumberText ta a) (hb : NumberText tb b) (k : Nat) :
    assembleLine (lineOf "GETXY" (k + 1) (ta ++ ", ".toList ++ tb)) =
      (half a).bind fun x => (half b).map fun y => [.getxy x y] := by
  obtain ⟨d, hnum⟩ := tokensOf_number_comma ha
  obtain ⟨e, htok, -⟩ := tokensOf_number_ends hb
  rw [assembleLine_operands rfl rfl (by rw [hnum, htok, Option.map_some]) k, parseTokens_getxy, parsePair]
  cases half a <;> cases half b <;> rfl

theorem assemble_setxy (ha : NumberText ta a) (hb : NumberText tb b) (hc : ColorText tc c) (k : Nat) :
    assembleLine (lineOf "SETXY" (k + 1) (ta ++ ", ".toList ++ tb ++ ", ".toList ++ tc)) =
      (half a).bind fun x => (half b).map fun y => [.setxy x y c] := by
  obtain ⟨d, hnum⟩ := tokensOf_number_comma ha
  obtain ⟨e, hnum'⟩ := tokensOf_number_comma hb
  obtain ⟨ts, htok, hone⟩ := tokensOf_color_end hc
  have htokens : tokensOf (ta ++ ", ".toList ++ tb ++ ", ".toList ++ tc) =
      some (.num d a :: .comma :: .num e b :: .comma :: ts) := by
    rw [List.append_assoc, List.append_assoc, hnum, ← List.append_assoc, hnum', htok]
    rfl
  rw [assembleLine_operands rfl rfl htokens k, parseTokens_setxy, parseSetxy, hone]
  cases half a <;> cases half b <;> rfl

theorem assemble_setall (hc : ColorText tc c) (k : Nat) : assembleLine (lineOf "SETALL" (k + 1) tc) = some [.setall c] := by
  obtain ⟨ts, htok, hone⟩ := tokensOf_color_end hc
  rw [assembleLine_operands rfl rfl htok k, parseTokens_setall, hone]
  rfl

theorem assemble_active (hc : ColorText tc c) (k : Nat) : assembleLine (lineOf "ACTIVE" (k + 1) tc) = some [.active c] := by
  obtain ⟨ts, htok, hone⟩ := tokensOf_color_end hc
  rw [assembleLine_operands rfl rfl htok k, parseTokens_active, hone]
  rfl

/-! ### `CONFIG` -/

theorem tokensOf_chip_end (chip : Chip) : tokensOf (chipText chip) = some [.word (chipText chip)] := by
  have h := (tokensOf_chip chip).1 [] stops_nil
  rwa [List.append_nil, tokensOf_nil, Option.map_some] at h

theorem assemble_config_linear (ha : NumberText ta a) (chip : Chip) (k : Nat) :
    assembleLine (lineOf "CONFIG" (k + 1) (ta ++ ", LINEAR, ".toList ++ chipText chip)) =
      (half a).map fun n => [.config n 0 .linear chip] := by
  obtain ⟨d, hnum⟩ := tokensOf_number_comma ha
  have htokens : tokensOf (ta ++ ", LINEAR, ".toList ++ chipText chip) =
      some [.num d a, .comma, .word "LINEAR".toList, .comma, .word (chipText chip)] := by
    have hsplit : ta ++ ", LINEAR, ".toList ++ chipText chip =
        ta ++ ", ".toList ++ ("LINEAR".toList ++ ',' :: ' ' :: chipText chip) := by simp
    rw [hsplit, hnum, tokensOf_word rfl rfl (stops_cons _ rfl), tokensOf_comma, tokensOf_blank, tokensOf_chip_end]
    rfl
  rw [assembleLine_operands rfl rfl htokens k, parseTokens_config, parseConfig_linear, (tokensOf_chip chip).2]
  cases half a <;> rfl

/-- The tokens of the operands of a matrix `CONFIG`, its topology a name. -/
theorem tokensOf_matrix {m : List Char} (hm : m.all isNameChar = true) (hw : nameToken m = some (.word m)) (ha : NumberText ta a)
    (hb : NumberText tb b) (chip : Chip) :
    ∃ d e : Bool, tokensOf (ta ++ ", ".toList ++ (m ++ '(' :: (tb ++ "), ".toList ++ chipText chip))) =
      some [.num d a, .comma, .word m, .lpar, .num e b, .rpar, .comma, .word (chipText chip)] := by
  obtain ⟨d, hnum⟩ := tokensOf_number_comma ha
  obtain ⟨e, -, -, hparen⟩ := tokensOf_number_ends hb
  have hsplit : tb ++ "), ".toList ++ chipText chip = tb ++ ')' :: ',' :: ' ' :: chipText chip := List.append_assoc _ _ _
  refine ⟨d, e, ?_⟩
  rw [hnum, tokensOf_word hm hw (stops_cons _ rfl), tokensOf_lpar, hsplit, hparen, tokensOf_comma, tokensOf_blank,
    tokensOf_chip_end]
  rfl

theorem assemble_config_rowMajor (ha : NumberText ta a) (hb : NumberText tb b) (chip : Chip) (k : Nat) :
    assembleLine (lineOf "CONFIG" (k + 1) (ta ++ ", ROWMAJOR(".toList ++ tb ++ "), ".toList ++ chipText chip)) =
      (half a).bind fun n => (half b).map fun w => [.config n w .rowMajor chip] := by
  obtain ⟨d, e, htok⟩ := tokensOf_matrix (m := "ROWMAJOR".toList) rfl rfl ha hb chip
  have hsplit : ta ++ ", ROWMAJOR(".toList ++ tb ++ "), ".toList ++ chipText chip =
      ta ++ ", ".toList ++ ("ROWMAJOR".toList ++ '(' :: (tb ++ "), ".toList ++ chipText chip)) := by simp
  rw [hsplit, assembleLine_operands rfl rfl htok k, parseTokens_config, parseConfig_rowMajor, (tokensOf_chip chip).2]
  cases half a <;> cases half b <;> rfl

theorem assemble_config_serpentine (ha : NumberText ta a) (hb : NumberText tb b) (chip : Chip) (k : Nat) :
    assembleLine (lineOf "CONFIG" (k + 1) (ta ++ ", SERPENTINE(".toList ++ tb ++ "), ".toList ++ chipText chip)) =
      (half a).bind fun n => (half b).map fun w => [.config n w .serpentine chip] := by
  obtain ⟨d, e, htok⟩ := tokensOf_matrix (m := "SERPENTINE".toList) rfl rfl ha hb chip
  have hsplit : ta ++ ", SERPENTINE(".toList ++ tb ++ "), ".toList ++ chipText chip =
      ta ++ ", ".toList ++ ("SERPENTINE".toList ++ '(' :: (tb ++ "), ".toList ++ chipText chip)) := by simp
  rw [hsplit, assembleLine_operands rfl rfl htok k, parseTokens_config, parseConfig_serpentine, (tokensOf_chip chip).2]
  cases half a <;> cases half b <;> rfl

/-! ### `SETFRAME` -/

/-- Colours with commas between them are tokens that are read as those colours, whatever the bound from their number on. -/
theorem tokensOf_colors {t : List Char} {cs : List Color} (h : ColorsText t cs) :
    ∃ first toks, tokensOf t = some (first :: toks) ∧ cs.length ≤ (first :: toks).length ∧
      ∀ fuel, cs.length ≤ fuel → parseColors fuel (first :: toks) = some cs := by
  induction h with
  | one h =>
    obtain ⟨first, toks, hlex, hparse⟩ := tokensOf_color h
    refine ⟨first, toks, by simpa using hlex [] stops_nil, by simp, fun fuel hf => ?_⟩
    obtain ⟨fuel, rfl⟩ := Nat.exists_eq_add_of_le' hf
    have hone := hparse []
    rw [List.append_nil] at hone
    rw [List.length_singleton, parseColors, hone]
  | @more t ts c cs h _ ih =>
    obtain ⟨first, toks, hlex, hparse⟩ := tokensOf_color h
    obtain ⟨first', toks', htok, hlen, hrest⟩ := ih
    have hsplit : t ++ ", ".toList ++ ts = t ++ ',' :: ' ' :: ts := List.append_assoc _ _ _
    refine ⟨first, toks ++ .comma :: first' :: toks', ?_, ?_, fun fuel hf => ?_⟩
    · rw [hsplit, hlex _ (stops_cons _ rfl), tokensOf_comma, tokensOf_blank, htok]
      rfl
    · simp only [List.length_cons, List.length_append] at hlen ⊢
      omega
    · obtain ⟨fuel, rfl⟩ := Nat.exists_eq_add_of_le' (Nat.le_trans (Nat.succ_le_succ (Nat.zero_le _)) hf)
      have hmore := hparse (.comma :: first' :: toks')
      rw [List.cons_append] at hmore
      simp only [parseColors, hmore, hrest fuel (Nat.le_of_succ_le_succ hf), Option.map_some]

theorem assemble_setframe {t : List Char} {cs : List Color} (h : ColorsText t cs) (hn : cs.length ≤ 65535) (k : Nat) :
    assembleLine (lineOf "SETFRAME" (k + 1) t) = some (.setframe (BitVec.ofNat 16 cs.length) :: cs.map .payload) := by
  obtain ⟨first, toks, htok, hlen, hparse⟩ := tokensOf_colors h
  rw [assembleLine_operands rfl rfl htok k, parseTokens_setframe, parseSetframe, hparse _ hlen]
  exact if_pos hn

/-! ### Every line is well-formed -/

/-- The instructions read, if any, are well-formed. -/
def ReadsWellFormed (r : Option (List Instr)) : Prop := ∀ is, r = some is → ∀ i ∈ is, i.WellFormed

theorem readsWellFormed_none : ReadsWellFormed none := fun _ h => nomatch h

theorem readsWellFormed_some {is : List Instr} (h : ∀ i ∈ is, i.WellFormed) : ReadsWellFormed (some is) := by
  rintro _ ⟨⟩
  exact h

theorem readsWellFormed_ite {p : Prop} [Decidable p] {r r' : Option (List Instr)} (h : ReadsWellFormed r)
    (h' : ReadsWellFormed r') : ReadsWellFormed (if p then r else r') := by
  split
  · exact h
  · exact h'

theorem readsWellFormed_single {o : Option Instr} (h : ∀ i, o = some i → i.WellFormed) : ReadsWellFormed (single o) := by
  cases o with
  | none => exact readsWellFormed_none
  | some i => exact readsWellFormed_some (by simpa using h i rfl)

theorem readsWellFormed_map {α : Type} {f : α → Instr} (hf : ∀ x, (f x).WellFormed) (o : Option α) :
    ReadsWellFormed (single (o.map f)) := by
  refine readsWellFormed_single fun i h => ?_
  obtain ⟨x, -, rfl⟩ := Option.map_eq_some_iff.mp h
  exact hf x

theorem readsWellFormed_noOperand {is : List Instr} (h : ∀ i ∈ is, i.WellFormed) (ts : List Token) :
    ReadsWellFormed (noOperand is ts) := by
  cases ts with
  | nil => exact readsWellFormed_some h
  | cons t ts => exact readsWellFormed_none

theorem readsWellFormed_alone {i : Instr} (h : i.WellFormed) (ts : List Token) : ReadsWellFormed (noOperand [i] ts) :=
  readsWellFormed_noOperand (List.forall_mem_singleton.mpr h) ts

theorem readsWellFormed_frame (cs : List Color) : ReadsWellFormed (frameInstrs cs) := by
  unfold frameInstrs
  split
  · refine readsWellFormed_some fun i hi => ?_
    obtain rfl | ⟨c, -, rfl⟩ := by simpa using hi
    · trivial
    · trivial
  · exact readsWellFormed_none

theorem readsWellFormed_setframe (ts : List Token) : ReadsWellFormed (parseSetframe ts) := by
  unfold parseSetframe
  split
  · exact readsWellFormed_frame []
  · split
    · exact readsWellFormed_frame _
    · exact readsWellFormed_none

/-- A `LINEAR` line has width 0 (R81), so what `CONFIG` reads is well-formed. -/
theorem parseConfig_wellFormed {ts : List Token} {i : Instr} (h : parseConfig ts = some i) : i.WellFormed := by
  unfold parseConfig at h
  split at h
  · split at h
    · split at h
      · cases h
        exact fun _ => rfl
      · cases h
    · cases h
  · split at h
    · split at h
      · cases h
        exact fun ht => nomatch ht
      · split at h
        · cases h
          exact fun ht => nomatch ht
        · cases h
    · cases h
  · cases h

theorem parseSetled_wellFormed {ts : List Token} {i : Instr} (h : parseSetled ts = some i) : i.WellFormed := by
  unfold parseSetled at h
  split at h
  · split at h
    · cases h
      trivial
    · cases h
  · cases h

theorem parseSetxy_wellFormed {ts : List Token} {i : Instr} (h : parseSetxy ts = some i) : i.WellFormed := by
  unfold parseSetxy at h
  split at h
  · split at h
    · cases h
      trivial
    · cases h
  · cases h

theorem parseTokens_wellFormed (ts : List Token) : ReadsWellFormed (parseTokens ts) := by
  unfold parseTokens
  split
  · exact readsWellFormed_some (by simp)
  · rename_i m ts
    refine readsWellFormed_ite (readsWellFormed_single fun i => parseConfig_wellFormed) ?_
    refine readsWellFormed_ite (readsWellFormed_alone trivial ts) ?_
    refine readsWellFormed_ite (readsWellFormed_single fun i => parseSetled_wellFormed) ?_
    refine readsWellFormed_ite (readsWellFormed_map (fun _ => trivial) _) ?_
    refine readsWellFormed_ite (readsWellFormed_single fun i => parseSetxy_wellFormed) ?_
    refine readsWellFormed_ite (readsWellFormed_map (fun _ => trivial) _) ?_
    refine readsWellFormed_ite (readsWellFormed_setframe ts) ?_
    refine readsWellFormed_ite (readsWellFormed_alone trivial ts) ?_
    refine readsWellFormed_ite (readsWellFormed_alone trivial ts) ?_
    refine readsWellFormed_ite (readsWellFormed_map (fun _ => trivial) _) ?_
    refine readsWellFormed_ite (readsWellFormed_map (fun _ => trivial) _) ?_
    refine readsWellFormed_ite (readsWellFormed_alone trivial ts) ?_
    refine readsWellFormed_ite (readsWellFormed_alone trivial ts) ?_
    refine readsWellFormed_ite (readsWellFormed_alone trivial ts) ?_
    refine readsWellFormed_ite (readsWellFormed_alone trivial ts) ?_
    refine readsWellFormed_ite
      (readsWellFormed_noOperand (List.forall_mem_cons.mpr ⟨trivial, List.forall_mem_singleton.mpr trivial⟩) ts) ?_
    exact readsWellFormed_none
  · exact readsWellFormed_none

theorem assembleLine_wellFormed (line : List Char) : ReadsWellFormed (assembleLine line) := by
  unfold assembleLine
  split
  · exact parseTokens_wellFormed _
  · exact readsWellFormed_none

/-! ### The statements -/

/-- A line that asks for two numbers is none where either is too large. -/
theorem bind_half_eq_none {f : Half → Half → List Instr} (h : 65535 < a ∨ 65535 < b) :
    ((half a).bind fun x => (half b).map fun y => f x y) = none := by
  rcases h with h | h
  · rw [half_eq_none h, Option.bind_none]
  · rw [half_eq_none h]
    cases half a <;> rfl

/-- Settles O59: a row's line reads its numbers by `half`, which gives back the numbers up to 65535 and refuses the others. -/
theorem assembledLinesStandForTheirRows : Obligations.AssembledLinesStandForTheirRows := by
  refine ⟨assemble_noOperands, fun k n w chip tn tw hn hw => ?_, fun k x y c tx ty tc hx hy hc => ?_,
    fun k t cs h hn => assemble_setframe h hn k, fun k a b chip c ta tb tc ha hb hc => ⟨fun h => ?_, fun h => ?_⟩, by decide,
    fun line comment h => ?_, assembleLine_wellFormed⟩
  · rw [assemble_config_linear hn, assemble_config_rowMajor hn hw, assemble_config_serpentine hn hw, half_toNat, half_toNat]
    exact ⟨rfl, rfl, rfl⟩
  · rw [assemble_setled hx hc, assemble_getled hx, assemble_setxy hx hy hc, assemble_getxy hx hy, assemble_setall hc,
      assemble_active hc, half_toNat, half_toNat]
    exact ⟨rfl, rfl, rfl, rfl, rfl, rfl⟩
  · rw [assemble_config_linear ha, assemble_setled ha hc, assemble_getled ha, half_eq_none h]
    exact ⟨rfl, rfl, rfl⟩
  · rw [assemble_config_rowMajor ha hb, assemble_config_serpentine ha hb, assemble_setxy ha hb hc, assemble_getxy ha hb]
    exact ⟨bind_half_eq_none h, bind_half_eq_none h, bind_half_eq_none h, bind_half_eq_none h⟩
  · rw [assembleLine_eq, assembleLine_eq, tokensOf_comment line comment h]

/-- Settles O60: the line and the two words, evaluated. -/
theorem showIsStartThenWait : Obligations.ShowIsStartThenWait := by
  unfold Obligations.ShowIsStartThenWait
  decide

end Sys2Proof.Machine
end

section
/-!
PROOF. The colour functions (R101 to R107): a channel and a colour as numbers; one equation for each branch of `cycled`, from which
its laws follow; and the ring of `3v` colours that a pure channel of value `v` runs through.
-/

namespace Sys2Proof.Machine

/-! ### Colours as numbers -/

/-- `BLACK` is the colour with every channel 0 (R103). -/
theorem eq_black_iff {c : Color} : c = black ↔ c.red.toNat = 0 ∧ c.green.toNat = 0 ∧ c.blue.toNat = 0 := by
  obtain ⟨r, g, b⟩ := c
  simp [black, BitVec.toNat_eq]

theorem visible_iff {c : Color} : visible c = true ↔ 0 < c.red.toNat ∨ 0 < c.green.toNat ∨ 0 < c.blue.toNat := by
  simp [visible, BitVec.lt_def, or_assoc]

theorem unpack_red_toNat (w : Packed) : (unpack w).red.toNat = w.toNat / 65536 := by
  have := w.isLt
  simp only [unpack, BitVec.extractLsb'_toNat, Nat.shiftRight_eq_div_pow]
  omega

theorem unpack_green_toNat (w : Packed) : (unpack w).green.toNat = w.toNat / 256 % 256 := by
  simp [unpack, Nat.shiftRight_eq_div_pow]

theorem unpack_blue_toNat (w : Packed) : (unpack w).blue.toNat = w.toNat % 256 := by
  simp [unpack]

/-- A packed colour is the number whose digits in base 256 are its channels, since these are what `unpack` gives back (R102). -/
theorem pack_toNat (c : Color) : (pack c).toNat = c.red.toNat * 65536 + c.green.toNat * 256 + c.blue.toNat := by
  have hr := unpack_red_toNat (pack c)
  have hg := unpack_green_toNat (pack c)
  have hb := unpack_blue_toNat (pack c)
  rw [unpack_pack] at hr hg hb
  omega

/-! ### The branches of `cycled` (R105, R106) -/

theorem increment_eq_none {b : Byte} (h : b.toNat = 255) : increment b = none :=
  if_pos (BitVec.eq_of_toNat_eq h)

theorem increment_eq_some {b : Byte} (h : b.toNat ≠ 255) : increment b = some (b + 1) :=
  if_neg fun hb : b = 255 => h (congrArg BitVec.toNat hb)

theorem byte_add_one_toNat {b : Byte} (h : b.toNat ≠ 255) : (b + 1).toNat = b.toNat + 1 := by
  bv_omega

theorem byte_sub_one_toNat {b : Byte} (h : 0 < b.toNat) : (b - 1).toNat + 1 = b.toNat := by
  bv_omega

theorem cycled_of_red {c : Color} (h : 0 < c.red.toNat ∧ c.blue.toNat = 0) :
    cycled c = (increment c.green).map fun g => ⟨c.red - 1, g, c.blue⟩ :=
  if_pos ⟨h.1, BitVec.eq_of_toNat_eq h.2⟩

theorem cycled_of_green {c : Color} (hr : ¬ (0 < c.red.toNat ∧ c.blue.toNat = 0)) (hg : 0 < c.green.toNat) :
    cycled c = (increment c.blue).map fun b => ⟨c.red, c.green - 1, b⟩ :=
  (if_neg fun h => hr ⟨h.1, congrArg BitVec.toNat h.2⟩).trans (if_pos hg)

theorem cycled_of_blue {c : Color} (hg : ¬ 0 < c.green.toNat) (hb : 0 < c.blue.toNat) :
    cycled c = (increment c.red).map fun r => ⟨r, c.green, c.blue - 1⟩ :=
  (if_neg fun h => hb.ne' (congrArg BitVec.toNat h.2)).trans ((if_neg hg).trans (if_pos hb))

theorem cycled_black : cycled black = some black := rfl

/-- Settles O18: one equation for each branch, and whether the channel it increments holds 255. -/
theorem cycledTakesOneBranch : Obligations.CycledTakesOneBranch := by
  intro c
  split_ifs with hr hg255 hg hb255 hb hr255
  · rw [cycled_of_red hr, increment_eq_none hg255, Option.map_none]
  · rw [cycled_of_red hr, increment_eq_some hg255]
    exact ⟨_, rfl, byte_sub_one_toNat hr.1, byte_add_one_toNat hg255, rfl⟩
  · rw [cycled_of_green hr hg, increment_eq_none hb255, Option.map_none]
  · rw [cycled_of_green hr hg, increment_eq_some hb255]
    exact ⟨_, rfl, rfl, byte_sub_one_toNat hg, byte_add_one_toNat hb255⟩
  · rw [cycled_of_blue hg hb, increment_eq_none hr255, Option.map_none]
  · rw [cycled_of_blue hg hb, increment_eq_some hr255]
    exact ⟨_, rfl, byte_add_one_toNat hr255, rfl, byte_sub_one_toNat hb⟩
  · obtain rfl : c = black := eq_black_iff.mpr (by omega)
    exact cycled_black

/-! ### The channel sum, and the colours that stay (R107) -/

/-- One unit passes from a channel to another, and nothing else changes. -/
theorem channelSum_cycled {c d : Color} (h : cycled c = some d) : channelSum d = channelSum c := by
  have hc := cycledTakesOneBranch c
  simp only [h, Option.some.injEq, exists_eq_left', reduceCtorEq, BitVec.toNat_eq] at hc
  unfold channelSum
  split_ifs at hc
  · omega
  · omega
  · omega
  · rw [hc]

/-- A branch that passes a unit on changes the colour, and black alone takes none of them. -/
theorem eq_black_of_cycled_eq_self {c : Color} (h : cycled c = some c) : c = black := by
  have hc := cycledTakesOneBranch c
  simp only [h, Option.some.injEq, exists_eq_left', reduceCtorEq] at hc
  rw [eq_black_iff]
  split_ifs at hc <;> omega

/-- Overflow needs a full channel and a unit in another. -/
theorem channelSum_of_overflow {c : Color} (h : cycled c = none) : 255 < channelSum c := by
  have hc := cycledTakesOneBranch c
  simp only [h, reduceCtorEq, false_and, exists_false] at hc
  unfold channelSum
  split_ifs at hc <;> omega

theorem exists_cycledTimes (k : Nat) {c : Color} (h : channelSum c ≤ 255) : ∃ d, cycledTimes k c = some d := by
  induction k generalizing c with
  | zero => exact ⟨c, rfl⟩
  | succ k ih =>
    cases hd : cycled c with
    | none => exact absurd (channelSum_of_overflow hd) (by omega)
    | some d =>
      simp only [cycledTimes, hd]
      exact ih ((channelSum_cycled hd).trans_le h)

/-! ### The ring of a pure channel (R107) -/

/-- The colour `k` steps along the three edges from the pure red of value `v`. -/
def ringColor (v k : Nat) : Color :=
  if k ≤ v then ⟨BitVec.ofNat 8 (v - k), BitVec.ofNat 8 k, 0⟩
  else if k ≤ 2 * v then ⟨0, BitVec.ofNat 8 (2 * v - k), BitVec.ofNat 8 (k - v)⟩
  else ⟨BitVec.ofNat 8 (k - 2 * v), 0, BitVec.ofNat 8 (3 * v - k)⟩

section Ring

variable {v k : Nat}

theorem ringColor_red (h : k ≤ v) : ringColor v k = ⟨BitVec.ofNat 8 (v - k), BitVec.ofNat 8 k, 0⟩ := if_pos h

theorem ringColor_green (h : k ≤ v) : ringColor v (v + k) = ⟨0, BitVec.ofNat 8 (v - k), BitVec.ofNat 8 k⟩ := by
  unfold ringColor
  split_ifs
  · obtain rfl : k = 0 := by omega
    simp
  · congr 2 <;> omega
  · omega

theorem ringColor_blue (h : k ≤ v) : ringColor v (2 * v + k) = ⟨BitVec.ofNat 8 k, 0, BitVec.ofNat 8 (v - k)⟩ := by
  unfold ringColor
  split_ifs
  · obtain ⟨rfl, rfl⟩ : v = 0 ∧ k = 0 := by omega
    rfl
  · obtain rfl : k = 0 := by omega
    simp [two_mul]
  · congr 2 <;> omega

/-- A place on the ring is on the edge of red, of green or of blue. -/
theorem edge_cases (h : k < 3 * v) : k < v ∨ (∃ j < v, k = v + j) ∨ ∃ j < v, k = 2 * v + j := by
  obtain h1 | h1 := Nat.lt_or_ge k v
  · exact .inl h1
  obtain h2 | h2 := Nat.lt_or_ge k (2 * v)
  · exact .inr (.inl ⟨k - v, by omega, by omega⟩)
  · exact .inr (.inr ⟨k - 2 * v, by omega, by omega⟩)

theorem byte_toNat (h : k ≤ 255) : (BitVec.ofNat 8 k).toNat = k := by
  rw [BitVec.toNat_ofNat]
  omega

theorem increment_ofNat (h : k < 255) : increment (BitVec.ofNat 8 k) = some (BitVec.ofNat 8 (k + 1)) := by
  rw [increment_eq_some (by rw [byte_toNat] <;> omega)]
  congr 1
  bv_omega

theorem byte_sub_step (h : k < v) : BitVec.ofNat 8 (v - k) - 1 = BitVec.ofNat 8 (v - (k + 1)) := by
  bv_omega

theorem cycled_ringColor (hv : v ≤ 255) (h : k < 3 * v) : cycled (ringColor v k) = some (ringColor v (k + 1)) := by
  have full {j : Nat} (hj : j < v) : 0 < (BitVec.ofNat 8 (v - j)).toNat := by rw [byte_toNat] <;> omega
  obtain hk | ⟨j, hj, rfl⟩ | ⟨j, hj, rfl⟩ := edge_cases h
  · rw [ringColor_red hk.le, cycled_of_red ⟨full hk, rfl⟩, increment_ofNat (by omega), byte_sub_step hk, ringColor_red hk]
    rfl
  · rw [ringColor_green hj.le, cycled_of_green (by simp) (full hj), increment_ofNat (by omega), byte_sub_step hj,
      Nat.add_assoc, ringColor_green hj]
    rfl
  · rw [ringColor_blue hj.le, cycled_of_blue (by simp) (full hj), increment_ofNat (by omega), byte_sub_step hj,
      Nat.add_assoc, ringColor_blue hj]
    rfl

theorem cycledTimes_ringColor (hv : v ≤ 255) {j : Nat} (h : j + k ≤ 3 * v) :
    cycledTimes k (ringColor v j) = some (ringColor v (j + k)) := by
  induction k generalizing j with
  | zero => rfl
  | succ k ih =>
    rw [cycledTimes, cycled_ringColor hv (by omega), Nat.add_comm k, ← Nat.add_assoc]
    exact ih (by omega)

/-- The ring closes after its three edges. -/
theorem ringColor_end (v : Nat) : ringColor v (3 * v) = ringColor v 0 := by
  rw [show 3 * v = 2 * v + v by omega, ringColor_blue le_rfl, ringColor_red v.zero_le, Nat.sub_self]
  rfl

theorem ringColor_ne_start (hv : v ≤ 255) (h0 : 0 < k) (h : k < 3 * v) : ringColor v k ≠ ringColor v 0 := by
  rw [ringColor_red v.zero_le]
  obtain hk | ⟨j, hj, rfl⟩ | ⟨j, hj, rfl⟩ := edge_cases h
  · rw [ringColor_red hk.le, ne_eq, Color.mk.injEq]
    bv_omega
  · rw [ringColor_green hj.le, ne_eq, Color.mk.injEq]
    bv_omega
  · rw [ringColor_blue hj.le, ne_eq, Color.mk.injEq]
    bv_omega

theorem cycledTimes_add (m n : Nat) (c : Color) : cycledTimes (m + n) c = (cycledTimes m c).bind (cycledTimes n) := by
  induction m generalizing c with
  | zero => rw [Nat.zero_add]; rfl
  | succ m ih =>
    rw [Nat.succ_add, cycledTimes, cycledTimes]
    cases cycled c with
    | none => rfl
    | some d => exact ih d

/-- What `k` steps bring back stays so along its way. -/
theorem cycledTimes_returns {n : Nat} {c d : Color} (hd : cycledTimes n c = some d) (hc : cycledTimes k c = some c) :
    cycledTimes k d = some d := by
  calc cycledTimes k d = cycledTimes (n + k) c := by rw [cycledTimes_add, hd, Option.bind_some]
    _ = cycledTimes (k + n) c := by rw [Nat.add_comm]
    _ = some d := by rw [cycledTimes_add, hc, Option.bind_some, hd]

/-- Every colour of the ring comes back after `3v` steps and not before: the start does, and it reaches and is reached by them all. -/
theorem ringColor_closure (hv : v ≤ 255) {j : Nat} (hj : j ≤ 3 * v) :
    cycledTimes (3 * v) (ringColor v j) = some (ringColor v j) ∧
      ∀ k, 0 < k → k < 3 * v → cycledTimes k (ringColor v j) ≠ some (ringColor v j) := by
  have reached : cycledTimes j (ringColor v 0) = some (ringColor v j) := by
    rw [cycledTimes_ringColor hv (by omega), Nat.zero_add]
  have reaches : cycledTimes (3 * v - j) (ringColor v j) = some (ringColor v 0) := by
    rw [cycledTimes_ringColor hv (by omega), Nat.add_sub_cancel' hj, ringColor_end]
  refine ⟨cycledTimes_returns reached ?_, fun k h0 hk hback => ?_⟩
  · rw [cycledTimes_ringColor hv (by omega), Nat.zero_add, ringColor_end]
  · have hstart := cycledTimes_returns reaches hback
    rw [cycledTimes_ringColor hv (by omega), Nat.zero_add] at hstart
    exact ringColor_ne_start hv h0 hk (Option.some.inj hstart)

theorem cycledTimes_edges (hv : v ≤ 255) (hk : k ≤ v) :
    cycledTimes k ⟨BitVec.ofNat 8 v, 0, 0⟩ = some ⟨BitVec.ofNat 8 (v - k), BitVec.ofNat 8 k, 0⟩ ∧
    cycledTimes (v + k) ⟨BitVec.ofNat 8 v, 0, 0⟩ = some ⟨0, BitVec.ofNat 8 (v - k), BitVec.ofNat 8 k⟩ ∧
    cycledTimes (2 * v + k) ⟨BitVec.ofNat 8 v, 0, 0⟩ = some ⟨BitVec.ofNat 8 k, 0, BitVec.ofNat 8 (v - k)⟩ := by
  have run {n : Nat} (h : n ≤ 3 * v) : cycledTimes n ⟨BitVec.ofNat 8 v, 0, 0⟩ = some (ringColor v n) := by
    have := cycledTimes_ringColor hv (j := 0) (k := n) (by omega)
    rwa [Nat.zero_add] at this
  rw [run (by omega), run (by omega), run (by omega), ringColor_red hk, ringColor_green hk, ringColor_blue hk]
  exact ⟨rfl, rfl, rfl⟩

end Ring

/-! ### The statements -/

/-- Settles O19: the sum by the branches of `cycled`, the edges and the closure length by the ring of the pure channel. -/
theorem cycledLaws : Obligations.CycledLaws := by
  refine ⟨fun _ _ => channelSum_cycled, fun _ k => exists_cycledTimes k, cycledTimes_edges (v := 255) le_rfl le_rfl,
    fun v k _ hv hk => cycledTimes_edges hv hk, fun c v _ hv hc => ?_, fun c => ⟨eq_black_of_cycled_eq_self, fun h => h ▸ cycled_black⟩⟩
  obtain rfl | rfl | rfl := hc
  · exact ringColor_closure hv (Nat.zero_le _)
  · have := ringColor_closure hv (j := v) (by omega)
    rwa [ringColor_red le_rfl, Nat.sub_self] at this
  · have := ringColor_closure hv (j := 2 * v) (by omega)
    rwa [← Nat.add_zero (2 * v), ringColor_blue v.zero_le, Nat.sub_zero] at this

/-- Settles O17: the channels are the digits of the packed number, and the two maps undo each other. -/
theorem packAndUnpackAreInverse : Obligations.PackAndUnpackAreInverse :=
  ⟨fun w => ⟨unpack_red_toNat w, unpack_green_toNat w, unpack_blue_toNat w⟩,
    fun w => by rw [unpack32, BitVec.setWidth_eq_extractLsb' (by omega)],
    pack_toNat, pack_unpack, unpack_pack⟩

/-- Settles O16: the test of the channels, and black as the colour that fails it. -/
theorem visibleMeansNotBlack : Obligations.VisibleMeansNotBlack := by
  refine ⟨fun c => visible_iff, fun c => ?_, rfl, rfl, by decide⟩
  rw [visible_iff, ne_eq, eq_black_iff]
  omega

end Sys2Proof.Machine
end

section
/-!
PROOF. Direct access by physical index and the whole-buffer effects in `Ready` (R110 to R116): what `visible` and `cycledAll` say of
a buffer, and with it what each command answers.
-/

namespace Sys2Proof.Machine

variable {s : State} {c : Color} {cs : List Color}

/-! ### Visible elements (R103, R114, R116) -/

theorem visible_iff_ne_black : visible c = true ↔ c ≠ black := by
  obtain ⟨-, h, -⟩ := visibleMeansNotBlack
  exact h c

/-- An element after `ACTIVE`, by whether it was black (R114). -/
theorem recolor_eq_ite (color d : Color) : recolor color d = if d = black then black else color := by
  unfold recolor
  by_cases hd : d = black
  · rw [if_neg (fun hv => visible_iff_ne_black.mp hv hd), if_pos hd, hd]
  · rw [if_pos (visible_iff_ne_black.mpr hd), if_neg hd]

theorem find?_visible_of_all_black (h : ∀ c ∈ cs, c = black) : cs.find? visible = none :=
  List.find?_eq_none.mpr fun c hc hv => visible_iff_ne_black.mp hv (h c hc)

/-- The element with only black ones before it, where it is not black itself (R116). -/
theorem find?_visible_of_black_before {j : Nat} (hj : cs[j]? = some c) (hc : c ≠ black)
    (hblack : ∀ k : Nat, k < j → cs[k]? = some black) : cs.find? visible = some c := by
  obtain ⟨hlt, hget⟩ := List.getElem?_eq_some_iff.mp hj
  refine List.find?_eq_some_iff_getElem.mpr ⟨visible_iff_ne_black.mpr hc, j, hlt, hget, fun k hk => ?_⟩
  obtain ⟨_, hkblack⟩ := List.getElem?_eq_some_iff.mp (hblack k hk)
  rw [hkblack]
  rfl

/-! ### `cycled` of a whole buffer (R115) -/

theorem cycledAll_cons (c : Color) (cs : List Color) :
    cycledAll (c :: cs) = (cycled c).bind fun c' => (cycledAll cs).map (c' :: ·) := by
  rw [cycledAll]
  cases cycled c <;> cases cycledAll cs <;> rfl

/-- One element that overflows leaves no new buffer. -/
theorem cycledAll_eq_none (hc : c ∈ cs) (h : cycled c = none) : cycledAll cs = none := by
  induction cs with
  | nil => cases hc
  | cons d ds ih =>
    rw [cycledAll_cons]
    obtain rfl | hc := List.mem_cons.mp hc
    · rw [h, Option.bind_none]
    · rw [ih hc]
      exact Option.bind_fun_none _

/-- Where none overflows, the new buffer is `cycled` of the old one element by element. -/
theorem exists_cycledAll (h : ∀ c ∈ cs, cycled c ≠ none) :
    ∃ ds, cycledAll cs = some ds ∧ ∀ j : Nat, ds[j]? = (cs[j]?).bind cycled := by
  induction cs with
  | nil => exact ⟨[], rfl, fun _ => rfl⟩
  | cons c cs ih =>
    obtain ⟨hc, hcs⟩ := List.forall_mem_cons.mp h
    obtain ⟨d, hd⟩ := Option.ne_none_iff_exists'.mp hc
    obtain ⟨ds, hds, hget⟩ := ih hcs
    refine ⟨d :: ds, by rw [cycledAll_cons, hd, hds]; rfl, fun j => ?_⟩
    cases j with
    | zero => exact hd.symm
    | succ j => exact hget j

/-! ### The commands in `Ready` -/

theorem writeAt_of_ge {i : Nat} (h : s.numElements.toNat ≤ i) (c : Color) :
    writeAt s (i : Int) c = .next (s.raised .indexOutOfRange) := whenInRange_of_not_mem (by omega) _

theorem readAt_of_ge {i : Nat} (h : s.numElements.toNat ≤ i) :
    readAt s (i : Int) = .next (s.raised .indexOutOfRange) := whenInRange_of_not_mem (by omega) _

theorem exec_setall_of_ready (hr : s.life = .ready) (c : Color) : exec (.setall c) s = fill s c := whenReady_of_ready hr _

theorem exec_clear_of_ready (hr : s.life = .ready) : exec .clear s = fill s black := whenReady_of_ready hr _

theorem exec_active_of_ready (hr : s.life = .ready) (c : Color) :
    exec (.active c) s = .next ({ s with buf := s.buf.map (recolor c) }.answer [okWord]) := whenReady_of_ready hr _

theorem exec_firstvis_of_ready (hr : s.life = .ready) : exec .firstvis s = .next (s.answer [firstVisibleWord s.buf]) :=
  whenReady_of_ready hr _

theorem exec_cycle_of_overflow (hr : s.life = .ready) (h : cycledAll s.buf = none) :
    exec .cycle s = .next (s.raised .channelOverflow) :=
  (whenReady_of_ready hr _).trans (by rw [h, raise_eq])

theorem exec_cycle_of_some (hr : s.life = .ready) (h : cycledAll s.buf = some cs) :
    exec .cycle s = .next ({ s with buf := cs }.answer [okWord]) :=
  (whenReady_of_ready hr _).trans (by rw [h])

/-! ### The statements -/

/-- Settles O29: the map of `ACTIVE` tests each element on its own old value, by `recolor_eq_ite`. -/
theorem activeRecolorsVisibleElements : Obligations.ActiveRecolorsVisibleElements := by
  intro c s hr
  rw [exec_active_of_ready hr, okWord_eq, funext (recolor_eq_ite c)]

/-- Settles O30: an element that overflows leaves `cycledAll` without a value, and without one it is `cycled` of each element. -/
theorem cycleStepsEveryElementOrNone : Obligations.CycleStepsEveryElementOrNone := by
  intro s hr
  constructor
  · rintro ⟨c, hc, hover⟩
    exact exec_cycle_of_overflow hr (cycledAll_eq_none hc hover)
  · intro h
    obtain ⟨b, hb, hget⟩ := exists_cycledAll h
    exact ⟨b, okWord_eq ▸ exec_cycle_of_some hr hb, cycledAll_length hb, hget⟩

/-- Settles O31: the search in physical index order finds nothing in a black buffer, and else the one with only black before it. -/
theorem firstvisFindsTheFirstVisible : Obligations.FirstvisFindsTheFirstVisible := by
  intro s hr
  rw [exec_firstvis_of_ready hr, firstVisibleWord]
  constructor
  · intro h
    rw [find?_visible_of_all_black h, okWord_eq]
  · intro j c hj hc hblack
    rw [find?_visible_of_black_before hj hc hblack]

/-- Settles O26: the two sides of the range check of a write. -/
theorem setledWritesOneElement : Obligations.SetledWritesOneElement := by
  intro i c s hr
  rw [exec_setled_of_ready hr]
  exact ⟨fun hge => writeAt_of_ge hge c, fun hlt hb => okWord_eq ▸ writeAt_of_lt hlt hb c⟩

/-- Settles O27: the two sides of the range check of a read. -/
theorem getledReadsOneElement : Obligations.GetledReadsOneElement := by
  intro i s hr
  rw [exec_getled_of_ready hr]
  exact ⟨readAt_of_ge, readAt_of_lt⟩

/-- Settles O28: both commands are `fill`, `CLEAR` with black. -/
theorem clearAndSetallFillTheBuffer : Obligations.ClearAndSetallFillTheBuffer := by
  intro c s hr
  rw [exec_setall_of_ready hr, exec_clear_of_ready hr, ← okWord_eq]
  exact ⟨rfl, rfl⟩

end Sys2Proof.Machine
end

section
/-!
PROOF. The index function (R130 to R134): its two formulas and what relates them, the grid and the buffer as one set of places, and
the range of the index of 16-bit coordinates.
-/

namespace Sys2Proof.Machine

variable {topo : Topo} {w n : Half} {x y x' y' p : Nat}

/-! ### The two formulas (R130, R133) -/

/-- A row is counted straight on or reversed (R130). -/
theorem straight_or_reversed (topo : Topo) (y : Nat) :
    (topo ≠ .serpentine ∨ y % 2 = 0) ∨ (topo = .serpentine ∧ y % 2 = 1) := by
  by_cases ht : topo = .serpentine
  · rcases Nat.mod_two_eq_zero_or_one y with hy | hy
    · exact .inl (.inr hy)
    · exact .inr ⟨ht, hy⟩
  · exact .inl (.inl ht)

theorem index_linear (w : Half) (x y : Nat) : index .linear w x y = (y : Int) * (w.toNat : Int) + (x : Int) :=
  index_straight (.inl (by decide)) w x

theorem index_serpentine_even (hy : y % 2 = 0) (w : Half) (x : Nat) : index .serpentine w x y = index .linear w x y := by
  rw [index_straight (.inr hy), index_linear]

/-- A reversed row is the row-major row with the column mirrored (R133). -/
theorem index_serpentine_odd (hy : y % 2 = 1) (hx : x < w.toNat) :
    index .serpentine w x y = index .linear w (w.toNat - 1 - x) y := by
  rw [index_reversed hy, index_linear]
  omega

/-- In one column there is nothing to reverse (R133). -/
theorem index_of_width_one (topo : Topo) (hw : w.toNat = 1) (hx : x < 1) (y : Nat) : index topo w x y = (y : Int) := by
  obtain ⟨x', hx', hindex, -⟩ := index_grid topo w y (hx.trans_eq hw.symm)
  rw [hindex, hw]
  omega

/-! ### Places in the grid (R134) -/

/-- A place is known by its row-major number. -/
theorem place_of_row_major {width : Nat} (hx : x < width) (hx' : x' < width) (h : y * width + x = y' * width + x') :
    x = x' ∧ y = y' := by
  obtain ⟨hdiv, hmod⟩ := row_div_mod (q := y) hx
  obtain ⟨hdiv', hmod'⟩ := row_div_mod (q := y') hx'
  rw [h] at hdiv hmod
  exact ⟨hmod.symm.trans hmod', hdiv.symm.trans hdiv'⟩

/-- The index stays in its row and reversing a row twice gives it back (`index_grid`), so equal indices are of one place. -/
theorem index_injective (hx : x < w.toNat) (hx' : x' < w.toNat) (h : index topo w x y = index topo w x' y') :
    x = x' ∧ y = y' := by
  obtain ⟨a, ha, hindex, hback⟩ := index_grid topo w y hx
  obtain ⟨a', ha', hindex', hback'⟩ := index_grid topo w y' hx'
  rw [hindex, hindex'] at h
  obtain ⟨rfl, rfl⟩ := place_of_row_major ha ha' (by exact_mod_cast h)
  rw [hback] at hback'
  exact place_of_row_major hx hx' (by exact_mod_cast hback')

/-- A place in the grid has an element of the buffer. -/
theorem index_in_buffer (topo : Topo) (hn : n.toNat % w.toNat = 0) (hx : x < w.toNat) (hy : y < n.toNat / w.toNat) :
    0 ≤ index topo w x y ∧ index topo w x y < (n.toNat : Int) := by
  obtain ⟨a, ha, hindex, -⟩ := index_grid topo w y hx
  have hlt : y * w.toNat + a < n.toNat := row_base_lt hn hy ha
  rw [hindex]
  omega

/-- An element of the buffer is that of one place in the grid: the place of the position `phys` sends to it. -/
theorem place_of_element (topo : Topo) (hw : 1 ≤ w.toNat) (hn : n.toNat % w.toNat = 0) (hp : p < n.toNat) :
    ∃! q : Nat × Nat, q.1 < w.toNat ∧ q.2 < n.toNat / w.toNat ∧ index topo w q.1 q.2 = (p : Int) := by
  obtain ⟨q, hq, -, hphys⟩ := phys_involutive topo hw hn hp
  have hcol : q % w.toNat < w.toNat := Nat.mod_lt q hw
  refine ⟨(q % w.toNat, q / w.toNat), ⟨hcol, row_lt hn hq, hphys⟩, ?_⟩
  rintro ⟨x, y⟩ ⟨hx, -, hindex⟩
  obtain ⟨hxq, hyq⟩ := index_injective hx hcol (hindex.trans hphys.symm)
  exact Prod.ext hxq hyq

theorem phys_straight (h : topo ≠ .serpentine ∨ p / w.toNat % 2 = 0) : phys topo w p = (p : Int) := by
  rw [phys, index_straight h]
  exact_mod_cast Nat.div_add_mod' p w.toNat

theorem phys_reversed (hw : 1 ≤ w.toNat) (h : p / w.toNat % 2 = 1) :
    phys .serpentine w p = ((p / w.toNat * w.toNat + (w.toNat - 1 - p % w.toNat) : Nat) : Int) := by
  rw [phys, index_serpentine_odd h (Nat.mod_lt p hw), index_linear]
  push_cast
  rfl

/-! ### 16-bit coordinates (R132) -/

theorem row_of_halves_le (y w : Half) : y.toNat * w.toNat ≤ 65535 * 65535 :=
  Nat.mul_le_mul (Nat.le_of_lt_succ y.isLt) (Nat.le_of_lt_succ w.isLt)

theorem index_straight_bounds {x y : Half} (h : topo ≠ .serpentine ∨ y.toNat % 2 = 0) (w : Half) :
    0 ≤ index topo w x.toNat y.toNat ∧ index topo w x.toNat y.toNat ≤ 4294901760 := by
  have hx := x.isLt
  have hrow := row_of_halves_le y w
  rw [index_straight h, ← Nat.cast_mul]
  omega

/-- A reversed row is not the first, so its base is `W` or more. -/
theorem index_reversed_bounds {x y : Half} (hy : y.toNat % 2 = 1) (hw : 1 ≤ w.toNat) :
    -65534 ≤ index .serpentine w x.toNat y.toNat ∧ index .serpentine w x.toNat y.toNat ≤ 4294901760 ∧
      (index .serpentine w x.toNat y.toNat < 0 ↔ y.toNat * w.toNat + w.toNat - 1 < x.toNat) := by
  have hx := x.isLt
  have hwlt := w.isLt
  have hrow := row_of_halves_le y w
  have hbase : 1 * w.toNat ≤ y.toNat * w.toNat := Nat.mul_le_mul_right _ (by omega)
  rw [index_reversed hy, ← Nat.cast_mul]
  omega

/-! ### The statements -/

/-- Settles O20: the two formulas, by which rows they count. -/
theorem indexFollowsTheFormulas : Obligations.IndexFollowsTheFormulas :=
  ⟨index_linear, fun w x _ => index_straight (.inl (by decide)) w x, fun w x _ hy => index_straight (.inr hy) w x,
    fun w x _ hy => index_reversed hy w x⟩

/-- Settles O21: injectivity is `index_injective`, the rest the formulas of a straight and of a reversed row. -/
theorem indexRelations : Obligations.IndexRelations := by
  refine ⟨fun topo w x y x' y' hx hx' h => index_injective hx hx' h, fun w x y hx => ?_, fun topo topo' w x y hw hx => ?_⟩
  · exact ⟨index_linear w x y, fun hy => index_serpentine_even hy w x,
      fun hy => ⟨index_reversed hy w x, index_serpentine_odd hy hx⟩⟩
  · rw [index_of_width_one topo hw hx, index_of_width_one topo' hw hx]

/-- Settles O22: `index_in_buffer` and `place_of_element` are the bijection, `phys_involutive` the permutation. -/
theorem indexIsABijection : Obligations.IndexIsABijection := by
  intro topo w n hw hn
  refine ⟨fun x y hx hy => index_in_buffer topo hn hx hy, fun i hi => place_of_element topo hw hn hi, fun p hp => ?_⟩
  obtain ⟨q, hq, hphys, hback⟩ := phys_involutive topo hw hn hp
  refine ⟨?_, ?_, ?_, phys_straight, ?_⟩
  · omega
  · omega
  · rw [hphys, Int.toNat_natCast, hback]
  · rintro rfl hrow
    exact phys_reversed hw hrow

/-- Settles O23: a straight row is never negative, and on a reversed one the base is at least `W` (`index_reversed_bounds`). -/
theorem indexStaysWithinThirtyThreeBits : Obligations.IndexStaysWithinThirtyThreeBits := by
  refine ⟨fun topo w x y hw => ?_, by decide, by decide⟩
  rcases straight_or_reversed topo y.toNat with hs | ⟨rfl, hy⟩
  · obtain ⟨h0, hmax⟩ := index_straight_bounds (x := x) hs w
    refine ⟨by omega, hmax, fun hneg => absurd hneg (by omega), fun ⟨ht, hy, _⟩ => ?_⟩
    rcases hs with hs | hs
    · exact absurd ht hs
    · omega
  · obtain ⟨hmin, hmax, hneg⟩ := index_reversed_bounds (x := x) hy hw
    exact ⟨hmin, hmax, by rw [hneg]; simp [hy]⟩

end Sys2Proof.Machine
end

section
/-!
PROOF. The commands that go through the index function in `Ready` (R135 to R139): the two on one element, and the two on a whole
frame, which write and read the frame the buffer holds (`State.HoldsFrame`).
-/

namespace Sys2Proof.Machine

variable {s : State} {c : Color} {g g' : List Color}

/-! ### One element -/

/-- Settles O32: the two sides of the range check of a write. -/
theorem setxyWritesTheTranslatedElement : Obligations.SetxyWritesTheTranslatedElement := by
  intro x y c s hr
  rw [exec_setxy_of_ready hr]
  refine ⟨fun hout => whenInRange_of_not_mem hout _, fun i hi hn hb => ?_⟩
  rw [hi, writeAt_of_lt hn hb, okWord_eq]

/-- Settles O33: the two sides of the range check of a read. -/
theorem getxyReadsTheTranslatedElement : Obligations.GetxyReadsTheTranslatedElement := by
  intro x y s hr
  rw [exec_getxy_of_ready hr]
  refine ⟨fun hout => whenInRange_of_not_mem hout _, fun i hi hn hb => ?_⟩
  rw [hi]
  exact readAt_of_lt hn hb

theorem readAt_of_elem {i : Int} (h0 : 0 ≤ i) (hn : i < (s.numElements.toNat : Int)) (h : readElem s.buf i = some c) :
    readAt s i = .next (s.answer [colorWord c]) := by
  rw [readAt, whenInRange_of_mem h0 hn, h]

/-! ### The frame a buffer holds -/

/-- The buffer holds the frame: `buf[phys(p)]` is its `p`-th colour for every position (R137, R138). -/
def State.HoldsFrame (s : State) (g : List Color) : Prop :=
  g.length = s.numElements.toNat ∧
    ∀ p : Nat, p < s.numElements.toNat → readElem s.buf (phys s.topo s.width p) = g[p]?

/-- A buffer holds one frame. -/
theorem State.HoldsFrame.unique (h : s.HoldsFrame g) (h' : s.HoldsFrame g') : g = g' := by
  obtain ⟨hlen, hread⟩ := h
  obtain ⟨hlen', hread'⟩ := h'
  refine List.ext_getElem? fun p => ?_
  by_cases hp : p < s.numElements.toNat
  · rw [← hread p hp, ← hread' p hp]
  · rw [List.getElem?_eq_none (by omega), List.getElem?_eq_none (by omega)]

/-- Colour `y * W + x` of the frame is the element at `(x, y)` (R138). -/
theorem State.HoldsFrame.at_place (h : s.HoldsFrame g) (hdvd : s.numElements.toNat % s.width.toNat = 0) {x y : Nat}
    (hx : x < s.width.toNat) (hy : y < s.numElements.toNat / s.width.toNat) :
    readElem s.buf (index s.topo s.width x y) = g[y * s.width.toNat + x]? := by
  obtain ⟨-, hread⟩ := h
  rw [← phys_of_grid s.topo y hx, hread _ (row_base_lt hdvd hy hx)]

/-! ### `GETFRAME` -/

theorem colorWord_injective : Function.Injective colorWord := fun c d h => by
  have hpack : pack c = pack d := by
    rw [← rspWord_data .ok true (pack c), ← rspWord_data .ok true (pack d)]
    exact congrArg (·.extractLsb' 0 24) h
  rw [← unpack_pack c, hpack, unpack_pack]

/-- The words of a `GETFRAME` say which colours were read. -/
theorem colors_of_answer {w : RspWord}
    (h : s.answer (w :: g.map colorWord) = s.answer (w :: g'.map colorWord)) : g = g' := by
  have hwords : s.rspOut ++ w :: g.map colorWord = s.rspOut ++ w :: g'.map colorWord := congrArg State.rspOut h
  obtain ⟨-, hcolors⟩ := List.cons.inj (List.append_cancel_left hwords)
  exact List.map_injective_iff.mpr colorWord_injective hcolors

/-- Under the invariant the buffer holds a frame, and `GETFRAME` answers it (R138). -/
theorem State.Inv.getframe_reads (h : s.Inv) (hr : s.life = .ready) :
    ∃ g, s.HoldsFrame g ∧ exec .getframe s = .next (s.answer (countWord s.numElements :: g.map colorWord)) := by
  obtain ⟨-, -, hw, -, hdvd, -, hbuf⟩ := h.configInv hr
  obtain ⟨g, hg, hlen, hread⟩ := readFrame_spec s.topo hw hdvd hbuf s.numElements.toNat 0 (Nat.zero_add _).le
  refine ⟨g, ⟨hlen, fun p hp => ?_⟩, (whenReady_of_ready hr _).trans (by rw [hg])⟩
  rw [hread p hp, Nat.zero_add]

/-- The frame `GETFRAME` answers is the one the buffer holds. -/
theorem State.Inv.getframe_answers_iff (h : s.Inv) (hr : s.life = .ready) :
    exec .getframe s = .next (s.answer (countWord s.numElements :: g.map colorWord)) ↔ s.HoldsFrame g := by
  obtain ⟨f, hf, hexec⟩ := h.getframe_reads hr
  constructor
  · intro hg
    rw [hexec, Host.Outcome.next.injEq] at hg
    rwa [← colors_of_answer hg]
  · intro hg
    rwa [hg.unique hf]

/-- Settles O37: the colours are those of `State.Inv.getframe_reads`, by position and by place in the grid. -/
theorem getframeReadsTheLogicalFrame : Obligations.GetframeReadsTheLogicalFrame := by
  intro s hr h
  obtain ⟨-, -, -, -, hdvd, -, -⟩ := h.configInv hr
  obtain ⟨g, hg, hexec⟩ := h.getframe_reads hr
  have ⟨hlen, hread⟩ := hg
  exact ⟨g, hexec, hlen, fun p hp => (hread p hp).symm, fun x y hx hy => (hg.at_place hdvd hx hy).symm⟩

/-! ### `SETFRAME` -/

/-- The last payload word completes its `SETFRAME`, legal or not by the words before it (R76, R80). -/
theorem exec_payload_last {rx : FrameRx} (hp : s.port = .frame rx) (hl : rx.left = 1) (c : Color) :
    exec (.payload c) s = finishFrame (rx.got ++ [c]) rx.legal { s with port := .ready } :=
  (takePayload_last hp hl.le c true).trans (by rw [Bool.and_true])

/-- Settles O36: the last word is `finishFrame`, in its cases. -/
theorem setframeWritesTheLogicalFrame : Obligations.SetframeWritesTheLogicalFrame := by
  intro c s rx hp hl
  have hexec := exec_payload_last hp hl c
  have hlen : (rx.got ++ [c]).length = rx.got.length + 1 := List.length_append
  refine ⟨fun hlegal => ?_, fun hlegal hr hn => ?_, fun hlegal hr h hn => ?_⟩
  · rw [hexec, hlegal, finishFrame_of_illegal]
  · rw [hexec, hlegal]
    exact finishFrame_of_mismatch (s := { s with port := .ready }) hr (hlen.trans_ne hn)
  · obtain ⟨b, hfinish, hb, hread⟩ := (h.withPort (p := .ready) rfl).finishFrame_writes hr (hlen.trans hn)
    rw [hexec, hlegal]
    exact ⟨b, hfinish, hb, hread⟩

/-- After a `SETFRAME` the buffer holds its frame, and the invariant still holds. -/
theorem State.Inv.finishFrame_holds (h : s.Inv) (hr : s.life = .ready) (hn : g.length = s.numElements.toNat) :
    ∃ b : List Color, finishFrame g true s = .next ({ s with buf := b }.answer [0]) ∧
      State.Inv ({ s with buf := b }.answer [0]) ∧ State.HoldsFrame ({ s with buf := b }.answer [0]) g := by
  obtain ⟨b, hfinish, hb, hread⟩ := h.finishFrame_writes hr hn
  exact ⟨b, hfinish, (h.withBuf fun _ => hb).answer _, hn, hread⟩

/-- Writing the frame that the buffer holds leaves it as it was (R139). -/
theorem State.Inv.finishFrame_of_held (h : s.Inv) (hr : s.life = .ready) (hg : s.HoldsFrame g) :
    finishFrame g true s = .next (s.answer [0]) := by
  obtain ⟨-, -, hw, -, hdvd, -, hbuf⟩ := h.configInv hr
  obtain ⟨hlen, hread⟩ := hg
  obtain ⟨b, hfinish, hb, hreadb⟩ := h.finishFrame_writes hr hlen
  have hsame : b = s.buf := buf_ext s.topo hw hdvd hb hbuf fun p hp => (hreadb p hp).trans (hread p hp).symm
  rw [hfinish, hsame]

/-- `GETXY` in the grid answers its colour of the frame that the buffer holds (R139). -/
theorem State.Inv.getxy_of_held (h : s.Inv) (hr : s.life = .ready) (hg : s.HoldsFrame g) {x y : Half}
    (hx : x.toNat < s.width.toNat) (hy : y.toNat < s.numElements.toNat / s.width.toNat)
    (hc : g[y.toNat * s.width.toNat + x.toNat]? = some c) :
    exec (.getxy x y) s = .next (s.answer [colorWord c]) := by
  obtain ⟨-, -, -, -, hdvd, -, -⟩ := h.configInv hr
  obtain ⟨h0, hn⟩ := index_in_buffer s.topo hdvd hx hy
  rw [exec_getxy_of_ready hr]
  exact readAt_of_elem h0 hn ((hg.at_place hdvd hx hy).trans hc)

/-- Settles O38: `SETFRAME` makes the buffer hold the frame, `GETFRAME` and `GETXY` read the frame it holds, and writing that frame
again changes nothing. -/
theorem frameRoundTrip : Obligations.FrameRoundTrip := by
  constructor
  · intro s frame hr h hn
    obtain ⟨b, hfinish, hinv, hheld⟩ := h.finishFrame_holds hr hn
    exact ⟨_, hfinish, (hinv.getframe_answers_iff hr).mpr hheld,
      fun x y c hx hy hc => hinv.getxy_of_held hr hheld hx hy hc⟩
  · intro s g hr h hread
    exact h.finishFrame_of_held hr ((h.getframe_answers_iff hr).mp hread)

end Sys2Proof.Machine
end

section
/-!
PROOF. Construction and release (R150, R154, R155, R187): `CONFIG` and `CLEANUP` by the branches of their checks, what every other
command does where the lifecycle does not allow it, and the lifecycle after each.
-/

namespace Sys2Proof.Machine

variable {i : Instr} {s t : State} {n w : Half} {topo : Topo} {ts : List Turn}

/-! ### `CONFIG` -/

theorem exec_config_of_configured (hl : s.life ≠ .unconfigured) (n w : Half) (topo : Topo) (chip : Chip) :
    exec (.config n w topo chip) s = .next (s.raised .invalidState) := if_pos hl

theorem exec_config_of_bad (hl : s.life = .unconfigured) (hb : badTopology s.nmax n w topo = true) (chip : Chip) :
    exec (.config n w topo chip) s = .next (s.raised .invalidTopologyConfiguration) := by
  rw [exec, execConfig, if_neg (not_not.mpr hl), if_pos hb, raise_eq]

theorem exec_config_of_good (hl : s.life = .unconfigured) (hb : badTopology s.nmax n w topo = false) (chip : Chip) :
    exec (.config n w topo chip) s = .next ({ s with
      numElements := n, topo := topo, chip := chip, width := effectiveWidth n w topo,
      buf := List.replicate n.toNat black, life := .ready }.answer [okWord]) := by
  rw [exec, execConfig, if_neg (not_not.mpr hl), if_neg (Bool.eq_false_iff.mp hb)]

/-- What `CONFIG` refuses (R150, R185). -/
theorem badTopology_eq_true {nmax : Nat} :
    badTopology nmax n w topo = true ↔ n = 0 ∨ nmax < n.toNat ∨ (topo ≠ .linear ∧ (w = 0 ∨ n.toNat % w.toNat ≠ 0)) := by
  simp [badTopology, or_assoc]

/-- Settles O24: the three branches of `CONFIG`, by its two checks. -/
theorem configConstructs : Obligations.ConfigConstructs := by
  refine fun n w topo chip s =>
    ⟨fun hl => exec_config_of_configured hl n w topo chip, fun hl => ⟨fun hbad => ?_, fun hn hmax hw => ?_⟩⟩
  · exact exec_config_of_bad hl (badTopology_eq_true.mpr hbad) chip
  · rw [← okWord_eq]
    exact exec_config_of_good hl (badTopology_eq_false.mpr ⟨hn, hmax, hw⟩) chip

/-! ### `CLEANUP` -/

theorem exec_cleanup_of_busy (hr : s.life = .ready) (hb : s.txPhase ≠ .idle) :
    exec .cleanup s = .next (s.raised .busy) := (whenReady_of_ready hr _).trans (whenIdle_of_busy hb _)

theorem exec_cleanup_of_idle (hr : s.life = .ready) (hi : s.txPhase = .idle) :
    exec .cleanup s = .next ({ s with life := .released }.answer [okWord]) :=
  (whenReady_of_ready hr _).trans (whenIdle_of_idle hi _)

/-! ### A lifecycle state that does not allow the command (R187) -/

/-- Outside `Ready` every command but `CONFIG` raises `InvalidState`, `SETFRAME` at its last word only. -/
theorem exec_of_not_ready (hl : s.life ≠ .ready) (hc : ∀ n w topo chip, i ≠ .config n w topo chip)
    (hf : ∀ count, i ≠ .setframe count) (hp : ∀ c, i ≠ .payload c) : exec i s = .next (s.raised .invalidState) := by
  cases i with
  | config => exact absurd rfl (hc _ _ _ _)
  | setframe => exact absurd rfl (hf _)
  | payload => exact absurd rfl (hp _)
  | _ => exact whenReady_of_not_ready hl _

/-- In `Released` `CONFIG` does so too. -/
theorem exec_of_released (hl : s.life = .released) (hf : ∀ count, i ≠ .setframe count) (hp : ∀ c, i ≠ .payload c) :
    exec i s = .next (s.raised .invalidState) := by
  cases i with
  | config n w topo chip => exact exec_config_of_configured (by simp [hl]) n w topo chip
  | _ => exact exec_of_not_ready (by simp [hl]) (by simp) hf hp

/-- Settles O25: `CLEANUP` by its two checks, and `Released` allows no command. -/
theorem cleanupReleases : Obligations.CleanupReleases := by
  refine fun s => ⟨fun hl => whenReady_of_not_ready hl _, exec_cleanup_of_busy, fun hr hi => ?_, fun hl i => exec_of_released hl,
    fun hl => finishFrame_of_not_ready (by simp [hl])⟩
  rw [← okWord_eq]
  exact exec_cleanup_of_idle hr hi

/-! ### The lifecycle after a command (R155) -/

/-- An answer that is known is the one given. -/
theorem eq_of_exec {u : State} (h : exec i s = .next t) (hu : exec i s = .next u) : t = u :=
  Host.Outcome.next.inj (h.symm.trans hu)

/-- Outside `Ready` only `CONFIG` can move the lifecycle: `CLEANUP` raises `InvalidState`. -/
theorem exec_keeps_life_of_not_ready (hl : s.life ≠ .ready) (hc : ∀ n w topo chip, i ≠ .config n w topo chip)
    (h : exec i s = .next t) : t.life = s.life := by
  by_cases hi : i = .cleanup
  · subst hi
    rw [eq_of_exec h (exec_of_not_ready hl (by simp) (by simp) (by simp)), State.raised_life]
  · exact (exec_effect h).keeps_life hc hi

/-- Where there is a device already only `CLEANUP` can move the lifecycle: `CONFIG` raises `InvalidState`. -/
theorem exec_keeps_life_of_configured (hl : s.life ≠ .unconfigured) (hi : i ≠ .cleanup) (h : exec i s = .next t) :
    t.life = s.life := by
  by_cases hc : ∀ n w topo chip, i ≠ .config n w topo chip
  · exact (exec_effect h).keeps_life hc hi
  · push Not at hc
    obtain ⟨n, w, topo, chip, rfl⟩ := hc
    rw [eq_of_exec h (exec_config_of_configured hl n w topo chip), State.raised_life]

/-! ### The turn of the schedule's first entry (log entry 2) -/

/-- The schedule's first entry is the turn taken. -/
theorem step_of_sched {u : Turn} (hs : s.sched = u :: ts) : step s = runTurn u { s with sched := ts } := by
  rw [step, scheduledStep, hs]

theorem step_of_reset (hs : s.sched = .reset :: ts) : step s = .next (State.hardReset { s with sched := ts }) :=
  step_of_sched hs

/-! ### The rows of R155 -/

/-- Settles O54, row by row: `CONFIG` and `CLEANUP` by their checks, and what the other commands keep. -/
theorem lifecycleTransitions : Obligations.LifecycleTransitions := by
  refine ⟨fun n w topo chip s t hl h => ?_, fun i s t hl h hc => ⟨?_, fun hf hp => ?_⟩, fun s t hr h => ?_,
    fun n w topo chip s t hr h => ?_, fun i s t hr h hi => ?_, fun i s t hl h => ⟨?_, fun hf hp => ?_⟩,
    fun got s hl => finishFrame_of_not_ready hl got, fun s ts hs => ⟨_, step_of_reset hs, rfl⟩⟩
  · split
    · rw [eq_of_exec h (exec_config_of_good hl (badTopology_eq_false.mpr ‹_›) chip), State.answer_life]
    · exact eq_of_exec h (exec_config_of_bad hl (Bool.eq_true_of_not_eq_false (mt badTopology_eq_false.mp ‹_›)) chip)
  · rw [exec_keeps_life_of_not_ready (by simp [hl]) hc h, hl]
  · exact eq_of_exec h (exec_of_not_ready (by simp [hl]) hc hf hp)
  · split
    · rw [eq_of_exec h (exec_cleanup_of_idle hr ‹_›), State.answer_life]
    · exact eq_of_exec h (exec_cleanup_of_busy hr ‹_›)
  · exact eq_of_exec h (exec_config_of_configured (by simp [hr]) n w topo chip)
  · rw [exec_keeps_life_of_configured (by simp [hr]) hi h, hr]
  · by_cases hi : i = .cleanup
    · rw [exec_keeps_life_of_not_ready (by simp [hl]) (by simp [hi]) h, hl]
    · rw [exec_keeps_life_of_configured (by simp [hl]) hi h, hl]
  · exact eq_of_exec h (exec_of_released hl hf hp)

end Sys2Proof.Machine
end

section
/-!
PROOF. The serializer and the commands that begin and await a transfer (R151, R152, R157 to R162): the bytes of a frame, `START`,
`WAIT`, and the serializer's step in each phase.
-/

namespace Sys2Proof.Machine

variable {s t : State} {ts : List Turn}

/-- Settles O39: byte `3i + r` of the frame is byte `r` of element `i`. -/
theorem encodeIsGreenRedBlue : Obligations.EncodeIsGreenRedBlue := by
  intro buf
  refine ⟨encodeFrame_length buf, fun i c hc => ?_⟩
  have byteOf (r : Nat) (hr : r < 3) : (encodeFrame buf)[3 * i + r]? = (encodeColor c)[r]? := by
    rw [encodeFrame_getElem?, Nat.mul_add_div (by decide), Nat.mul_add_mod, Nat.div_eq_of_lt hr, Nat.mod_eq_of_lt hr,
      Nat.add_zero, hc, Option.bind_some]
  exact ⟨byteOf 0 (by decide), byteOf 1 (by decide), byteOf 2 (by decide)⟩

/-! ### `START` and `WAIT` -/

theorem exec_start_of_busy (hr : s.life = .ready) (hb : s.txPhase ≠ .idle) : exec .start s = .next (s.raised .busy) :=
  (whenReady_of_ready hr _).trans (whenIdle_of_busy hb _)

theorem exec_start_of_idle (hr : s.life = .ready) (hi : s.txPhase = .idle) :
    exec .start s = .next ({ s with txBytes := encodeFrame s.buf, txPos := 0, txPhase := .data }.answer [0]) := by
  rw [← okWord_eq]
  exact (whenReady_of_ready hr _).trans (whenIdle_of_idle hi _)

/-- Settles O41: the two checks of `START`, and the captured frame. -/
theorem startCapturesTheFrame : Obligations.StartCapturesTheFrame := fun _ =>
  ⟨fun hl => whenReady_of_not_ready hl _, exec_start_of_busy, exec_start_of_idle⟩

theorem exec_wait_of_idle (hr : s.life = .ready) (hi : s.txPhase = .idle) : exec .wait s = .next (s.answer [0]) := by
  rw [← okWord_eq]
  exact (whenReady_of_ready hr _).trans (if_neg (Bool.eq_false_iff.mp (busy_eq_false.mpr hi)))

theorem exec_wait_of_busy (hr : s.life = .ready) (hb : s.txPhase ≠ .idle) :
    exec .wait s = .next { s with port := .waitHeld } :=
  (whenReady_of_ready hr _).trans (if_pos (busy_eq_true.mpr hb))

/-- A held `WAIT` gives the command agent no step while the transfer is in flight (R152). -/
theorem runTurn_command_of_held_busy (hp : s.port = .waitHeld) (hb : s.txPhase ≠ .idle) :
    runTurn .command s = .next s := by
  rw [runTurn_command, commandEnabled, hp, busy_eq_true.mpr hb]
  rfl

/-- A held `WAIT` answers in the command agent's turn once the serializer is at rest (R152). -/
theorem runTurn_command_of_held_idle (hp : s.port = .waitHeld) (hi : s.txPhase = .idle) :
    runTurn .command s = .next ({ s with port := .ready }.answer [0]) := by
  rw [runTurn_command, commandEnabled, commandStep, hp, busy_eq_false.mpr hi, ← okWord_eq]
  rfl

/-- Settles O42: the checks of `WAIT`, the turn of a held one, and the pin that shows it. -/
theorem waitAnswersOrHolds : Obligations.WaitAnswersOrHolds := by
  refine ⟨fun s => ⟨fun hl => whenReady_of_not_ready hl _, exec_wait_of_idle, exec_wait_of_busy⟩,
    fun s ts hp hs => ⟨fun hb => ?_, fun hi => ?_⟩, fun s => by simp [cmdReadyPin]⟩
  · rw [step_of_sched hs]
    exact runTurn_command_of_held_busy (s := { s with sched := ts }) hp hb
  · rw [step_of_sched hs]
    exact runTurn_command_of_held_idle (s := { s with sched := ts }) hp hi

/-! ### The serializer's step, phase by phase -/

theorem serializerStep_of_data {b : Bool} (hd : s.txPhase = .data) (hb : frameBit s.txBytes s.txPos = some b) :
    serializerStep s = .next { s with
      wire := s.wire ++ [bitSymbol b]
      txPos := s.txPos + 1
      txPhase := if s.txPos + 1 = frameBits s then .gap else .data } := by
  rw [serializerStep, hd]
  simp only [dataStep, hb]

theorem serializerStep_of_gap (hg : s.txPhase = .gap) :
    serializerStep s = .next { s with wire := s.wire ++ [.res], txPhase := .idle } := by
  rw [serializerStep, hg]
  rfl

/-- Every next state of the serializer's step, by the phase it is taken in. -/
theorem serializerStep_cases (h : serializerStep s = .next t) :
    (s.txPhase = .idle ∧ t = s) ∨
    (s.txPhase = .data ∧ ∃ b, frameBit s.txBytes s.txPos = some b ∧ t = { s with
      wire := s.wire ++ [bitSymbol b]
      txPos := s.txPos + 1
      txPhase := if s.txPos + 1 = frameBits s then .gap else .data }) ∨
    (s.txPhase = .gap ∧ t = { s with wire := s.wire ++ [.res], txPhase := .idle }) := by
  unfold serializerStep at h
  split at h
  · cases h
    exact .inl ⟨‹_›, rfl⟩
  · unfold dataStep at h
    split at h
    · cases h
      exact .inr (.inl ⟨‹_›, _, ‹_›, rfl⟩)
    · cases h
  · cases h
    exact .inr (.inr ⟨‹_›, rfl⟩)

/-- Settles O43: the data bit at the cursor is the bit of the byte there. -/
theorem serializerStepsEmitTheirSymbol : Obligations.SerializerStepsEmitTheirSymbol := by
  refine ⟨fun s b hd hb => ?_, fun s => serializerStep_of_gap⟩
  have hbit : frameBit s.txBytes s.txPos = some (b.getLsbD (7 - s.txPos % 8)) := by rw [frameBit, hb, Option.map_some]
  exact serializerStep_of_data hd hbit

/-- A step of the serializer that is not at rest puts one symbol on the wire (R161, R162). -/
theorem serializerStep_appends (hb : s.txPhase ≠ .idle) (h : serializerStep s = .next t) : ∃ y, t.wire = s.wire ++ [y] := by
  obtain ⟨hi, -⟩ | ⟨-, b, -, rfl⟩ | ⟨-, rfl⟩ := serializerStep_cases h
  · exact absurd hi hb
  · exact ⟨bitSymbol b, rfl⟩
  · exact ⟨.res, rfl⟩

/-- The serializer reads its own registers alone (R160): states that agree on them take the same step. -/
theorem serializerStep_reads {s' : State} (hbytes : s'.txBytes = s.txBytes) (hphase : s'.txPhase = s.txPhase)
    (hpos : s'.txPos = s.txPos) (hn : s'.numElements = s.numElements) (h : serializerStep s = .next t) :
    ∃ (t' : State) (ys : List Symbol), serializerStep s' = .next t' ∧ t'.txPhase = t.txPhase ∧ t'.txPos = t.txPos ∧
      t.wire = s.wire ++ ys ∧ t'.wire = s'.wire ++ ys := by
  obtain ⟨hi, rfl⟩ | ⟨hd, b, hb, rfl⟩ | ⟨hg, rfl⟩ := serializerStep_cases h
  · have hstep : serializerStep s' = .next s' := by rw [serializerStep, hphase, hi]
    exact ⟨s', [], hstep, hphase, hpos, by simp⟩
  · have hb' : frameBit s'.txBytes s'.txPos = some b := by rw [hbytes, hpos, hb]
    have hbits : frameBits s' = frameBits s := by rw [frameBits, frameBits, hn]
    refine ⟨_, [bitSymbol b], serializerStep_of_data (hphase.trans hd) hb', ?_, congrArg (· + 1) hpos, rfl, rfl⟩
    rw [hpos, hbits]
  · exact ⟨_, [.res], serializerStep_of_gap (hphase.trans hg), rfl, hpos, rfl, rfl⟩

/-- Settles O44, phase by phase (`serializerStep_cases`); under the invariant the frame has a bit at the cursor. -/
theorem serializerTouchesNothingElse : Obligations.SerializerTouchesNothingElse := by
  refine ⟨fun s t h => ?_, fun s t => serializerStep_appends, fun s ts hi hs => ?_, fun s s' t => serializerStep_reads,
    fun s h hb => ?_⟩
  · obtain ⟨-, rfl⟩ | ⟨-, b, -, rfl⟩ | ⟨-, rfl⟩ := serializerStep_cases h <;> rfl
  · rw [step_of_sched hs, runTurn_serializer, busy_withSched, busy_eq_false.mpr hi]
    rfl
  · obtain ⟨t, ht⟩ := h.serializerStep_answers
    obtain ⟨y, hy⟩ := serializerStep_appends hb ht
    exact ⟨t, y, ht, hy⟩

end Sys2Proof.Machine
end

section
/-!
PROOF. What a step does to the transfer in flight (R156, R163): said once as the cases of `TransferEffect`, and read off it how the
phase moves, and that the wire and what is still to be sent grow by the frame a `START` captures only.
-/

namespace Sys2Proof.Machine

variable {i : Instr} {s t u : State}

/-- What a step that is no reset does to the wire and the transfer's registers. -/
inductive TransferEffect (s t : State) : Prop where
  /-- Nothing. -/
  | kept (hw : t.wire = s.wire) (hb : t.txBytes = s.txBytes) (hp : t.txPhase = s.txPhase) (hc : t.txPos = s.txPos)
  /-- A successful `START`, taken from the command port (R151). -/
  | started (hp : s.port = .ready) (hc : ∃ ws, s.cmdIn = encode .start :: ws ∧ t.cmdIn = ws)
      (ho : t.rspOut = s.rspOut ++ [0]) (hr : s.life = .ready) (hi : s.txPhase = .idle) (hw : t.wire = s.wire)
      (hb : t.txBytes = encodeFrame s.buf) (hd : t.txPhase = .data) (hz : t.txPos = 0)
  /-- The data step (R161). -/
  | data {b : Bool} (hd : s.txPhase = .data) (hbit : frameBit s.txBytes s.txPos = some b)
      (hw : t.wire = s.wire ++ [bitSymbol b]) (hb : t.txBytes = s.txBytes) (hc : t.txPos = s.txPos + 1)
      (hp : t.txPhase = if s.txPos + 1 = frameBits s then .gap else .data)
  /-- The gap step (R162). -/
  | gap (hg : s.txPhase = .gap) (hw : t.wire = s.wire ++ [.res]) (hi : t.txPhase = .idle)

/-- The word that decodes to a command, but for a `Linear` `CONFIG`, is the command's word (R72, R79). -/
theorem eq_encode_of_decodeCommand {w : CmdWord} (hd : decodeCommand w = .ok i)
    (hc : ∀ n v k, i ≠ .config n v .linear k) : w = encode i := by
  obtain ⟨hword, -⟩ := decodedInstructionGivesItsWord
  obtain ⟨-, hexact, -⟩ := hword w i hd
  exact (hexact hc).symm

/-- A command taken from the ready port leaves the transfer alone or is a successful `START`. -/
theorem Effect.transferEffect {w : CmdWord} {ws : List CmdWord} (hc : s.cmdIn = w :: ws) (hp : s.port = .ready)
    (hd : decodeCommand w = .ok i) (h : Effect i s.wordTaken t) : TransferEffect s t := by
  cases h with
  | start hr hi =>
    have hw : w = encode .start := eq_encode_of_decodeCommand hd (by simp)
    have ho : s.rspOut ++ [okWord] = s.rspOut ++ [0] := by rw [okWord_eq]
    exact .started hp ⟨ws, hw ▸ hc, congrArg List.tail hc⟩ ho hr hi rfl rfl rfl rfl
  | _ => exact .kept rfl rfl rfl rfl

theorem StepEffect.transferEffect (hr : s.sched.head? ≠ some .reset) (h : StepEffect s t) : TransferEffect s t := by
  cases h with
  | reset hs => simp [hs] at hr
  | command hc hp hd h => exact h.transferEffect hc hp hd
  | payload _ _ _ h =>
    obtain ⟨hb, hp, hc⟩ := h.keeps_transfer (by simp)
    obtain ⟨hw, -⟩ := h.keeps_wire_and_environment
    exact .kept hw hb hp hc
  | data hd hb => exact .data hd hb rfl rfl rfl rfl
  | gap hg => exact .gap hg rfl rfl
  | _ => exact .kept rfl rfl rfl rfl

theorem step_transferEffect (hr : s.sched.head? ≠ some .reset) (h : step s = .next t) : TransferEffect s t :=
  (step_effect h).transferEffect hr

/-! ### The phase (R156) -/

/-- Where the cursor stands in `Data`, under the invariant (R25). -/
theorem State.Inv.data_bounds (h : s.Inv) (hd : s.txPhase = .data) :
    s.txBytes.length = 3 * s.numElements.toNat ∧ s.txPos < frameBits s :=
  (h.transferInv (h.ready_of_busy (by simp [hd]))).1 hd

/-- The phases one step of a state with the invariant can lead to. -/
theorem TransferEffect.phase_moves (h : TransferEffect s t) (hs : s.Inv) :
    (s.txPhase = .idle → t.txPhase = .idle ∨ (t.txPhase = .data ∧ t.txPos = 0)) ∧
    (s.txPhase = .data →
      (t.txPhase = .data ∧ t.txPos = s.txPos) ∨
      (s.txPos + 1 < frameBits s ∧ t.txPhase = .data ∧ t.txPos = s.txPos + 1) ∨
      (s.txPos + 1 = frameBits s ∧ t.txPhase = .gap ∧ t.txPos = frameBits s)) ∧
    (s.txPhase = .gap → (t.txPhase = .gap ∧ t.txPos = s.txPos) ∨ t.txPhase = .idle) := by
  cases h with
  | kept _ _ hp hc =>
    rw [hp, hc]
    exact ⟨.inl, fun hd => .inl ⟨hd, rfl⟩, fun hg => .inl ⟨hg, rfl⟩⟩
  | started _ _ _ _ hi _ _ hd hz => simp [hi, hd, hz]
  | data hd _ _ _ hc hp =>
    obtain ⟨-, hpos⟩ := hs.data_bounds hd
    refine ⟨by simp [hd], fun _ => .inr ?_, by simp [hd]⟩
    by_cases hlast : s.txPos + 1 = frameBits s
    · exact .inr ⟨hlast, hp.trans (if_pos hlast), hc.trans hlast⟩
    · exact .inl ⟨by omega, hp.trans (if_neg hlast), hc⟩
  | gap hg _ hi => exact ⟨by simp [hg], by simp [hg], fun _ => .inr hi⟩

/-- The data step advances the cursor, and the phase by where the cursor comes to stand (R161). -/
theorem serializerStep_in_data (hd : s.txPhase = .data) (h : serializerStep s = .next t) :
    t.txPos = s.txPos + 1 ∧ t.txPhase = if s.txPos + 1 = frameBits s then .gap else .data := by
  obtain ⟨hi, -⟩ | ⟨-, b, -, rfl⟩ | ⟨hg, -⟩ := serializerStep_cases h
  · simp [hd] at hi
  · exact ⟨rfl, rfl⟩
  · simp [hd] at hg

/-- Settles O45: the rows of R156 from the agents' steps, and that there are no others from `TransferEffect.phase_moves`. -/
theorem phaseTransitions : Obligations.PhaseTransitions := by
  refine ⟨fun s t hr hi h => ?_, fun s t hd hlt h => ?_, fun s t hd hlast h => ?_, fun s t hg h => ?_,
    fun s ts hs => ⟨_, step_of_reset hs, rfl⟩, fun i s t h hi => ((exec_effect h).keeps_transfer hi).2,
    fun s t hs hr h => (step_transferEffect hr h).phase_moves hs, fun s => busy_eq_true⟩
  · rw [eq_of_exec h (exec_start_of_idle hr hi)]
    exact ⟨rfl, rfl⟩
  · obtain ⟨hc, hp⟩ := serializerStep_in_data hd h
    exact ⟨hp.trans (if_neg hlt.ne), hc⟩
  · obtain ⟨hc, hp⟩ := serializerStep_in_data hd h
    exact ⟨hp.trans (if_pos hlast), hc.trans hlast⟩
  · rw [serializerStep_of_gap hg] at h
    cases h
    rfl

/-! ### What is still to be sent (R163) -/

theorem pendingSymbols_of_idle (h : s.txPhase = .idle) : pendingSymbols s = [] := by rw [pendingSymbols, h]

theorem pendingSymbols_of_gap (h : s.txPhase = .gap) : pendingSymbols s = [.res] := by rw [pendingSymbols, h]

theorem pendingSymbols_of_data (h : s.txPhase = .data) : pendingSymbols s = (frameSymbols s.txBytes).drop s.txPos := by
  rw [pendingSymbols, h]

theorem pendingSymbols_congr (hb : t.txBytes = s.txBytes) (hp : t.txPhase = s.txPhase) (hc : t.txPos = s.txPos) :
    pendingSymbols t = pendingSymbols s := by
  rw [pendingSymbols, pendingSymbols, hb, hp, hc]

/-- After the data step the rest of the frame is pending; after its last bit that is the reset gap (R63). -/
theorem pendingSymbols_after_data (hn : 8 * s.txBytes.length = frameBits s) (hb : t.txBytes = s.txBytes)
    (hc : t.txPos = s.txPos + 1) (hp : t.txPhase = if s.txPos + 1 = frameBits s then .gap else .data) :
    pendingSymbols t = (frameSymbols s.txBytes).drop (s.txPos + 1) := by
  split at hp
  · rename_i hlast
    rw [pendingSymbols_of_gap hp, hlast, ← hn, frameSymbols_drop_data]
  · rw [pendingSymbols_of_data hp, hb, hc]

/-- One step moves symbols from the pending ones to the wire, or begins a frame. -/
theorem TransferEffect.conserves_or_starts (h : TransferEffect s t) (hs : s.Inv) :
    t.wire ++ pendingSymbols t = s.wire ++ pendingSymbols s ∨
    (s.port = .ready ∧ (∃ ws : List CmdWord, s.cmdIn = encode .start :: ws ∧ t.cmdIn = ws) ∧ t.rspOut = s.rspOut ++ [0] ∧
      s.life = .ready ∧ s.txPhase = .idle ∧ t.wire = s.wire ∧ t.txPhase = .data ∧
      pendingSymbols t = frameSymbols (encodeFrame s.buf)) := by
  cases h with
  | kept hw hb hp hc => exact .inl (by rw [hw, pendingSymbols_congr hb hp hc])
  | started hp hc ho hr hi hw hb hd hz =>
    exact .inr ⟨hp, hc, ho, hr, hi, hw, hd, by rw [pendingSymbols_of_data hd, hb, hz, List.drop_zero]⟩
  | data hd hbit hw hb hc hp =>
    obtain ⟨hbytes, -⟩ := hs.data_bounds hd
    have hn : 8 * s.txBytes.length = frameBits s := by
      rw [frameBits]
      omega
    refine .inl ?_
    rw [hw, pendingSymbols_after_data hn hb hc hp, pendingSymbols_of_data hd, frameSymbols_drop hbit, List.append_assoc,
      List.singleton_append]
  | gap hg hw hi =>
    exact .inl (by rw [hw, pendingSymbols_of_idle hi, pendingSymbols_of_gap hg, List.append_nil])

/-- Settles O46, from the cases of `TransferEffect`. -/
theorem onlyStartAddsToTheWire : Obligations.OnlyStartAddsToTheWire := fun _ _ hs hr h =>
  (step_transferEffect hr h).conserves_or_starts hs

end Sys2Proof.Machine
end

section
/-!
PROOF. A transfer comes to its end under every schedule without a reset (R53, R164): a count that every step lowers bounds the steps
until the serializer is at rest, and one more the steps until a held `WAIT` has answered (R152).
-/

namespace Sys2Proof.Machine

variable {s t : State} {w : List Symbol}

/-! ### Runs with a countdown -/

/-- Where every step from a state of `P` leads to `Q` or on within `P`, and lowers the count `m` while above 0, a run from `P` comes
to `Q` within `m` steps, and is in `P` before. -/
theorem run_until {P Q : State → Prop} {m : State → Nat}
    (hstep : ∀ s, P s → ∃ t, step s = .next t ∧ (Q t ∧ 0 < m s ∨ P t ∧ m t < m s)) (n : Nat) :
    ∀ s, P s → m s ≤ n → ∃ (k : Nat) (t : State), k ≤ n ∧ core.run k s = .next t ∧ Q t ∧
      ∀ j < k, ∃ u, core.run j s = .next u ∧ P u := by
  induction n with
  | zero =>
    intro s hs hm
    obtain ⟨t, -, ⟨-, hpos⟩ | ⟨-, hlt⟩⟩ := hstep s hs <;> omega
  | succ n ih =>
    intro s hs hm
    obtain ⟨t, ht, ⟨hq, -⟩ | ⟨hp, hlt⟩⟩ := hstep s hs
    · refine ⟨1, t, by omega, (run_one s).trans ht, hq, fun j hj => ?_⟩
      obtain rfl : j = 0 := by omega
      exact ⟨s, rfl, hs⟩
    · obtain ⟨k, u, hk, hrun, hq, hbefore⟩ := ih t hp (by omega)
      refine ⟨k + 1, u, by omega, (run_next k ht).trans hrun, hq, fun j hj => ?_⟩
      cases j with
      | zero => exact ⟨s, rfl, hs⟩
      | succ j =>
        obtain ⟨v, hv, hpv⟩ := hbefore j (by omega)
        exact ⟨v, (run_next j ht).trans hv, hpv⟩

/-! ### The transfer in flight -/

/-- Every step uses up the schedule's first entry, if there is one (log entry 2). -/
theorem StepEffect.sched_eq (h : StepEffect s t) : t.sched = s.sched.tail := by
  cases h with
  | command _ _ _ h | payload _ _ _ h =>
    obtain ⟨-, -, hsched, -⟩ := h.keeps_wire_and_environment
    exact hsched
  | _ => rfl

/-- A transfer under way with no reset to come: `w` is what stands on the wire once it has ended. -/
structure Sending (w : List Symbol) (s : State) : Prop where
  inv : s.Inv
  noReset : .reset ∉ s.sched
  total : s.wire ++ pendingSymbols s = w

/-- An upper bound on the steps until the serializer is at rest: each uses up an entry of the schedule or sends a symbol. -/
def stepsToRest (s : State) : Nat := s.sched.length + (pendingSymbols s).length

theorem head?_ne_reset (h : Turn.reset ∉ s.sched) : s.sched.head? ≠ some .reset := fun hr => h (List.mem_of_head? hr)

/-- A step keeps what the wire will have been given in the end, unless a `START` can come: at rest, the port ready (R163). -/
theorem Sending.step (h : Sending w s) (hn : s.txPhase ≠ .idle ∨ s.port ≠ .ready) (hstep : step s = .next t) : Sending w t := by
  have heffect := step_effect hstep
  have hr := head?_ne_reset h.noReset
  refine ⟨heffect.keeps_inv h.inv, fun hmem => h.noReset ?_, ?_⟩
  · exact List.mem_of_mem_tail (heffect.sched_eq ▸ hmem)
  · obtain htotal | ⟨hp, -, -, -, hi, -⟩ := (heffect.transferEffect hr).conserves_or_starts h.inv
    · exact htotal.trans h.total
    · exact absurd hn (by simp [hp, hi])

/-- Past the schedule's end a busy serializer steps (R53, log entry 2). -/
theorem step_appends_past_sched (hs : s.sched = []) (hb : s.txPhase ≠ .idle) (hstep : step s = .next t) :
    ∃ y, t.wire = s.wire ++ [y] := by
  have hbusy := busy_eq_true.mpr hb
  rw [step_of_sched_nil hs, if_pos hbusy, runTurn_serializer, if_pos hbusy] at hstep
  exact serializerStep_appends hb hstep

/-- While there is a schedule left or a symbol to send, every step lowers the bound. -/
theorem Sending.stepsToRest_lt (h : Sending w s) (ht : Sending w t) (hstep : Machine.step s = .next t)
    (hb : s.sched ≠ [] ∨ s.txPhase ≠ .idle) : stepsToRest t < stepsToRest s := by
  have htotal : t.wire.length + (pendingSymbols t).length = s.wire.length + (pendingSymbols s).length := by
    rw [← List.length_append, ← List.length_append, h.total, ht.total]
  have hsched : t.sched.length = s.sched.length - 1 := by rw [(step_effect hstep).sched_eq, List.length_tail]
  unfold stepsToRest
  by_cases hs : s.sched = []
  · obtain ⟨y, hy⟩ := step_appends_past_sched hs (hb.resolve_left (not_not.mpr hs)) hstep
    rw [hy, List.length_append, List.length_singleton] at htotal
    omega
  · obtain ⟨ys, -, hys⟩ := (step_effect hstep).wire_grows (head?_ne_reset h.noReset)
    rw [hys, List.length_append] at htotal
    have := List.length_pos_iff.mpr hs
    omega

/-- From a transfer in flight a run comes to the first instant at which the serializer is at rest, with the frame on the wire. -/
theorem Sending.comes_to_rest (h : Sending w s) (hb : s.txPhase ≠ .idle) :
    ∃ (k : Nat) (t : State), k ≤ stepsToRest s ∧ core.run k s = .next t ∧ (Sending w t ∧ t.txPhase = .idle) ∧
      ∀ j < k, ∃ u, core.run j s = .next u ∧ Sending w u ∧ u.txPhase ≠ .idle := by
  refine run_until (P := fun s => Sending w s ∧ s.txPhase ≠ .idle) (Q := fun t => Sending w t ∧ t.txPhase = .idle)
    (m := stepsToRest) (fun s hs => ?_) _ s ⟨h, hb⟩ le_rfl
  obtain ⟨h, hb⟩ := hs
  obtain ⟨t, ht⟩ := h.inv.step_answers
  have hsend := h.step (.inl hb) ht
  have hlt := h.stepsToRest_lt hsend ht (.inr hb)
  by_cases hi : t.txPhase = .idle
  · exact ⟨t, ht, .inl ⟨⟨hsend, hi⟩, by omega⟩⟩
  · exact ⟨t, ht, .inr ⟨⟨hsend, hi⟩, hlt⟩⟩

/-- At rest the whole frame is on the wire. -/
theorem Sending.wire_at_rest (h : Sending w s) (hi : s.txPhase = .idle) : s.wire = w := by
  rw [← h.total, pendingSymbols_of_idle hi, List.append_nil]

/-- A frame has `24N + 1` symbols (R60, R63). -/
theorem State.Inv.frame_length (h : s.Inv) (hr : s.life = .ready) :
    (frameSymbols (encodeFrame s.buf)).length = 24 * s.numElements.toNat + 1 := by
  rw [frameSymbols_length, encodeFrame_length, h.buf_length hr]
  omega

/-- Settles O48: the frame is pending once `START` has captured it, and a transfer in flight comes to rest. -/
theorem frameLaw : Obligations.FrameLaw := by
  intro s h hr hi hn
  have hlength := h.frame_length hr
  have hsend : Sending (s.wire ++ frameSymbols (encodeFrame s.buf))
      ({ s with txBytes := encodeFrame s.buf, txPos := 0, txPhase := .data }.answer [0]) := ⟨(h.started hr).answer _, hn, rfl⟩
  obtain ⟨k, t, hk, hrun, ⟨ht, hrest⟩, hbefore⟩ := hsend.comes_to_rest (by simp)
  have hwire := ht.wire_at_rest hrest
  refine ⟨_, exec_start_of_idle hr hi, k, t, hk.trans ?_, hrun, hrest, fun j hj => ?_, hwire, ?_⟩
  · show s.sched.length + (frameSymbols (encodeFrame s.buf)).length ≤ _
    omega
  · obtain ⟨u, hu, -, hbusy⟩ := hbefore j hj
    exact ⟨u, hu, hbusy⟩
  · rw [hwire, List.length_append]
    omega

/-! ### A held `WAIT` (R152) -/

/-- What no step changes while a `WAIT` is held, taken from the state `s₀` it is held in. -/
structure Waiting (s₀ s : State) : Prop where
  sending : Sending (s₀.wire ++ pendingSymbols s₀) s
  held : s.port = .waitHeld
  rspOut : s.rspOut = s₀.rspOut
  buf : s.buf = s₀.buf
  lastErr : s.lastErr = s₀.lastErr

/-- The state in which it has answered. -/
structure WaitAnswered (s₀ t : State) : Prop where
  port : t.port = .ready
  atRest : t.txPhase = .idle
  rspOut : t.rspOut = s₀.rspOut ++ [okWord]
  wire : t.wire = s₀.wire ++ pendingSymbols s₀
  buf : t.buf = s₀.buf
  lastErr : t.lastErr = s₀.lastErr

/-- While a `WAIT` is held the port takes no word: it answers, or stays held with nothing but the transfer moved. -/
theorem StepEffect.held_cases (hp : s.port = .waitHeld) (hr : s.sched.head? ≠ some .reset) (h : StepEffect s t) :
    (s.txPhase = .idle ∧ t = { s.turnUsed with port := .ready }.answer [okWord]) ∨
    (t.port = .waitHeld ∧ t.rspOut = s.rspOut ∧ t.buf = s.buf ∧ t.lastErr = s.lastErr) := by
  cases h with
  | reset hs => simp [hs] at hr
  | released _ hi => exact .inl ⟨hi, rfl⟩
  | passed | data | gap => exact .inr ⟨hp, rfl, rfl, rfl⟩
  | command _ hport | payload _ hport | illegal _ hport | illegalHeader _ hport | illegalPayload _ hport
  | illegalFrame _ hport => simp [hp] at hport

/-- Past the schedule's end and at rest the held `WAIT` answers (R53, log entry 2). -/
theorem step_of_held_at_rest (hp : s.port = .waitHeld) (hi : s.txPhase = .idle) (hs : s.sched = []) :
    step s = .next ({ s with port := .ready }.answer [0]) := by
  rw [step_of_sched_nil hs, if_neg (Bool.eq_false_iff.mp (busy_eq_false.mpr hi)), runTurn_command_of_held_idle hp hi]

/-- The step of a state with a held `WAIT`: it answers, or waits on with fewer steps to go. -/
theorem Waiting.step {s₀ : State} (h : Waiting s₀ s) :
    ∃ t, step s = .next t ∧ (WaitAnswered s₀ t ∨ Waiting s₀ t ∧ stepsToRest t < stepsToRest s) := by
  obtain ⟨hsend, hheld, hrsp, hbuf, herr⟩ := h
  obtain ⟨t, ht⟩ := hsend.inv.step_answers
  refine ⟨t, ht, ?_⟩
  obtain ⟨hi, rfl⟩ | ⟨hheld', hrsp', hbuf', herr'⟩ := (step_effect ht).held_cases hheld (head?_ne_reset hsend.noReset)
  · exact .inl ⟨rfl, hi, congrArg (· ++ [okWord]) hrsp, hsend.wire_at_rest hi, hbuf, herr⟩
  · have hsend' := hsend.step (.inr (by simp [hheld])) ht
    have hgoes : s.sched ≠ [] ∨ s.txPhase ≠ .idle := by
      by_contra hrest
      push Not at hrest
      obtain ⟨hs, hi⟩ := hrest
      rw [step_of_held_at_rest hheld hi hs, Host.Outcome.next.injEq] at ht
      subst ht
      cases hheld'
    exact .inr ⟨⟨hsend', hheld', hrsp'.trans hrsp, hbuf'.trans hbuf, herr'.trans herr⟩, hsend.stepsToRest_lt hsend' ht hgoes⟩

/-- At most a whole frame is pending (R25). -/
theorem State.Inv.pending_length_le (h : s.Inv) : (pendingSymbols s).length ≤ 24 * s.numElements.toNat + 1 := by
  cases hphase : s.txPhase with
  | idle => simp [pendingSymbols_of_idle hphase]
  | gap => simp [pendingSymbols_of_gap hphase]
  | data =>
    obtain ⟨hbytes, -⟩ := h.data_bounds hphase
    rw [pendingSymbols_of_data hphase, List.length_drop, frameSymbols_length, hbytes]
    omega

/-- Settles O49: a run from a held `WAIT` within the count of `stepsToRest`, and one step more to answer. -/
theorem heldWaitAnswersInTheEnd : Obligations.HeldWaitAnswersInTheEnd := by
  intro s h hp hn
  have hstep : ∀ u, Waiting s u → ∃ t, step u = .next t ∧
      (WaitAnswered s t ∧ 0 < stepsToRest u + 1 ∨ Waiting s t ∧ stepsToRest t + 1 < stepsToRest u + 1) := by
    intro u hu
    obtain ⟨t, ht, ha | ⟨hw, hlt⟩⟩ := hu.step
    · exact ⟨t, ht, .inl ⟨ha, Nat.succ_pos _⟩⟩
    · exact ⟨t, ht, .inr ⟨hw, Nat.succ_lt_succ hlt⟩⟩
  have hstart : Waiting s s := ⟨⟨h, hn, rfl⟩, hp, rfl, rfl, rfl⟩
  obtain ⟨k, t, hk, hrun, ha, -⟩ := run_until (m := fun u => stepsToRest u + 1) hstep _ s hstart le_rfl
  have hpending := h.pending_length_le
  refine ⟨k, t, hk.trans ?_, hrun, ha.port, ha.atRest, ha.rspOut, ha.wire, ha.buf, ha.lastErr⟩
  rw [stepsToRest]
  omega

end Sys2Proof.Machine
end

section
/-!
PROOF. Errors (R180, R184, R187): the fields of an error's word, that a response whose status is not 0 is the whole answer of a
command that changed nothing else, and the lifecycle check that comes before every other.
-/

namespace Sys2Proof.Machine

variable {i : Instr} {s t : State} {e : ErrCode} {v : RspWord} {vs : List RspWord}

/-! ### The word of an error -/

theorem errWord_status (e : ErrCode) : (errWord e).extractLsb' 28 4 = e.code := rspWord_status e false 0

/-- An error's word carries its code and nothing else (R77). -/
theorem errWord_below_status (e : ErrCode) : (errWord e).extractLsb' 0 28 = 0 := by
  cases e <;> decide

/-! ### A failing command (R184) -/

/-- The command failed with `e`: it wrote the error record and sent one word; a `SETFRAME` being received has also ended. -/
def FailsWith (e : ErrCode) (s t : State) : Prop :=
  t = s.raised e ∨ ∃ rx, s.port = .frame rx ∧ t = { s with port := .ready }.raised e

theorem FailsWith.rspOut_eq (h : FailsWith e s t) : t.rspOut = s.rspOut ++ [errWord e] := by
  obtain rfl | ⟨rx, -, rfl⟩ := h <;> rfl

/-- The first word sent from `s` to `t`, if there is one, has the status `OK`. -/
def FirstStatusOk (s t : State) : Prop :=
  ∀ (w : RspWord) (ws : List RspWord), t.rspOut = s.rspOut ++ w :: ws → w.extractLsb' 28 4 = 0

theorem firstStatusOk_of_none (ht : t.rspOut = s.rspOut) : FirstStatusOk s t := fun w ws h => by
  simp [ht] at h

theorem firstStatusOk_of_cons (hv : v.extractLsb' 28 4 = 0) (ht : t.rspOut = s.rspOut ++ v :: vs) : FirstStatusOk s t :=
  fun w ws h => by
    obtain ⟨rfl, -⟩ := List.cons.inj (List.append_cancel_left (ht.symm.trans h))
    exact hv

/-- An instruction fails with an error, or does not answer with an error's status. -/
theorem Effect.fails_or_statusOk (h : Effect i s t) : (∃ e, e ≠ .ok ∧ FailsWith e s t) ∨ FirstStatusOk s t := by
  have ok (present : Bool) (data : Packed) : (rspWord .ok present data).extractLsb' 28 4 = 0 := rspWord_status .ok present data
  cases h with
  | raised he => exact .inl ⟨_, he, .inl rfl⟩
  | frameRaised hp _ he => exact .inl ⟨_, he, .inr ⟨_, hp, rfl⟩⟩
  | frameExtended | frameOpened | waitHeld => exact .inr (firstStatusOk_of_none rfl)
  | read _ _ hw => obtain rfl | ⟨c, rfl⟩ := hw <;> exact .inr (firstStatusOk_of_cons (ok _ _) rfl)
  | _ => exact .inr (firstStatusOk_of_cons (ok _ _) rfl)

/-- Settles O51: by `Effect.fails_or_statusOk` only a failing command sends such a word, and it sends no other. -/
theorem errorsArePrecise : Obligations.ErrorsArePrecise := by
  refine ⟨fun e s => ⟨rfl, errWord_status e, errWord_below_status e, rfl⟩, rfl, fun i s t w ws h hrsp hstatus => ?_⟩
  obtain ⟨e, he, hfails⟩ | hok := (exec_effect h).fails_or_statusOk
  · have hwords : [errWord e] = w :: ws := List.append_cancel_left (hfails.rspOut_eq.symm.trans hrsp)
    obtain ⟨rfl, rfl⟩ := List.cons.inj hwords
    exact ⟨rfl, e, he, rfl, hfails⟩
  · exact absurd (hok w ws hrsp) hstatus

/-! ### The lifecycle check comes first (R187) -/

/-- Settles O55: each form of the check, `SETFRAME`'s as `finishFrame` makes it when the last word has come. -/
theorem lifecycleIsCheckedFirst : Obligations.LifecycleIsCheckedFirst := by
  refine ⟨fun n w topo chip s hl => exec_config_of_configured hl n w topo chip, fun i s => exec_of_not_ready,
    fun got s hl => finishFrame_of_not_ready hl got, fun s hl => ?_, fun c s got hl hp => ?_⟩
  · exact (beginFrame_zero true s).trans (finishFrame_of_not_ready hl [])
  · rw [exec_payload_last hp rfl]
    exact finishFrame_of_not_ready (s := { s with port := .ready }) hl _

end Sys2Proof.Machine
end

section
/-!
PROOF. Reset and hazards (R210, R224): what a reset leaves and what only a reset can do, and the framing of the wire, for which
each case of `TransferEffect` is read as a move of the scan of R224.
-/

namespace Sys2Proof.Machine

variable {i : Instr} {s t : State} {u : Turn} {bits k : Nat} {wire : List Symbol}

/-! ### Reset (R210) -/

/-- A turn of an agent that has no step changes nothing. -/
theorem runTurn_of_no_step (hc : commandEnabled s = false) (hi : s.txPhase = .idle) (hu : u ≠ .reset) :
    runTurn u s = .next s := by
  cases u with
  | command => rw [runTurn_command, if_neg (Bool.eq_false_iff.mp hc)]
  | serializer => rw [runTurn_serializer, if_neg (Bool.eq_false_iff.mp (busy_eq_false.mpr hi))]
  | reset => exact absurd rfl hu

/-- A reset comes only where the schedule names it: past its end the turn is an agent's (log entry 2). -/
theorem nextTurn_ne_reset (hr : s.sched.head? ≠ some .reset) :
    s.sched.headD (if busy s then .serializer else .command) ≠ .reset := by
  rw [List.headD_eq_head?_getD]
  cases hs : s.sched.head? with
  | none =>
    rw [Option.getD_none]
    split <;> decide
  | some u => exact fun hu => hr (hs.trans (congrArg some hu))

/-- A block at rest with no word to take uses up its turn and changes nothing else. -/
theorem step_at_rest_without_word (hi : s.txPhase = .idle) (hp : s.port = .ready) (hc : s.cmdIn = [])
    (hr : s.sched.head? ≠ some .reset) : step s = .next s.turnUsed := by
  have hno : commandEnabled s.turnUsed = false := by simp [commandEnabled, State.turnUsed, hp, hc]
  rw [step_eq_runTurn]
  exact runTurn_of_no_step hno hi (nextTurn_ne_reset hr)

/-- No command leaves `Released` (R155). -/
theorem Effect.keeps_released (h : Effect i s t) (hl : s.life = .released) : t.life = .released := by
  cases h with
  | config hu => exact absurd (hl.symm.trans hu) (by decide)
  | cleanup => rfl
  | _ => exact hl

/-- Only a reset leaves `Released` (R210). -/
theorem StepEffect.keeps_released (hr : s.sched.head? ≠ some .reset) (h : StepEffect s t) (hl : s.life = .released) :
    t.life = .released := by
  cases h with
  | reset hs => simp [hs] at hr
  | command _ _ _ h | payload _ _ _ h => exact h.keeps_released hl
  | _ => exact hl

/-- Only a reset clears the error record (R21, R210). -/
theorem StepEffect.lastErr_keeps_or_fails (hr : s.sched.head? ≠ some .reset) (h : StepEffect s t) :
    t.lastErr = s.lastErr ∨ t.lastErr ≠ .ok := by
  cases h with
  | reset hs => simp [hs] at hr
  | command _ _ _ h | payload _ _ _ h => exact h.lastErr_keeps_or_fails
  | illegal | illegalFrame => exact .inr (by simp)
  | _ => exact .inl rfl

/-- Settles O2: the reset state's fields, a turn that no agent can use, and what every other case of `StepEffect` keeps. -/
theorem resetComesInAnyState : Obligations.ResetComesInAnyState := by
  refine ⟨fun s ts hs => ⟨_, step_of_reset hs, ?_⟩, fun s _ hi hp hc hr => step_at_rest_without_word hi hp hc hr,
    fun s t hr h => ⟨(step_effect h).keeps_released hr, fun herr => ?_⟩⟩
  · exact ⟨rfl, rfl, rfl, rfl, rfl, rfl, rfl, rfl, rfl, rfl, rfl, rfl, rfl, rfl, rfl⟩
  · obtain hkept | hfailed := (step_effect h).lastErr_keeps_or_fails hr
    · exact hkept ▸ herr
    · exact hfailed

/-! ### The scan of the wire (R224) -/

theorem scanWire_append (bits : Nat) (wire : List Symbol) (y : Symbol) :
    scanWire bits (wire ++ [y]) = scanSymbol bits (scanWire bits wire) y := by
  rw [scanWire, scanWire, List.foldl_append]
  rfl

/-- A data symbol lengthens the run after the last `RES`, up to a whole frame. -/
theorem scanWire_append_data (h : scanWire bits wire = some k) (hk : k < bits) (b : Bool) :
    scanWire bits (wire ++ [bitSymbol b]) = some (k + 1) := by
  rw [scanWire_append, h]
  cases b <;> exact if_pos hk

/-- A `RES` ends a run of a whole frame. -/
theorem scanWire_append_res (h : scanWire bits wire = some bits) : scanWire bits (wire ++ [.res]) = some 0 := by
  rw [scanWire_append, h]
  exact if_pos rfl

theorem sentBits_of_idle (h : s.txPhase = .idle) : sentBits s = 0 := by
  rw [sentBits, busy_eq_false.mpr h]
  rfl

theorem sentBits_of_busy (h : s.txPhase ≠ .idle) : sentBits s = s.txPos := by
  rw [sentBits, busy_eq_true.mpr h]
  rfl

theorem sentBits_congr (hp : t.txPhase = s.txPhase) (hc : t.txPos = s.txPos) : sentBits t = sentBits s := by
  rw [sentBits, sentBits, busy, busy, hp, hc]

/-- The cursor is at the frame's end while the reset gap is due, under the invariant (R25). -/
theorem State.Inv.gap_bounds (h : s.Inv) (hg : s.txPhase = .gap) : s.txPos = frameBits s := by
  obtain ⟨-, hgap⟩ := h.transferInv (h.ready_of_busy (by simp [hg]))
  exact hgap hg

/-- On a configured device the scan of the wire follows the cursor. -/
theorem TransferEffect.keeps_scan (h : TransferEffect s t) (hs : s.Inv)
    (hscan : scanWire (frameBits s) s.wire = some (sentBits s)) : scanWire (frameBits s) t.wire = some (sentBits t) := by
  cases h with
  | kept hw _ hp hc => rw [hw, hscan, sentBits_congr hp hc]
  | started _ _ _ _ hi hw _ hd hz => rw [hw, hscan, sentBits_of_idle hi, sentBits_of_busy (by simp [hd]), hz]
  | data hd _ hw _ hc hp =>
    obtain ⟨-, hpos⟩ := hs.data_bounds hd
    have hbusy : t.txPhase ≠ .idle := by
      rw [hp]
      split <;> decide
    rw [sentBits_of_busy (by simp [hd])] at hscan
    rw [hw, sentBits_of_busy hbusy, hc, scanWire_append_data hscan hpos]
  | gap hg hw hi =>
    rw [sentBits_of_busy (by simp [hg]), hs.gap_bounds hg] at hscan
    rw [hw, sentBits_of_idle hi, scanWire_append_res hscan]

theorem State.Inv.idle_of_unconfigured (h : s.Inv) (hl : s.life = .unconfigured) : s.txPhase = .idle := by
  obtain ⟨-, -, hidle, -⟩ := h
  exact hidle (by simp [hl])

/-- Without a device the serializer is at rest, and no step gives it a frame: the wire is left alone. -/
theorem TransferEffect.keeps_wire_of_unconfigured (h : TransferEffect s t) (hs : s.Inv) (hl : s.life = .unconfigured) :
    t.wire = s.wire := by
  have hidle := hs.idle_of_unconfigured hl
  cases h with
  | kept hw => exact hw
  | started _ _ _ _ _ hw => exact hw
  | data hd => exact absurd (hidle.symm.trans hd) (by decide)
  | gap hg => exact absurd (hidle.symm.trans hg) (by decide)

/-! ### The device the wire is scanned for -/

/-- The device of `s` is still that of `t`, or there is none in either. -/
def SameDevice (s t : State) : Prop := t.numElements = s.numElements ∧ (t.life = .unconfigured ↔ s.life = .unconfigured)

/-- `t` has a device that `s` had not, and no frame has begun. -/
def Constructs (s t : State) : Prop := s.life = .unconfigured ∧ t.life ≠ .unconfigured ∧ t.txPhase = s.txPhase

/-- A command keeps the device, or constructs the first one (R150, R155). -/
theorem Effect.keeps_or_constructs (h : Effect i s t) : SameDevice s t ∨ Constructs s t := by
  cases h with
  | config hl => exact .inr ⟨hl, by simp, rfl⟩
  | cleanup hr => exact .inl ⟨rfl, by simp [hr]⟩
  | _ => exact .inl ⟨rfl, Iff.rfl⟩

/-- So does a step that is no reset. -/
theorem StepEffect.keeps_or_constructs (hr : s.sched.head? ≠ some .reset) (h : StepEffect s t) :
    SameDevice s t ∨ Constructs s t := by
  cases h with
  | reset hs => simp [hs] at hr
  | command _ _ _ h | payload _ _ _ h => exact h.keeps_or_constructs
  | _ => exact .inl ⟨rfl, Iff.rfl⟩

/-! ### The framing of the wire (R224) -/

theorem wireInv_of_unconfigured (hl : s.life = .unconfigured) : WireInv s ↔ s.wire = [] := by rw [WireInv, if_pos hl]

theorem wireInv_of_configured (hl : s.life ≠ .unconfigured) :
    WireInv s ↔ scanWire (frameBits s) s.wire = some (sentBits s) := by rw [WireInv, if_neg hl]

/-- On one device the scan follows the cursor; with none the wire stays empty. -/
theorem TransferEffect.keeps_wireInv (h : TransferEffect s t) (hsame : SameDevice s t) (hs : s.Inv) (hw : WireInv s) :
    WireInv t := by
  obtain ⟨hn, hlife⟩ := hsame
  by_cases hl : s.life = .unconfigured
  · rw [wireInv_of_unconfigured hl] at hw
    rw [wireInv_of_unconfigured (hlife.mpr hl), h.keeps_wire_of_unconfigured hs hl, hw]
  · have hbits : frameBits t = frameBits s := by rw [frameBits, frameBits, hn]
    rw [wireInv_of_configured hl] at hw
    rw [wireInv_of_configured (mt hlife.mp hl), hbits]
    exact h.keeps_scan hs hw

/-- The scan for a new device begins on an empty wire, its serializer at rest. -/
theorem TransferEffect.wireInv_of_constructs (h : TransferEffect s t) (hc : Constructs s t) (hs : s.Inv) (hw : WireInv s) :
    WireInv t := by
  obtain ⟨hl, hl', hphase⟩ := hc
  have hrest : t.txPhase = .idle := hphase.trans (hs.idle_of_unconfigured hl)
  rw [wireInv_of_unconfigured hl] at hw
  rw [wireInv_of_configured hl', h.keeps_wire_of_unconfigured hs hl, hw, sentBits_of_idle hrest]
  rfl

/-- Settles O6: a reset empties the wire; every other step keeps or constructs the device, and moves the scan with the cursor. -/
theorem everyStepKeepsWireFraming : Obligations.EveryStepKeepsWireFraming := by
  intro s t hs hw h
  by_cases hr : s.sched.head? = some .reset
  · obtain ⟨ts, hts⟩ := List.head?_eq_some_iff.mp hr
    rw [step_of_reset hts, Host.Outcome.next.injEq] at h
    subst h
    rfl
  · have htransfer := step_transferEffect hr h
    obtain hsame | hnew := (step_effect h).keeps_or_constructs hr
    · exact htransfer.keeps_wireInv hsame hs hw
    · exact htransfer.wireInv_of_constructs hnew hs hw

end Sys2Proof.Machine
end

section
/-!
PROOF. The waveform (R63, R221, R222): the levels of each symbol and of a whole transfer in ticks, the symbols in real time, and
the rounding that gives the tick counts.
-/

namespace Sys2Proof.Machine

variable {t : Ticks} {p : Profile} {x : Rat}

/-! ### Ticks (R222) -/

/-- The levels of a data symbol of `n` ticks, high for `h` of them and then low (R221). -/
def highThenLow (h n : Nat) : List Level := List.replicate h .high ++ List.replicate (n - h) .low

theorem symbolLevels_t0 (t : Ticks) : symbolLevels t .t0 = highThenLow t.high0 t.bit := rfl

theorem symbolLevels_t1 (t : Ticks) : symbolLevels t .t1 = highThenLow t.high1 t.bit := rfl

theorem symbolLevels_res (t : Ticks) : symbolLevels t .res = List.replicate t.gap .low := rfl

theorem highThenLow_length {h n : Nat} (hh : h ≤ n) : (highThenLow h n).length = n := by
  rw [highThenLow, List.length_append, List.length_replicate, List.length_replicate, Nat.add_sub_cancel' hh]

theorem highThenLow_getElem? {h n k : Nat} (hk : k < n) :
    (highThenLow h n)[k]? = some (if k < h then .high else .low) := by
  by_cases hh : k < h
  · simp [highThenLow, List.getElem?_append, hh]
  · have hrest : k - h < n - h := by omega
    simp [highThenLow, List.getElem?_append, hh, hrest]

/-- Every data symbol lasts one bit period. -/
theorem Ticks.Legal.data_length (h : t.Legal) (b : Bool) : (symbolLevels t (bitSymbol b)).length = t.bit := by
  obtain ⟨-, h01, h1⟩ := h
  cases b with
  | false => exact highThenLow_length (h01.trans h1).le
  | true => exact highThenLow_length h1.le

theorem dataBits_length (buf : List Color) : (dataBits buf).length = 24 * buf.length := by
  rw [dataBits, length_flatMap_uniform byteBits_length, encodeFrame_length, ← Nat.mul_assoc]

/-- A whole transfer: its data symbols' bit periods and the reset gap. -/
theorem Ticks.Legal.transfer_length (h : t.Legal) (buf : List Color) :
    (wireLevels t (frameSymbols (encodeFrame buf))).length = transferTicks t buf.length := by
  rw [wireLevels, frameSymbols_eq, List.flatMap_append, List.flatMap_map, List.flatMap_singleton, List.length_append,
    length_flatMap_uniform h.data_length, dataBits_length, symbolLevels_res, List.length_replicate, transferTicks,
    Nat.mul_comm]

/-- Settles O56: the three kinds of symbol, and the transfer by `Ticks.Legal.transfer_length`. -/
theorem transferLastsItsTicks : Obligations.TransferLastsItsTicks := by
  refine fun t ht => ⟨⟨ht.data_length false, ht.data_length true, ?_⟩, fun k hk => ⟨?_, ?_⟩, fun y hy => ?_, ht.transfer_length⟩
  · rw [symbolLevels_res, List.length_replicate]
  · rw [symbolLevels_t0, highThenLow_getElem? hk]
  · rw [symbolLevels_t1, highThenLow_getElem? hk]
  · rw [symbolLevels_res] at hy
    exact List.eq_of_mem_replicate hy

/-! ### Real time (R221) -/

/-- Every symbol ends low (R63). -/
theorem symbolShape_ends_low (y : Symbol) : ∃ ys, symbolShape y = ys ++ [.low] := by
  cases y with
  | t0 => exact ⟨[.high], rfl⟩
  | t1 => exact ⟨[.high], rfl⟩
  | res => exact ⟨[], rfl⟩

/-- Between two steps `dout` is low (log entry 12). -/
theorem doutPin_eq_low (s : State) : doutPin s = .low := by
  rw [doutPin]
  obtain hw | ⟨w, y, hw⟩ := List.eq_nil_or_concat' s.wire
  · rw [hw]
    rfl
  · obtain ⟨ys, hy⟩ := symbolShape_ends_low y
    rw [hw, List.flatMap_append, List.flatMap_singleton, hy, ← List.append_assoc, List.getLastD_concat]

/-- A share of the bit period and the rest of it make one bit period. -/
theorem share_add_rest (d : Rat) (p : Profile) : d * bitPeriod p + (1 - d) * bitPeriod p = 1 / p.frequency := by
  rw [← add_mul, add_sub_cancel, one_mul, bitPeriod]

theorem bitPeriod_pos (h : p.Legal) : 0 < bitPeriod p := by
  obtain ⟨-, -, -, hf, -⟩ := h
  exact one_div_pos.mpr hf

/-- Settles O57: `dout` by `doutPin_eq_low`, and the shares of the bit period, in the order of the duty fractions. -/
theorem symbolsTakeTheirTime : Obligations.SymbolsTakeTheirTime := by
  refine ⟨doutPin_eq_low, fun p hp => ?_⟩
  have hperiod := bitPeriod_pos hp
  obtain ⟨h0, h01, h1, -, -⟩ := hp
  refine ⟨⟨mul_one_div _ _, share_add_rest _ p⟩, ⟨mul_one_div _ _, share_add_rest _ p⟩, ⟨?_, ?_, ?_⟩, rfl, rfl⟩
  · exact mul_pos h0 hperiod
  · exact mul_lt_mul_of_pos_right h01 hperiod
  · exact mul_pos (sub_pos.mpr h1) hperiod

/-! ### Rounding (R222) -/

/-- The rounded value is the integer within half of `x`, the higher of two. -/
theorem roundNearest_bounds (x : Rat) : (roundNearest x : Rat) - 1 / 2 ≤ x ∧ x < (roundNearest x : Rat) + 1 / 2 := by
  have hle : (roundNearest x : Rat) ≤ x + 1 / 2 := Rat.floor_le _
  have hlt : x + 1 / 2 - 1 < (roundNearest x : Rat) := Rat.lt_floor
  constructor <;> linarith

theorem roundNearest_nonneg (hx : 0 ≤ x) : 0 ≤ roundNearest x := by
  rw [roundNearest, Rat.le_floor_iff, Int.cast_zero]
  positivity

/-- Rounding a value that is not negative gives a count. -/
theorem roundNearest_toNat (hx : 0 ≤ x) : ((roundNearest x).toNat : Int) = roundNearest x :=
  Int.toNat_of_nonneg (roundNearest_nonneg hx)

/-- Rounding up a value that is not negative gives the least count not below it. -/
theorem ceil_toNat_bounds (hx : 0 ≤ x) : x ≤ (x.ceil.toNat : Rat) ∧ (x.ceil.toNat : Rat) < x + 1 := by
  have hle : x ≤ (x.ceil : Rat) := Rat.le_ceil
  have hnonneg : 0 ≤ x.ceil := by exact_mod_cast hx.trans hle
  have hcast : (x.ceil.toNat : Rat) = (x.ceil : Rat) := by exact_mod_cast Int.toNat_of_nonneg hnonneg
  rw [hcast]
  exact ⟨hle, Rat.ceil_lt⟩

/-- Settles O58: none of the rounded values is negative, so the counts are what the rounding gives. -/
theorem tickCountsAreRounded : Obligations.TickCountsAreRounded := by
  refine ⟨roundNearest_bounds, fun f p hf hp => ?_⟩
  obtain ⟨h0, h01, -, hfreq, hdelay⟩ := hp
  have h1 := h0.trans h01
  obtain ⟨hle, hlt⟩ := ceil_toNat_bounds (x := f * p.resetDelay / 1000000) (by positivity)
  exact ⟨roundNearest_toNat (by positivity), roundNearest_toNat (by positivity), roundNearest_toNat (by positivity), hle, hlt⟩

end Sys2Proof.Machine
end
